-- ==== Sys2Proof/Word.lean ====
section
/-! DEFINITION. The word types of Sv32 (spec/00_scope.md section 4, rule R2): widths only, no operation
that a rule could change. -/

namespace Sys2Proof

/-- A 32-bit word: a virtual address (R40), a PTE (R43), an integer register or a control register. -/
abbrev Word := BitVec 32

/-- One byte of memory (R10: memory is byte-addressed). -/
abbrev Byte := BitVec 8

/-- A supervisor physical address, 34 bits (R21, R41). -/
abbrev PAddr := BitVec 34

/-- A physical page number, 22 bits (R41). -/
abbrev Ppn := BitVec 22

/-- An address-space identifier, at most 9 bits (R47). -/
abbrev Asid := BitVec 9

/-- The value of a data access of at most eight bytes, little-endian, unused high bits zero. -/
abbrev Datum := BitVec 64

end Sys2Proof
end

