-- ==== Sys2Proof/Config.lean ====
section
/-! DEFINITION. What an implementation fixes (spec/00_scope.md section 4, "Implementation parameters") and
the free values, constants with no body: what the spec leaves open is one of them applied to a counter or to
an address, so that nothing in Lean can evaluate it. -/

namespace Sys2Proof

/-- The two permitted schemes for the A and D bits (R15, R73, R74; decision D6: open). -/
inductive AdScheme
  /-- A page-fault is raised where A or D would have to be set (R73). -/
  | fault
  /-- The hardware sets A and D in memory (R74). -/
  | hwUpdate
deriving DecidableEq, Repr, Inhabited

/-- The implementation parameters. `State.cfg` holds one value of this type and no step changes it (R15), so
that a statement about every state is a statement about every implementation. -/
structure Config where
  /-- `AD_SCHEME`, one value for the whole system (R15). -/
  adScheme : AdScheme
  /-- `PABITS`: an address at or above 2^PABITS names no memory (R39). -/
  pabits : Nat
  /-- `NONLEAF_DAU_FAULT`: does a non-leaf PTE with D, A or U set page-fault at step 3 (R77)? -/
  nonleafDauFault : Bool
  /-- `ASIDLEN`, the number of implemented ASID bits, 0 to 9 (R47, decision D4). -/
  asidLen : Nat
deriving DecidableEq, Repr

/-- FREE: which A/D scheme the machine of `State.reset` has. The spec names no default (D6). -/
opaque Config.adSchemeAtReset : AdScheme

/-- FREE: at a step-2 read whose choice the state's script does not hold, which matching entry of the
address-translation cache answers, `none` being memory (R95, R97, U5), by the number of the draw. -/
opaque Config.freePick : Nat → Option Nat

/-- FREE: at such a read, whether an entry is kept (R94, U9), by the number of the draw. -/
opaque Config.freeFill : Nat → Bool

/-- FREE: the word an illegal-instruction exception writes into the trap-value register, by the number of
the draw: no rule of the spec states it (R124 speaks of page-faults and access-faults only). -/
opaque Config.freeTval : Nat → Word

/-- FREE: the contents of physical memory that nothing has written, by address (R135: unspecified). Only a
speculative walk, which is no act of the program, goes on with it. -/
opaque Config.powerOnByte : Nat → Byte

end Sys2Proof
end

