-- ==== Sys2Proof/Machine/State.lean ====
section
/-! DEFINITION. The state of the machine: everything spec/10_state.md gives the hart and its translation
unit, as plain data, the reasons a step can stop, and the state after reset. -/

namespace Sys2Proof.Machine

/-- The privilege modes (R9, R130). -/
inductive Mode
  | u | s | m
deriving DecidableEq, Repr

/-- The access types (R57). -/
inductive Acc
  | fetch | load | store
deriving DecidableEq, Repr

/-- The two kinds of exception the translation unit raises (R120). -/
inductive ExnKind
  | pageFault | accessFault
deriving DecidableEq, Repr

/-- An exception of the translation unit: its kind, the type of the original access (R120) and the virtual
address it reports (R124). -/
structure Exn where
  kind : ExnKind
  acc : Acc
  va : Word
deriving DecidableEq, Repr

/-- The level of a page table in the walk: `l1` is the root table (i = 1), `l0` the second (i = 0). -/
inductive Level
  | l1 | l0
deriving DecidableEq, Repr

/-- The level and the virtual-page-number bits an entry of the address-translation cache is filed under
(R14): `va.vpn[1]` at level 1, `va.vpn[1] ‖ va.vpn[0]` at level 0. -/
inductive VpnTag
  | l1 (vpn1 : BitVec 10)
  | l0 (vpn : BitVec 20)
deriving DecidableEq, Repr

/-- An entry of the address-translation cache (R14): the result of one step-2 read. -/
structure AtcEntry where
  /-- `satp.ASID` when the read was made. -/
  asid : Asid
  /-- This PTE, or a non-leaf PTE on the path to it, had G=1. -/
  global : Bool
  /-- `level` and `vpn` of R14. -/
  tag : VpnTag
  /-- The physical address that was read. -/
  addr : PAddr
  /-- The value the read returned. -/
  pte : Word
deriving DecidableEq, Repr

/-- A walk in progress (R90), between two of its memory events. -/
structure Walk where
  va : Word
  acc : Acc
  /-- The effective privilege mode of the access. -/
  priv : Mode
  /-- A speculative execution of the algorithm (R98, R99). -/
  speculative : Bool
  /-- The copy of `satp.ASID` taken in step 1 (R81). -/
  asid : Asid
  /-- The page number of the table to be read next: `a` of the algorithm is `table ‖ 0x000`. -/
  table : Ppn
  level : Level
  /-- Some non-leaf PTE on the path had G=1 (R68). -/
  globalAbove : Bool
  /-- The next step-2 read is the one after a failed compare, made from memory (R88). -/
  memOnly : Bool
  /-- The walk may still add entries mapping leaf PTEs to the cache (R99, R100). Step 1 sets it, and no
  SFENCE.VMA leaves behind a walk that would have to lose it (R110). -/
  leafFill : Bool
  /-- The step-2 reads the walk rests on, newest first. -/
  held : List AtcEntry
  /-- A leaf that passed steps 3 to 6 and whose step 7 is still to be done. -/
  leaf : Option Word
deriving DecidableEq, Repr

/-- What one memory event of a walk leads to. -/
inductive WalkOut
  /-- The walk goes on. -/
  | more (w : Walk)
  /-- Step 8: the translation is successful. -/
  | done (pa : PAddr)
  /-- An exception of the original access type. -/
  | raise (e : Exn)
  /-- A page table that nothing has written was read (R135). -/
  | unwritten
deriving DecidableEq, Repr

/-- The number of bytes of an explicit access. The spec leaves it to the enclosing instruction set; that it is 1, 2,
4 or 8 is the model's choice (log entry 43: DESIGN CHOICE). -/
inductive Size
  | b1 | b2 | b4 | b8
deriving DecidableEq, Repr

/-- What the enclosing hart decides of a store-conditional (decision D22: every one must be allowed). -/
inductive ScPlan
  /-- It may succeed: translated as a store, and the data written where the reservation is held. -/
  | succeed
  /-- It fails after its address was translated as a store; nothing is written. -/
  | failTranslated
  /-- It fails and its address is not translated. -/
  | failUntranslated
deriving DecidableEq, Repr

/-- The explicit accesses of R57. -/
inductive ReqKind
  | fetch
  | load
  /-- Load-reserved, with how far the reservation set reaches below and above the bytes read (R16: the
  spec states no size). -/
  | lr (below above : Nat)
  | store (v : Datum)
  | sc (v : Datum) (plan : ScPlan)
  /-- An AMO, with the value it writes; the operation is the enclosing instruction set's. -/
  | amo (v : Datum)
deriving DecidableEq, Repr

/-- An explicit access the enclosing hart asks for (R80). -/
structure Request where
  kind : ReqKind
  va : Word
  size : Size
deriving DecidableEq, Repr

/-- What an explicit access is made for. -/
inductive Goal
  /-- The fetch of the hart's own next instruction, at this program counter (R91). -/
  | instr (pc : Word)
  /-- A request of the enclosing hart. -/
  | request (r : Request)
deriving DecidableEq, Repr

/-- The bytes of an access that lie in one page, as virtual addresses (R38). -/
structure Piece where
  va : Word
  n : Nat
deriving DecidableEq, Repr

/-- The same bytes after translation. -/
structure PhysPiece where
  pa : PAddr
  n : Nat
deriving DecidableEq, Repr

/-- How far an explicit access has come. -/
inductive Phase
  /-- A piece is being walked: its walk, its size, the pieces after it, the pieces already translated. -/
  | walking (w : Walk) (n : Nat) (rest : List Piece) (ready : List PhysPiece)
  /-- Every piece is translated and checked; the access itself is still to be performed (R34). -/
  | ready (ps : List PhysPiece)
deriving DecidableEq, Repr

/-- An explicit access in progress. -/
structure Access where
  goal : Goal
  phase : Phase
deriving DecidableEq, Repr

/-- The control registers the spec names (R5, R7, R8, R127). -/
inductive Csr
  | satp | mstatus | sstatus | medeleg
  | stvec | sepc | scause | stval
  | mtvec | mepc | mcause | mtval
deriving DecidableEq, Repr

/-- One case in which a PMA or PMP check fails (R22). A field that is `none` matches anything. A list of
such rules can be any function of the arguments of `PhysCheck` (decision D7: open). -/
structure DenyRule where
  /-- The rule matches accesses whose first byte is at or above `lo` ... -/
  lo : Nat
  /-- ... and below `hi`. -/
  hi : Nat
  n : Option Nat
  acc : Option Acc
  implicit : Option Bool
  priv : Option Mode
deriving DecidableEq, Repr

/-- What the hart does next, in program order: the instructions of the base instruction set, as far as this
unit sees them (R25, R47, R51, R127), and, among them, its own instructions. -/
inductive HartOp
  | access (r : Request)
  /-- The hart fetches its own next instruction, at its program counter, and executes it (R91, R111: an
  SFENCE.VMA between two accesses in program order). -/
  | instr
  | csrWrite (c : Csr) (v : Word)
  | csrRead (c : Csr)
  | setReg (r : Nat) (v : Word)
  | setPc (v : Word)
  /-- The enclosing model's PMA and PMP state changes (D7). -/
  | setPhys (rules : List DenyRule)
  /-- The reservation is given up (the spec does not say when, N15). -/
  | dropReservation
  /-- Another synchronous exception of the enclosing hart, by its cause number. -/
  | raise (cause : Nat) (tval : Word)
  | sret
  | mret
deriving DecidableEq, Repr

/-- What happens outside the hart's program: the speculation and the cache of its own translation unit,
and the other agents. -/
inductive EnvEvent
  /-- It is the hart's turn. -/
  | hart
  /-- A speculative execution of the algorithm begins (R98). -/
  | specStart (va : Word) (acc : Acc) (priv : Mode)
  /-- The k-th speculative walk in flight makes its next memory event. -/
  | specStep (k : Nat)
  /-- The implementation gives up the k-th speculative walk. -/
  | specDrop (k : Nat)
  /-- The k-th entry of the address-translation cache is dropped (R94, U9). -/
  | evict (k : Nat)
  /-- Another hart, or another agent, stores to physical memory (R10, R18, D25). -/
  | remoteStore (pa : PAddr) (size : Size) (v : Datum)
  /-- An interrupt is taken in the middle of an explicit access (R34, R129). -/
  | interrupt
deriving DecidableEq, Repr

/-- The choices the spec leaves open at one memory event of a walk (R94, R95). -/
structure Choice where
  /-- `none`: memory answers; `some k`: the k-th matching cache entry does. -/
  pick : Option Nat
  /-- A value that came from memory is kept in the cache. -/
  fill : Bool
deriving DecidableEq, Repr

/-- What the unit answers to the enclosing hart. -/
inductive Reply
  | fetched (pas : List PhysPiece) (v : Datum)
  | loaded (pas : List PhysPiece) (v : Datum)
  | stored (pas : List PhysPiece)
  | scDone (pas : List PhysPiece) (success : Bool)
  | amoDone (pas : List PhysPiece) (old : Datum)
  | csrValue (v : Word)
  | faulted (e : Exn)
deriving DecidableEq, Repr

/-- The bytes a load-reserved has reserved, `lo ≤ a < hi` (R16). -/
structure Reservation where
  lo : Nat
  hi : Nat
deriving DecidableEq, Repr

/-- Physical memory: the bytes that have been written, addresses strictly rising. An address not listed
holds no value (R135: unspecified, not to be read before it is written). -/
abbrev Memory := List Host.Cell

/-- Why the machine stops. -/
inductive Fault
  /-- Raised by an instruction fetch, an explicit read or a page-table read of the program's own walks that
  reaches a byte nothing has written (R135: "a fault of the program being modelled"). Safe: a claim about
  the run becomes unprovable, never false. -/
  | unwrittenMemory
deriving DecidableEq, Repr

/-- Why an instruction has no meaning here. -/
inductive Refusal
  /-- The table's instruction has no meaning yet; raised by the dispatcher only. Safe. -/
  | notModelled (mnemonic : String)
  /-- Raised by the step when the word at the program counter has SFENCE.VMA's fixed bits but a non-zero rd
  field: "what they do is not in doc00" (R50, U14: refuse). Safe. -/
  | reservedEncoding (word : Word)
  /-- Raised by the step when the word at the program counter is no instruction of this spec: the enclosing
  instruction set decides (R50, U14: refuse). Safe. -/
  | enclosingInstruction (word : Word)
deriving DecidableEq, Repr

end Sys2Proof.Machine

namespace Sys2Proof

/-- FREE: what the address-translation cache holds after reset (R135: "arbitrary contents"). -/
opaque Config.atcAtReset : List Machine.AtcEntry

end Sys2Proof

namespace Sys2Proof.Machine

/-- The machine: one hart, its translation unit, and the physical memory (decision D1), with the inputs of
the step as lists that it consumes. -/
structure State where
  /-- Integer registers; slot 0 is `x0`, which the register operations never read or write. -/
  regs : Vector Word 32
  pc : Word
  /-- The current privilege mode (R9). -/
  mode : Mode
  /-- `mstatus`; `sstatus` is a view of it (R7, R8, R48). -/
  mstatus : Word
  /-- `satp` (R5, R47). -/
  satp : Word
  /-- `medeleg` (R127). -/
  medeleg : Word
  stvec : Word
  sepc : Word
  scause : Word
  stval : Word
  mtvec : Word
  mepc : Word
  mcause : Word
  mtval : Word
  /-- The LR/SC reservation set (R16). -/
  reservation : Option Reservation
  /-- Physical memory with every page table (R10). -/
  mem : Memory
  /-- The PMA and PMP state: the cases in which `PhysCheck` fails (R22, D7). -/
  phys : List DenyRule
  /-- The implementation parameters; no step changes them (R15). -/
  cfg : Config
  /-- The address-translation cache (R13, R14). -/
  atc : List AtcEntry
  /-- The speculative walks in flight (R98). -/
  spec : List Walk
  /-- The explicit access in progress, if there is one. -/
  access : Option Access
  /-- MODEL: what the hart does next, oldest first; with nothing listed, its own next instruction. -/
  ops : List HartOp
  /-- MODEL: whose turn it is, oldest first; the hart's when the list is empty. -/
  env : List EnvEvent
  /-- MODEL: the open choices of the coming memory events of walks, oldest first. -/
  script : List Choice
  /-- MODEL: how many free values have been drawn. -/
  draws : Nat
  /-- MODEL: the unit's answers, oldest first. -/
  replies : List Reply
deriving DecidableEq, Repr

/-- The implementation parameters of the machine after reset: the defaults the spec suggests (D4, D8, D9)
and, for the A/D scheme, which has no default (D6), a free value. -/
def State.resetConfig : Config :=
  { adScheme := Config.adSchemeAtReset, pabits := 34, nonleafDauFault := true, asidLen := 9 }

/-- The machine right after reset (R135): M-mode, no walk in flight, no reservation, memory unwritten, the
cache arbitrary. The registers whose reset value the spec leaves unspecified hold zero (assumption log,
entry 26: DESIGN CHOICE). -/
def State.reset : State :=
  { regs := Vector.replicate 32 0#32
    pc := 0#32
    mode := .m
    mstatus := 0#32
    satp := 0#32
    medeleg := 0#32
    stvec := 0#32
    sepc := 0#32
    scause := 0#32
    stval := 0#32
    mtvec := 0#32
    mepc := 0#32
    mcause := 0#32
    mtval := 0#32
    reservation := none
    mem := []
    phys := []
    cfg := State.resetConfig
    atc := Config.atcAtReset
    spec := []
    access := none
    ops := []
    env := []
    script := []
    draws := 0
    replies := [] }

/-- What the hart's turn comes to: an outcome of the step, or the word of the instruction it has fetched,
with the state in which that instruction is to be executed. -/
inductive HartOut
  | out (o : Host.Outcome State Fault Refusal)
  | fetched (word : Word) (s : State)

end Sys2Proof.Machine
end

