-- ==== Sys2Proof/Machine/Flags.lean ====
section
/-! DEFINITION. The one-bit and narrow fields of the words the machine works on: page-table entries (R43),
virtual and physical addresses (R40, R41), `satp` (R47) and the status register (R48). The hardware has no
arithmetic flags (spec/10_state.md section 5). Every bit position of the model stands in this file. -/

namespace Sys2Proof.Machine

/-! Page-table entries (R43: the layout is general knowledge of the family, log entry 4). -/

def pteV (p : Word) : Bool := p.getLsbD 0
def pteR (p : Word) : Bool := p.getLsbD 1
def pteW (p : Word) : Bool := p.getLsbD 2
def pteX (p : Word) : Bool := p.getLsbD 3
def pteU (p : Word) : Bool := p.getLsbD 4
def pteG (p : Word) : Bool := p.getLsbD 5
def pteA (p : Word) : Bool := p.getLsbD 6
def pteD (p : Word) : Bool := p.getLsbD 7

/-- The whole PPN of a PTE. -/
def ptePpn (p : Word) : Ppn := p.extractLsb' 10 22
/-- `pte.ppn[0]`. -/
def ptePpn0 (p : Word) : BitVec 10 := p.extractLsb' 10 10
/-- `pte.ppn[1]`. -/
def ptePpn1 (p : Word) : BitVec 12 := p.extractLsb' 20 12

/-- The value step 7 writes back: A set and, for a store, D set; every other bit as it was (R88, R71). -/
def pteWithAD (p : Word) (acc : Acc) : Word :=
  if acc = .store then p ||| 0x000000C0#32 else p ||| 0x00000040#32

/-! Virtual addresses (R40). -/

def vaVpn1 (va : Word) : BitVec 10 := va.extractLsb' 22 10
def vaVpn0 (va : Word) : BitVec 10 := va.extractLsb' 12 10
def vaPgoff (va : Word) : BitVec 12 := va.extractLsb' 0 12
/-- The whole VPN, `va[31:12]`. -/
def vaVpn (va : Word) : BitVec 20 := va.extractLsb' 12 20

/-- `va.vpn[i]`. -/
def vaVpnAt (va : Word) : Level → BitVec 10
  | .l1 => vaVpn1 va
  | .l0 => vaVpn0 va

/-- What a cache entry for this address at this level is filed under (R14). -/
def vaTag (va : Word) : Level → VpnTag
  | .l1 => .l1 (vaVpn1 va)
  | .l0 => .l0 (vaVpn va)

/-! Physical addresses (R41). -/

/-- `a + va.vpn[i] × PTESIZE`, which never carries (R83). -/
def pteAddr (table : Ppn) (vpn : BitVec 10) : PAddr := table ++ vpn ++ 0#2

/-- Step 8 for a leaf found at the given level (R89). -/
def leafAddr (p va : Word) : Level → PAddr
  | .l1 => ptePpn1 p ++ vaVpn0 va ++ vaPgoff va
  | .l0 => ptePpn1 p ++ ptePpn0 p ++ vaPgoff va

/-! `satp` (R47). -/

/-- `satp.MODE` is Sv32. -/
def satpSv32 (w : Word) : Bool := w.getLsbD 31
def satpAsid (w : Word) : Asid := w.extractLsb' 22 9
def satpPpn (w : Word) : Ppn := w.extractLsb' 0 22

/-- The implemented ASID bits, all ones: the low `ASIDLEN` bits (R47). -/
def asidMask (len : Nat) : Asid := BitVec.ofNat 9 (2 ^ len - 1)

/-- The ASID that a word names: its low `ASIDLEN` bits (R110). -/
def asidOfWord (len : Nat) (w : Word) : Asid := w.extractLsb' 0 9 &&& asidMask len

/-- `satp` with the unimplemented ASID bits zero (R47: "the rest read zero"). -/
def legalSatp (len : Nat) (w : Word) : Word :=
  w.extractLsb' 31 1 ++ (satpAsid w &&& asidMask len) ++ satpPpn w

/-! The status register (R48; SIE, MIE, SPIE, MPIE, SPP and TVM stand where the family has them, log entry
6). -/

def msSie (w : Word) : Bool := w.getLsbD 1
def msMie (w : Word) : Bool := w.getLsbD 3
def msSpie (w : Word) : Bool := w.getLsbD 5
def msMpie (w : Word) : Bool := w.getLsbD 7
def msSpp (w : Word) : Bool := w.getLsbD 8
def msMpp (w : Word) : BitVec 2 := w.extractLsb' 11 2
def msMprv (w : Word) : Bool := w.getLsbD 17
def msSum (w : Word) : Bool := w.getLsbD 18
def msMxr (w : Word) : Bool := w.getLsbD 19
def msTvm (w : Word) : Bool := w.getLsbD 20

/-- The bits of `mstatus` that `sstatus` shows (R7, R48): SIE, SPIE, SPP, SUM, MXR. -/
def sstatusMask : Word := 0x000C0122#32

/-- A word with one bit replaced. -/
def withBit (w : Word) (i : Nat) (b : Bool) : Word :=
  if b then w ||| (1#32 <<< i) else w &&& ~~~(1#32 <<< i)

/-- A status word with its MPP field replaced. -/
def withMpp (w : Word) (v : BitVec 2) : Word :=
  withBit (withBit w 11 (v.getLsbD 0)) 12 (v.getLsbD 1)

/-- The two-bit number of a privilege mode, which the spec does not give: the family's (log entry 46: PRESUMED). -/
def Mode.bits : Mode → BitVec 2
  | .u => 0#2
  | .s => 1#2
  | .m => 3#2

/-- The privilege mode a two-bit field names (log entry 46: PRESUMED). The number 2 names none; the machine never
holds it (the invariant says so), and it reads as the least privileged mode (log entry 13). -/
def modeOfBits (v : BitVec 2) : Mode :=
  if v = 3#2 then .m else if v = 1#2 then .s else .u

end Sys2Proof.Machine
end

