-- ==== Sys2Proof/Syntax.lean ====
section
/-! DEFINITION. The instructions: one constructor per row of spec/opcode_table.json, which has the single
row SFENCE.VMA. The base instruction set belongs to the enclosing hart (spec/00_scope.md section 3). -/

namespace Sys2Proof

/-- An instruction of the opcode table, with the register numbers of its fields as plain numbers;
`Instr.wf` says which numbers name a register. -/
inductive Instr
  /-- `SFENCE.VMA rs1, rs2` (R49, R110): two integer registers, both read, no destination. -/
  | sfenceVma (rs1 rs2 : Nat)
deriving DecidableEq, Repr

end Sys2Proof
end

