-- ==== Sys2Proof/Decode.lean ====
section
/-! DEFINITION. The decoder, total on any bytes and rejecting by name, and after it the encoder, both
written from spec/30_encoding.md rule R49 and the row of spec/opcode_table.json. -/

namespace Sys2Proof

/-- Why bytes are no instruction of this spec. -/
inductive DecodeError
  /-- Fewer than four bytes (R49: the instruction is 32 bits). -/
  | truncated
  /-- The SYSTEM encoding of SFENCE.VMA with a non-zero rd field (R50, U14). -/
  | reservedRd
  /-- Any other word: it belongs to the enclosing instruction set (R50, U14). -/
  | otherEncoding
deriving DecidableEq, Repr

/-- The bits of the word that the opcode table fixes (R49). -/
def sfenceMask : Word := 0xFE007FFF#32

/-- Their values (R49). -/
def sfenceMatch : Word := 0x12000073#32

/-- The fixed bits without those of the rd field (R49, R50). -/
def sfenceMaskButRd : Word := 0xFE00707F#32

/-- The 32-bit word whose bytes, lowest address first, are the arguments (R28). -/
def wordOfBytes (b0 b1 b2 b3 : Byte) : Word := b3 ++ b2 ++ b1 ++ b0

/-- The bytes of a word, lowest address first (R28). -/
def bytesOfWord (w : Word) : List Byte :=
  [w.extractLsb' 0 8, w.extractLsb' 8 8, w.extractLsb' 16 8, w.extractLsb' 24 8]

/-- Decodes one 32-bit word (R49); every other encoding is rejected by name (R50). -/
def decodeWord (w : Word) : Except DecodeError Instr :=
  if w &&& sfenceMask = sfenceMatch then
    .ok (.sfenceVma (w.extractLsb' 15 5).toNat (w.extractLsb' 20 5).toNat)
  else if w &&& sfenceMaskButRd = sfenceMatch then .error .reservedRd
  else .error .otherEncoding

/-- Decodes the instruction that a sequence of bytes begins with, and the bytes after it. -/
def decode : List Byte → Except DecodeError (Instr × List Byte)
  | b0 :: b1 :: b2 :: b3 :: rest =>
    match decodeWord (wordOfBytes b0 b1 b2 b3) with
    | .ok i => .ok (i, rest)
    | .error e => .error e
  | _ => .error .truncated

/-- The word of an instruction (R49): funct7, rs2, rs1, funct3, rd, opcode. -/
def encode : Instr → Word
  | .sfenceVma rs1 rs2 =>
    0b0001001#7 ++ BitVec.ofNat 5 rs2 ++ BitVec.ofNat 5 rs1 ++ 0b000#3 ++ 0b00000#5 ++ 0b1110011#7

/-- The bytes of an instruction, lowest address first. -/
def encodeBytes (i : Instr) : List Byte := bytesOfWord (encode i)

/-- The word whose low `nbits` bits are those of `w`, every higher bit zero. -/
def tableWord (nbits w : Nat) : Word := BitVec.ofNat 32 (w % 2 ^ nbits)

/-- The instruction the decoder reads from the bytes of the opcode table's word `w` of `nbits` bits. -/
def decodeTableWord (nbits w : Nat) : Option Instr :=
  match decode (bytesOfWord (tableWord nbits w)) with
  | .ok (i, _) => some i
  | .error _ => none

end Sys2Proof
end

