-- ==== Sys2Proof/Machine/Memory.lean ====
section
/-! DEFINITION. Physical memory (R10, R21): the canonical form, one byte, wider accesses, and the implicit
accesses of the walk (R27, R28, R30). -/

namespace Sys2Proof.Machine

/-- Every address is at least `lo` and inside the 34-bit space, and the addresses rise strictly. -/
def Memory.risingFrom : Nat → Memory → Bool
  | _, [] => true
  | lo, (a, _) :: rest => decide (lo ≤ a) && decide (a < 2 ^ 34) && Memory.risingFrom (a + 1) rest

/-- The canonical form of memory. An unlisted address holds no value, so no entry can repeat it. -/
def Memory.wf (m : Memory) : Bool := Memory.risingFrom 0 m

/-- The byte at an address; `none` where nothing has written (R135). -/
def Memory.read : Memory → Nat → Option Byte
  | [], _ => none
  | (a, b) :: rest, x => if x = a then some b else Memory.read rest x

/-- Stores one byte, keeping the addresses rising. -/
def Memory.write : Memory → Nat → Byte → Memory
  | [], x, v => [(x, v)]
  | (a, b) :: rest, x, v =>
    if x < a then (x, v) :: (a, b) :: rest
    else if x = a then (a, v) :: rest
    else (a, b) :: Memory.write rest x v

/-- The bytes at some addresses, if every one has been written. -/
def Memory.readAll (m : Memory) : List Nat → Option (List Byte)
  | [] => some []
  | a :: as =>
    match m.read a, m.readAll as with
    | some b, some bs => some (b :: bs)
    | _, _ => none

/-- Stores bytes at the addresses beside them, first to last. -/
def Memory.writeAll (m : Memory) : List (Nat × Byte) → Memory
  | [] => m
  | (a, b) :: rest => (m.write a b).writeAll rest

/-- The addresses of `n` bytes from `pa` on, modulo 2^34 (log entry 47: DESIGN CHOICE). -/
def byteAddrs (pa : PAddr) (n : Nat) : List Nat :=
  (List.range n).map fun i => (pa + BitVec.ofNat 34 i).toNat

/-- The addresses of the bytes of an access, in the order of its virtual addresses. -/
def pieceAddrs (ps : List PhysPiece) : List Nat :=
  ps.flatMap fun p => byteAddrs p.pa p.n

/-- The number whose bytes, least significant first, are these (R28). -/
def natOfBytes : List Byte → Nat
  | [] => 0
  | b :: bs => b.toNat + 256 * natOfBytes bs

/-- The value of a read of at most eight bytes (R28: little-endian). -/
def datumOfBytes (bs : List Byte) : Datum := BitVec.ofNat 64 (natOfBytes bs)

/-- The low `n` bytes of a value, least significant first (R28). -/
def datumBytes (v : Datum) (n : Nat) : List Byte :=
  (List.range n).map fun i => v.extractLsb' (8 * i) 8

/-- The number of bytes of an access. -/
def Size.bytes : Size → Nat
  | .b1 => 1
  | .b2 => 2
  | .b4 => 4
  | .b8 => 8

/-- The byte a speculative walk finds: what was written, or, where nothing was, a free value (R135). -/
def Memory.readFree (m : Memory) (a : Nat) : Byte := (m.read a).getD (Config.powerOnByte a)

/-- `PhysRead32` (R27, R28): the four bytes of a PTE in one event; `none` if one was never written. -/
def Memory.word (m : Memory) (pa : PAddr) : Option Word :=
  match m.read pa.toNat, m.read (pa + 1#34).toNat, m.read (pa + 2#34).toNat,
      m.read (pa + 3#34).toNat with
  | some b0, some b1, some b2, some b3 => some (wordOfBytes b0 b1 b2 b3)
  | _, _, _, _ => none

/-- The same read, with free values for bytes that nothing has written. -/
def Memory.wordFree (m : Memory) (pa : PAddr) : Word :=
  wordOfBytes (m.readFree pa.toNat) (m.readFree (pa + 1#34).toNat) (m.readFree (pa + 2#34).toNat)
    (m.readFree (pa + 3#34).toNat)

/-- The implicit read of a walk: a speculative walk goes on where nothing has been written. -/
def Memory.pteRead (m : Memory) (speculative : Bool) (pa : PAddr) : Option Word :=
  if speculative then some (m.wordFree pa) else m.word pa

/-- Stores the four bytes of a PTE in one event (R27: the entire PTE). -/
def Memory.writeWord (m : Memory) (pa : PAddr) (w : Word) : Memory :=
  m.writeAll ((byteAddrs pa 4).zip (bytesOfWord w))

/-- What comes of the atomic compare-and-write of step 7 (R30). -/
inductive CasOut
  /-- Memory held the expected value: the memory with the new one. -/
  | stored (m : Memory)
  /-- It held another value; nothing is written. -/
  | differs
  /-- A byte of the word was never written (R135). -/
  | unwritten
deriving DecidableEq, Repr

/-- `PhysCAS32` (R30). -/
def Memory.cas (m : Memory) (speculative : Bool) (pa : PAddr) (old new : Word) : CasOut :=
  match m.pteRead speculative pa with
  | none => .unwritten
  | some w => if w = old then .stored (m.writeWord pa new) else .differs

end Sys2Proof.Machine
end

