-- ==== Sys2Proof/Machine/Ops.lean ====
section
/-! DEFINITION. The named operations on registers and control registers, the physical checks, and the one
operation that takes an exception with the two returns beside it (R127). -/

namespace Sys2Proof.Machine

/-! Integer registers (R17 of the general-knowledge list: `x0` reads zero). -/

/-- `x[r]`; `x0` reads zero, and so does a number that names no register. -/
def State.reg (s : State) (r : Nat) : Word :=
  if r = 0 then 0#32 else s.regs.toList.getD r 0#32

/-- `x[r] <- v`; a write to `x0` is discarded. -/
def State.setReg (s : State) (r : Nat) (v : Word) : State :=
  if r = 0 then s else { s with regs := s.regs.setIfInBounds r v }

/-- `pc <- pc + n`, modulo 2^32. -/
def State.advancePc (s : State) (n : Word) : State := { s with pc := s.pc + n }

/-- Records an answer to the enclosing hart. -/
def State.reply (s : State) (r : Reply) : State := { s with replies := s.replies ++ [r] }

/-- Replaces physical memory. -/
def State.setMem (s : State) (m : Memory) : State := { s with mem := m }

/-- Adds an entry to the address-translation cache (R94). -/
def State.addAtc (s : State) (e : AtcEntry) : State := { s with atc := e :: s.atc }

/-- The choices for the next memory event of a walk, from the script while it lasts and free after that. -/
def State.nextChoice (s : State) : Choice :=
  match s.script with
  | c :: _ => c
  | [] => { pick := Config.freePick s.draws, fill := Config.freeFill s.draws }

/-- The state once those choices have been taken. -/
def State.afterChoice (s : State) : State :=
  match s.script with
  | _ :: cs => { s with script := cs }
  | [] => { s with draws := s.draws + 1 }

/-! Physical checks (R22, R39, decision D7). -/

/-- A field of a rule that matches one value, or any. -/
def fieldMatches {α : Type} [DecidableEq α] (field : Option α) (x : α) : Bool :=
  match field with
  | none => true
  | some y => decide (y = x)

/-- The rule is about this access. -/
def DenyRule.applies (r : DenyRule) (pa : PAddr) (n : Nat) (acc : Acc) (implicit : Bool) (priv : Mode) :
    Bool :=
  decide (r.lo ≤ pa.toNat) && decide (pa.toNat < r.hi) && fieldMatches r.n n && fieldMatches r.acc acc
    && fieldMatches r.implicit implicit && fieldMatches r.priv priv

/-- `PhysCheck(pa, n, acc, implicit)`: true is `ok`. It fails for an address at or above 2^PABITS (R39) and
where the PMA and PMP state denies the access; it may depend on the privilege mode (N11). -/
def State.physOk (s : State) (pa : PAddr) (n : Nat) (acc : Acc) (implicit : Bool) (priv : Mode) : Bool :=
  decide (pa.toNat < 2 ^ s.cfg.pabits) && !(s.phys.any fun r => r.applies pa n acc implicit priv)

/-! Control registers. -/

/-- The value `mstatus` takes when a word is written to it: a word whose MPP names no mode leaves MPP as it
was (log entry 13). -/
def legalMstatus (old w : Word) : Word :=
  if msMpp w = 2#2 then withMpp w (msMpp old) else w

/-- The value a control register reads as. -/
def State.csr (s : State) : Csr → Word
  | .satp => s.satp
  | .mstatus => s.mstatus
  | .sstatus => s.mstatus &&& sstatusMask
  | .medeleg => s.medeleg
  | .stvec => s.stvec
  | .sepc => s.sepc
  | .scause => s.scause
  | .stval => s.stval
  | .mtvec => s.mtvec
  | .mepc => s.mepc
  | .mcause => s.mcause
  | .mtval => s.mtval

/-- A write to a control register. A write to `satp` keeps only the implemented ASID bits (R47) and neither
flushes nor orders anything (R116); `sstatus` writes the bits it shows and no other (R7). -/
def State.setCsr (s : State) (c : Csr) (v : Word) : State :=
  match c with
  | .satp => { s with satp := legalSatp s.cfg.asidLen v }
  | .mstatus => { s with mstatus := legalMstatus s.mstatus v }
  | .sstatus => { s with mstatus := (s.mstatus &&& ~~~sstatusMask) ||| (v &&& sstatusMask) }
  | .medeleg => { s with medeleg := v }
  | .stvec => { s with stvec := v }
  | .sepc => { s with sepc := v }
  | .scause => { s with scause := v }
  | .stval => { s with stval := v }
  | .mtvec => { s with mtvec := v }
  | .mepc => { s with mepc := v }
  | .mcause => { s with mcause := v }
  | .mtval => { s with mtval := v }

/-! Privilege (R6, R9, R130). -/

/-- The effective privilege mode of an access (R9, D11): the current mode for a fetch; for a load or store
the current mode, but MPP in M-mode with MPRV set. -/
def State.effectiveMode (s : State) (acc : Acc) : Mode :=
  match acc with
  | .fetch => s.mode
  | .load | .store => if s.mode = .m && msMprv s.mstatus then modeOfBits (msMpp s.mstatus) else s.mode

/-- An access with this effective privilege mode is translated (R6, R80): `satp` is active and its MODE is
Sv32. -/
def State.translates (s : State) (priv : Mode) : Bool := decide (priv ≠ .m) && satpSv32 s.satp

/-! Exceptions (R120, R121, R127). -/

/-- The cause code of an exception of the translation unit (R121). -/
def Exn.cause (e : Exn) : Nat :=
  match e.kind, e.acc with
  | .accessFault, .fetch => 1
  | .accessFault, .load => 5
  | .accessFault, .store => 7
  | .pageFault, .fetch => 12
  | .pageFault, .load => 13
  | .pageFault, .store => 15

/-- The cause code of the illegal-instruction exception (log entry 19: the family's). -/
def illegalInstructionCause : Nat := 2

/-- The address of a trap vector: the vector register without its two low bits (log entry 21). -/
def vectorBase (v : Word) : Word := v &&& 0xFFFFFFFC#32

/-- An exception with this cause is taken to S-mode: it is delegated, and the hart is not in M-mode (R127). -/
def State.delegated (s : State) (cause : Nat) : Bool :=
  decide (s.mode ≠ .m) && s.medeleg.getLsbD cause

/-- A trap to S-mode (R127): `sepc`, `scause` and `stval` written, the mode saved in SPP and the interrupt
enable in SPIE, SIE cleared, S-mode entered, the pc at the address in `stvec`. SPP is 1 for S-mode and 0 for U-mode
(log entry 46: PRESUMED). -/
def State.trapToS (s : State) (cause : Nat) (tval : Word) : State :=
  { s with
    sepc := s.pc
    scause := BitVec.ofNat 32 cause
    stval := tval
    mstatus := withBit (withBit (withBit s.mstatus 8 (decide (s.mode ≠ .u))) 5 (msSie s.mstatus)) 1 false
    mode := .s
    pc := vectorBase s.stvec }

/-- A trap to M-mode (R127): the same with `mepc`, `mcause`, `mtval`, MPP, MPIE, MIE and `mtvec`. MPP holds the
mode's number (log entry 46: PRESUMED). -/
def State.trapToM (s : State) (cause : Nat) (tval : Word) : State :=
  { s with
    mepc := s.pc
    mcause := BitVec.ofNat 32 cause
    mtval := tval
    mstatus := withBit (withBit (withMpp s.mstatus s.mode.bits) 7 (msMie s.mstatus)) 3 false
    mode := .m
    pc := vectorBase s.mtvec }

/-- TAKING AN EXCEPTION (R127): to S-mode where `medeleg` delegates it, to M-mode otherwise. The saved pc is that
of the act that raised it, and the trap is precise (log entry 45: DESIGN CHOICE). -/
def State.takeException (s : State) (cause : Nat) (tval : Word) : State :=
  if s.delegated cause then s.trapToS cause tval else s.trapToM cause tval

/-- Taking an exception of the translation unit: the reported value is the virtual address (R124). -/
def State.takeExn (s : State) (e : Exn) : State := s.takeException e.cause e.va

/-- Taking the illegal-instruction exception. What its trap-value register receives is not stated: a free
value (log entry 20). -/
def State.takeIllegal (s : State) : State :=
  { s with draws := s.draws + 1 }.takeException illegalInstructionCause (Config.freeTval s.draws)

/-- `SRET` (R127: it undoes the trap): the pc from `sepc`, the mode from SPP (log entry 46), SIE from SPIE; then
SPIE is set, SPP names U-mode and MPRV is cleared, as the family has it (log entry 21). It is executed in every mode,
the spec naming none (log entry 41: DESIGN CHOICE). -/
def State.sret (s : State) : State :=
  { s with
    pc := s.sepc
    mode := if msSpp s.mstatus then .s else .u
    mstatus :=
      withBit (withBit (withBit (withBit s.mstatus 1 (msSpie s.mstatus)) 5 true) 8 false) 17 false }

/-- `MRET` (R127), likewise: the pc from `mepc`, the mode from MPP (log entry 46), MIE from MPIE; then MPIE is set, MPP
names U-mode, and MPRV is cleared unless the mode entered is M (log entry 21). It too is executed in every
mode (log entry 41: DESIGN CHOICE). -/
def State.mret (s : State) : State :=
  { s with
    pc := s.mepc
    mode := modeOfBits (msMpp s.mstatus)
    mstatus :=
      withBit (withMpp (withBit (withBit s.mstatus 3 (msMpie s.mstatus)) 7 true) 0#2) 17
        (msMprv s.mstatus && decide (modeOfBits (msMpp s.mstatus) = .m)) }

/-- The act of the hart's program that an explicit access is made for. -/
def Goal.op : Goal → HartOp
  | .instr _ => .instr
  | .request r => .access r

/-- Gives up the explicit access in progress (R34: the sequence is interruptible, and the instruction is
executed again later): what it was made for, a request or the hart's own next instruction, goes back to the
front of the hart's program. -/
def State.abandonAccess (s : State) : State :=
  match s.access with
  | none => s
  | some a => { s with access := none, ops := a.goal.op :: s.ops }

end Sys2Proof.Machine
end

