-- ==== Sys2Proof/Machine/Operands.lean ====
section
/-! DEFINITION. The operand forms: the two selections of SFENCE.VMA (R110, R112) and the pieces of an explicit
access (R38). -/

namespace Sys2Proof.Machine

/-- Which addresses an SFENCE.VMA selects (R110). -/
inductive AddrSel
  | all
  | page (va : Word)
deriving DecidableEq, Repr

/-- Which address spaces it selects (R110). -/
inductive AsidSel
  | all
  | one (asid : Asid)
deriving DecidableEq, Repr

/-- `addr_sel` of R110: every address for `rs1 = x0`, else the address in `x[rs1]`. -/
def State.addrSel (s : State) (rs1 : Nat) : AddrSel :=
  if rs1 = 0 then .all else .page (s.reg rs1)

/-- `asid_sel` of R110: every ASID for `rs2 = x0`, else the low ASIDLEN bits of `x[rs2]`. -/
def State.asidSel (s : State) (rs2 : Nat) : AsidSel :=
  if rs2 = 0 then .all else .one (asidOfWord s.cfg.asidLen (s.reg rs2))

/-- The pieces of an access of `n` bytes at `va`, one per page, lower address first (R38). The address after
the last one of the space is 0, and there the page at the top, with the first bytes, counts as the lower one
(log entry 24: DESIGN CHOICE). -/
def pieces (va : Word) (n : Nat) : List Piece :=
  let room := 4096 - (vaPgoff va).toNat
  if n ≤ room then [⟨va, n⟩] else [⟨va, room⟩, ⟨va + BitVec.ofNat 32 room, n - room⟩]

/-- The access type of a request (R57): load-reserved is a load; store-conditional and AMO are stores. -/
def ReqKind.acc : ReqKind → Acc
  | .fetch => .fetch
  | .load => .load
  | .lr _ _ => .load
  | .store _ => .store
  | .sc _ _ => .store
  | .amo _ => .store

/-- The access type of what an explicit access is made for. -/
def Goal.acc : Goal → Acc
  | .instr _ => .fetch
  | .request r => r.kind.acc

/-- Its virtual address. -/
def Goal.va : Goal → Word
  | .instr pc => pc
  | .request r => r.va

/-- Its number of bytes; an instruction of this spec is four bytes long (R49). -/
def Goal.bytes : Goal → Nat
  | .instr _ => 4
  | .request r => r.size.bytes

end Sys2Proof.Machine
end

