-- ==== Sys2Proof/Machine/Walker.lean ====
section
/-! DEFINITION. The virtual address translation process (spec/41_translation_process.md): the permission
predicate, the eight steps as a machine that makes one memory event at a time, and the whole walk as those
events in a row. -/

namespace Sys2Proof.Machine

/-- Step 5's predicate on the leaf (R66, whose lines cite R58 to R65). `priv` is S or U. -/
def leafPermits (pte : Word) (acc : Acc) (priv : Mode) (sum mxr : Bool) : Bool :=
  let privOk :=
    if priv = .u then pteU pte
    else if pteU pte then decide (acc ≠ .fetch) && sum
    else true
  let typeOk :=
    match acc with
    | .fetch => pteX pte
    | .load => pteR pte || (mxr && pteX pte)
    | .store => pteW pte
  privOk && typeOk

/-- Step 3 raises a page-fault on this PTE (R84): invalid, a reserved encoding, or, where
`NONLEAF_DAU_FAULT` says so, a non-leaf with D, A or U set (R77). -/
def pteReserved (cfg : Config) (pte : Word) : Bool :=
  !pteV pte || (!pteR pte && pteW pte)
    || (cfg.nonleafDauFault && !pteR pte && !pteW pte && !pteX pte && (pteD pte || pteA pte || pteU pte))

/-- A leaf PTE (R56, R85: the test of step 4). -/
def pteIsLeaf (pte : Word) : Bool := pteR pte || pteX pte

/-- A valid pointer: it passes step 3 and is no leaf (R112). -/
def pteIsPointer (cfg : Config) (pte : Word) : Bool := !pteReserved cfg pte && !pteIsLeaf pte

/-- Step 7 has something to do (R88): A clear, or a store and D clear. -/
def needsAD (pte : Word) (acc : Acc) : Bool := !pteA pte || (decide (acc = .store) && !pteD pte)

/-- Step 1 (R81). -/
def Walk.start (s : State) (va : Word) (acc : Acc) (priv : Mode) (speculative : Bool) : Walk :=
  { va, acc, priv, speculative
    asid := satpAsid s.satp
    table := satpPpn s.satp
    level := .l1
    globalAbove := false
    memOnly := false
    leafFill := true
    held := []
    leaf := none }

/-- `pte_addr` of step 2 (R82, R83). -/
def Walk.pteAddr (w : Walk) : PAddr := Machine.pteAddr w.table (vaVpnAt w.va w.level)

/-- The exceptions of a walk are of the original access's type and report its address (R120, R124). -/
def Walk.exn (w : Walk) (kind : ExnKind) : Exn := ⟨kind, w.acc, w.va⟩

/-- A cache entry matches the walk's next step-2 read (R95). -/
def Walk.matchesEntry (w : Walk) (e : AtcEntry) : Bool :=
  decide (e.tag = vaTag w.va w.level) && (decide (e.asid = w.asid) || e.global)

/-- The record of a read that memory answered (R14, R90): an invalid PTE makes no entry global (D15). Its ASID is
the walk's (R81, R94), also where `satp` has been written since the walk began (log entry 42: DESIGN CHOICE). -/
def Walk.record (w : Walk) (pte : Word) : AtcEntry :=
  { asid := w.asid
    global := w.globalAbove || (pteV pte && pteG pte)
    tag := vaTag w.va w.level
    addr := w.pteAddr
    pte }

/-- Adds the record to the cache where the choice says so and the walk may (R94, R99, R100). -/
def Walk.fill (w : Walk) (s : State) (fill : Bool) (e : AtcEntry) : State :=
  if fill && (w.leafFill || pteIsPointer s.cfg e.pte) then s.addAtc e else s

/-- The cache entry that answers the walk's next read, if one does: never after a failed compare (R88), and
otherwise the choice's (R95, R97). -/
def Walk.cached (w : Walk) (s : State) (pick : Option Nat) : Option AtcEntry :=
  if w.memOnly then none
  else match pick with
    | none => none
    | some k => (s.atc.filter w.matchesEntry)[k]?

/-- Step 7 raises a page-fault instead of setting the bits: under the scheme `Fault` (R73), and, for a
speculative walk, where the D bit would have to be set (R99). -/
def Walk.adStops (w : Walk) (cfg : Config) (pte : Word) : Bool :=
  decide (cfg.adScheme = .fault) || (w.speculative && decide (w.acc = .store) && !pteD pte)

/-- Steps 3 to 8 on a PTE that a step-2 read returned (R84 to R89); the compare-and-write of step 7 is the
walk's next memory event. Where the read after a failed compare finds a pointer, only that read was bound to
memory: the read at level 0 may use the cache again (log entry 37: DESIGN CHOICE). -/
def Walk.judge (w : Walk) (s : State) (e : AtcEntry) : WalkOut :=
  if pteReserved s.cfg e.pte then .raise (w.exn .pageFault)
  else if !pteIsLeaf e.pte then
    match w.level with
    | .l0 => .raise (w.exn .pageFault)
    | .l1 =>
      .more { w with
        table := ptePpn e.pte
        level := .l0
        globalAbove := w.globalAbove || pteG e.pte
        memOnly := false
        held := e :: w.held }
  else if !leafPermits e.pte w.acc w.priv (msSum s.mstatus) (msMxr s.mstatus) then .raise (w.exn .pageFault)
  else if decide (w.level = .l1) && decide (ptePpn0 e.pte ≠ 0#10) then .raise (w.exn .pageFault)
  else if needsAD e.pte w.acc then
    if w.adStops s.cfg e.pte then .raise (w.exn .pageFault)
    else .more { w with memOnly := false, held := e :: w.held, leaf := some e.pte }
  else .done (leafAddr e.pte w.va w.level)

/-- Step 2 and what follows from it (R82): the check of the PTE's address, made afresh at every read (D7,
D15), then the read, answered by a cache entry or by memory. -/
def Walk.readStep (w : Walk) (s : State) : WalkOut × State :=
  if !s.physOk w.pteAddr 4 .load true w.priv then (.raise (w.exn .accessFault), s)
  else
    match w.cached s s.nextChoice.pick with
    | some e => (w.judge s e, s.afterChoice)
    | none =>
      match s.mem.pteRead w.speculative w.pteAddr with
      | none => (.unwritten, s)
      | some pte => (w.judge s (w.record pte), w.fill s.afterChoice s.nextChoice.fill (w.record pte))

/-- Step 7's compare-and-write (R88, R30): the check of the store, then the compare against memory, never
against the cache (R96); after a failed compare the walk goes back to step 2 and reads memory. -/
def Walk.updateStep (w : Walk) (s : State) (pte : Word) : WalkOut × State :=
  if !s.physOk w.pteAddr 4 .store true w.priv then (.raise (w.exn .accessFault), s)
  else
    match s.mem.cas w.speculative w.pteAddr pte (pteWithAD pte w.acc) with
    | .unwritten => (.unwritten, s)
    | .differs => (.more { w with memOnly := true, held := w.held.tail, leaf := none }, s)
    | .stored m =>
      (.done (leafAddr (pteWithAD pte w.acc) w.va w.level),
        w.fill (s.afterChoice.setMem m) s.nextChoice.fill (w.record (pteWithAD pte w.acc)))

/-- The next memory event of a walk (R90). -/
def Walk.step (w : Walk) (s : State) : WalkOut × State :=
  match w.leaf with
  | none => w.readStep s
  | some pte => w.updateStep s pte

/-- The events of a walk in a row, at most `n` of them, with nothing between them (R90). -/
def Walk.run : Nat → Walk → State → WalkOut × State
  | 0, w, s => (.more w, s)
  | n + 1, w, s =>
    match w.step s with
    | (.more w', s') => Walk.run n w' s'
    | r => r

end Sys2Proof.Machine
end

