-- ==== Sys2Proof/Machine/Fence.lean ====
section
/-! DEFINITION. The SFENCE.VMA family, the one instruction of the opcode table (spec/42_sfence_vma.md). -/

namespace Sys2Proof.Machine

/-- The ASID condition of `Covered` (R112, R70). -/
def AsidSel.covers (sel : AsidSel) (e : AtcEntry) : Bool :=
  match sel with
  | .all => true
  | .one a => decide (e.asid = a) && !e.global

/-- The level an entry is filed under. -/
def VpnTag.level : VpnTag → Level
  | .l1 _ => .l1
  | .l0 _ => .l0

/-- The address condition of `Covered` (R112): with an address selected, a valid pointer is not covered. -/
def AddrSel.covers (sel : AddrSel) (cfg : Config) (e : AtcEntry) : Bool :=
  match sel with
  | .all => true
  | .page va => !pteIsPointer cfg e.pte && decide (e.tag = vaTag va e.tag.level)

/-- `Covered(e, addr_sel, asid_sel)` (R112). -/
def covered (cfg : Config) (addr : AddrSel) (asid : AsidSel) (e : AtcEntry) : Bool :=
  asid.covers e && addr.covers cfg e

/-- The effect of the fence on the translation unit (R110, R112): exactly the covered entries leave the cache, no
walk in flight survives (R110 step 3, D16), whatever the operands, and an explicit access in progress is
translated anew (R100; log entry 17). -/
def State.fence (s : State) (addr : AddrSel) (asid : AsidSel) : State :=
  { s.abandonAccess with
    atc := s.atc.filter fun e => !covered s.cfg addr asid e
    spec := [] }

/-- The mode may execute SFENCE.VMA (R115): M, or S with `mstatus.TVM` clear. -/
def State.mayFence (s : State) : Bool :=
  match s.mode with
  | .m => true
  | .s => !msTvm s.mstatus
  | .u => false

/-- SFENCE.VMA (R110): in a mode that may execute it, the fence and the next pc; in another, the
illegal-instruction exception (R115). -/
def execSfenceVma (rs1 rs2 : Nat) (s : State) : Host.Outcome State Fault Refusal :=
  if s.mayFence then .next ((s.fence (s.addrSel rs1) (s.asidSel rs2)).advancePc 4#32)
  else .next s.takeIllegal

end Sys2Proof.Machine
end

