-- ==== Sys2Proof/Machine/Environment.lean ====
section
/-! DEFINITION. What happens outside the hart's program: speculative walks (R98, R99), the cache losing
entries (R94), stores of other agents (R10, R18), and interruption (R34, R129). -/

namespace Sys2Proof.Machine

/-- A speculative walk may run now (R98): the mode is S or U and `satp.MODE` is Sv32. -/
def State.speculates (s : State) : Bool := s.translates s.mode

/-- A speculative execution begins, for any address, any access type and either of the modes S and U (R98). -/
def State.specStart (s : State) (va : Word) (acc : Acc) (priv : Mode) : State :=
  if s.speculates && decide (priv ≠ .m) then { s with spec := s.spec ++ [Walk.start s va acc priv true] }
  else s

/-- A speculative walk in flight makes its next memory event; it ends silently where the algorithm would
raise an exception (R99), and where its event falls at a moment at which `satp` is not active (R98). Neither a
write of `satp` (log entry 42: DESIGN CHOICE) nor a time without activity in which it has no event (log entry 44:
DESIGN CHOICE) ends it: it goes on from its own root and ASID. -/
def State.specStep (s : State) (k : Nat) : State :=
  match s.spec[k]? with
  | none => s
  | some w =>
    if s.speculates then
      match w.step s with
      | (.more w', s') => { s' with spec := s.spec.set k w' }
      | (_, s') => { s' with spec := s.spec.eraseIdx k }
    else { s with spec := s.spec.eraseIdx k }

/-- A store of another agent: one event, at a physical address (R10, R18). The byte after the last of the 34-bit space
is the one at address 0 (log entry 47: DESIGN CHOICE). -/
def State.remoteStore (s : State) (pa : PAddr) (size : Size) (v : Datum) : State :=
  s.setMem (s.mem.writeAll ((byteAddrs pa size.bytes).zip (datumBytes v size.bytes)))

/-- An event that is not the hart's turn. -/
def State.envEvent (s : State) : EnvEvent → State
  | .hart => s
  | .specStart va acc priv => s.specStart va acc priv
  | .specStep k => s.specStep k
  | .specDrop k => { s with spec := s.spec.eraseIdx k }
  | .evict k => { s with atc := s.atc.eraseIdx k }
  | .remoteStore pa size v => s.remoteStore pa size v
  | .interrupt => s.abandonAccess

end Sys2Proof.Machine
end

