-- ==== Sys2Proof/Machine/Explicit.lean ====
section
/-! DEFINITION. Explicit accesses (R80, R91 to R93): translation piece by piece, the access itself as an event
of its own (R34), the faults, and the hart's turn. -/

namespace Sys2Proof.Machine

/-- An exception ends an explicit access: the enclosing hart is told of a request's fault (R127), and the
trap is taken, precisely (log entry 45: DESIGN CHOICE). -/
def failAccess (s : State) (g : Goal) (e : Exn) : HartOut :=
  match g with
  | .instr _ => .out (.next (s.takeExn e))
  | .request _ => .out (.next ((s.reply (.faulted e)).takeExn e))

/-- The reservation set of a load-reserved (R16): the bytes read, widened as asked but cut to the base page
of the first piece. -/
def reservationOf (ps : List PhysPiece) (below above : Nat) : Option Reservation :=
  match ps with
  | [] => none
  | p :: _ =>
    let page := p.pa.toNat / 4096 * 4096
    some ⟨max page (p.pa.toNat - below), min (page + 4096) (p.pa.toNat + p.n + above)⟩

/-- Performs a read of a request whose pieces are translated; the value is what `answer` is given. -/
def performRead (s : State) (ps : List PhysPiece) (answer : Datum → State) : HartOut :=
  match s.mem.readAll (pieceAddrs ps) with
  | none => .out (.fault .unwrittenMemory)
  | some bs => .out (.next (answer (datumOfBytes bs)))

/-- Stores the low bytes of a value at the translated pieces. -/
def State.storeAt (s : State) (ps : List PhysPiece) (n : Nat) (v : Datum) : State :=
  s.setMem (s.mem.writeAll ((pieceAddrs ps).zip (datumBytes v n)))

/-- The reservation held, if there is one, covers every byte of the pieces. -/
def State.reserves (s : State) (ps : List PhysPiece) : Bool :=
  match s.reservation with
  | none => false
  | some r => (pieceAddrs ps).all fun a => decide (r.lo ≤ a) && decide (a < r.hi)

/-- What a store-conditional does at its translated pieces: it stores where the enclosing hart lets it succeed
and a reservation of its bytes is held (log entry 28: the family's); either way no reservation is left. -/
def State.storeConditional (s : State) (ps : List PhysPiece) (n : Nat) (v : Datum) (permitted : Bool) :
    State :=
  if permitted && s.reserves ps then
    { s.storeAt ps n v with reservation := none }.reply (.scDone ps true)
  else { s with reservation := none }.reply (.scDone ps false)

/-- Performs the explicit access of a request whose pieces are translated and checked (R22, R34). A requested fetch
reads memory as it is at that moment (log entry 48: DESIGN CHOICE). -/
def performRequest (s : State) (r : Request) (ps : List PhysPiece) : HartOut :=
  match r.kind with
  | .fetch => performRead s ps fun v => s.reply (.fetched ps v)
  | .load => performRead s ps fun v => s.reply (.loaded ps v)
  | .lr below above =>
    performRead s ps fun v =>
      { s with reservation := reservationOf ps below above }.reply (.loaded ps v)
  | .store v => .out (.next ((s.storeAt ps r.size.bytes v).reply (.stored ps)))
  | .sc v plan => .out (.next (s.storeConditional ps r.size.bytes v (decide (plan = .succeed))))
  | .amo v => performRead s ps fun old => (s.storeAt ps r.size.bytes v).reply (.amoDone ps old)

/-- Performs an explicit access whose pieces are translated: a request's, or the fetch of the hart's own next
instruction, whose word is handed to the step. -/
def performAccess (s : State) (g : Goal) (ps : List PhysPiece) : HartOut :=
  match g with
  | .request r => performRequest s r ps
  | .instr _ =>
    match s.mem.readAll (pieceAddrs ps) with
    | some [b0, b1, b2, b3] => .fetched (wordOfBytes b0 b1 b2 b3) s
    | _ => .out (.fault .unwrittenMemory)

/-- The untranslated pieces of an access (R23, R24: the address zero-extended), each checked (R80); the first
that fails gives an access-fault of the access's type at its own address (R123, R124). -/
def checkBare (s : State) (acc : Acc) (priv : Mode) : List Piece → Except Exn (List PhysPiece)
  | [] => .ok []
  | p :: rest =>
    if s.physOk (p.va.setWidth 34) p.n acc false priv then
      match checkBare s acc priv rest with
      | .ok ps => .ok (⟨p.va.setWidth 34, p.n⟩ :: ps)
      | .error e => .error e
    else .error ⟨.accessFault, acc, p.va⟩

/-- Begins an explicit access (R80): without translation it is checked and performed at once; with it, the
walk of its first piece is started. -/
def beginAccess (s : State) (g : Goal) : HartOut :=
  let priv := s.effectiveMode g.acc
  if s.translates priv then
    match pieces g.va g.bytes with
    | [] => .out (.next s)
    | p :: rest =>
      .out (.next { s with
        access := some ⟨g, .walking (Walk.start s p.va g.acc priv false) p.n rest []⟩ })
  else
    match checkBare s g.acc priv (pieces g.va g.bytes) with
    | .ok ps => performAccess s g ps
    | .error e => failAccess s g e

/-- A piece of the access `g` has been translated to `pa`: the final check (R80, R22), then the next piece
(R38), or the access is ready (R34). -/
def pieceDone (s : State) (g : Goal) (w : Walk) (n : Nat) (rest : List Piece) (ready : List PhysPiece)
    (pa : PAddr) : HartOut :=
  if s.physOk pa n w.acc false w.priv then
    match rest with
    | [] => .out (.next { s with access := some ⟨g, .ready (ready ++ [⟨pa, n⟩])⟩ })
    | p :: ps =>
      .out (.next { s with
        access := some ⟨g, .walking (Walk.start s p.va w.acc w.priv false) p.n ps
          (ready ++ [⟨pa, n⟩])⟩ })
  else failAccess { s with access := none } g (w.exn .accessFault)

/-- The next event of the explicit access in progress. -/
def advanceAccess (s : State) (a : Access) : HartOut :=
  match a.phase with
  | .ready ps => performAccess { s with access := none } a.goal ps
  | .walking w n rest ready =>
    match w.step s with
    | (.more w', s') => .out (.next { s' with access := some ⟨a.goal, .walking w' n rest ready⟩ })
    | (.raise e, s') => failAccess { s' with access := none } a.goal e
    | (.unwritten, _) => .out (.fault .unwrittenMemory)
    | (.done pa, s') => pieceDone s' a.goal w n rest ready pa

/-- A request of the enclosing hart; a store-conditional that fails untranslated is answered at once (D22). -/
def beginRequest (s : State) (r : Request) : HartOut :=
  match r.kind with
  | .sc _ .failUntranslated => .out (.next (s.storeConditional [] 0 0#64 false))
  | _ => beginAccess s (.request r)

/-- What the hart does next. Control registers are read and written, and SRET and MRET executed, in every
mode: the spec says nothing of the modes they need (log entries 38 and 41: DESIGN CHOICE). -/
def hartOp (s : State) : HartOp → HartOut
  | .access r => beginRequest s r
  | .instr => beginAccess s (.instr s.pc)
  | .csrWrite c v => .out (.next (s.setCsr c v))
  | .csrRead c => .out (.next (s.reply (.csrValue (s.csr c))))
  | .setReg r v => .out (.next (s.setReg r v))
  | .setPc v => .out (.next { s with pc := v })
  | .setPhys rules => .out (.next { s with phys := rules })
  | .dropReservation => .out (.next { s with reservation := none })
  | .raise cause tval => .out (.next (s.takeException cause tval))
  | .sret => .out (.next s.sret)
  | .mret => .out (.next s.mret)

/-- The hart's turn: the explicit access in progress goes on; else the next act of its program; else, with
nothing listed, it fetches its own next instruction (R91). One act at a time, in program order, so that every
trap is precise (log entry 45: DESIGN CHOICE). -/
def hartMove (s : State) : HartOut :=
  match s.access with
  | some a => advanceAccess s a
  | none =>
    match s.ops with
    | op :: rest => hartOp { s with ops := rest } op
    | [] => beginAccess s (.instr s.pc)

end Sys2Proof.Machine
end

