-- ==== Sys2Proof/Machine/Placement.lean ====
section
/-! DEFINITION. Placing an instruction where the next step fetches it. The spec gives no loader; this stands
for the load of a program from outside the machine (assumption log, entry 29). -/

namespace Sys2Proof.Machine

/-- The pieces of the next instruction at the physical addresses equal to its virtual ones (R24). -/
def State.fetchPieces (s : State) : List PhysPiece :=
  (pieces s.pc 4).map fun p => ⟨p.va.setWidth 34, p.n⟩

/-- The next fetch needs no walk and fails no check. -/
def State.fetchesDirectly (s : State) : Bool :=
  !s.translates s.mode && s.fetchPieces.all fun p => s.physOk p.pa p.n .fetch false s.mode

/-- Stores a word where the next step fetches: no event and no act of the enclosing hart comes before the
fetch; where a walk or a check would come first, the fetch stands as one already translated. -/
def State.placeWord (s : State) (w : Word) : State :=
  { s with
    mem := s.mem.writeAll ((pieceAddrs s.fetchPieces).zip (bytesOfWord w))
    env := []
    ops := []
    access := if s.fetchesDirectly then none else some ⟨.instr s.pc, .ready s.fetchPieces⟩ }

end Sys2Proof.Machine
end

