-- ==== Sys2Proof/Machine/Step.lean ====
section
/-! DEFINITION. One step of the machine: the turn of the hart or an event outside it. -/

namespace Sys2Proof.Machine

/-- What a word that is no instruction of this spec comes to (R50, U14). -/
def refuseWord (e : DecodeError) (w : Word) : Host.Outcome State Fault Refusal :=
  match e with
  | .reservedRd => .refused (.reservedEncoding w)
  | .truncated => .refused (.enclosingInstruction w)
  | .otherEncoding => .refused (.enclosingInstruction w)

/-- The hart's turn; a fetched word is decoded and executed at once. -/
def hartTurn (s : State) : Host.Outcome State Fault Refusal :=
  match hartMove s with
  | .out o => o
  | .fetched w s' =>
    match decodeWord w with
    | .ok i => exec i s'
    | .error e => refuseWord e w

/-- One step: the next event of the schedule; the hart's turn where the schedule is empty or says so. -/
def step (s : State) : Host.Outcome State Fault Refusal :=
  match s.env with
  | [] => hartTurn s
  | .hart :: rest => hartTurn { s with env := rest }
  | e :: rest => .next ({ s with env := rest }.envEvent e)

/-- The state whose very next step fetches and runs the instruction of the given bits: its bytes are stored
where the fetch reads, and it is the hart's turn to fetch (see `placeWord`). -/
def State.withFetchWord (s : State) (nbits w : Nat) : State := s.placeWord (tableWord nbits w)

end Sys2Proof.Machine
end

