-- ==== Sys2Proof/Machine/Reference.lean ====
section
/-! DEFINITION. The eight steps as one procedure (R90) for the case R37 singles out: no cache, no other
agent, memory alone. The machine does not run it; claims compare the machine's walk with it. -/

namespace Sys2Proof.Machine

/-- What the procedure answers, and the memory it leaves. -/
structure RefResult where
  out : WalkOut
  mem : Memory
deriving DecidableEq, Repr

/-- Steps 5 to 8 for a leaf `pte` read at `addr`, found at the given level (R86 to R89). -/
def refLeaf (s : State) (va : Word) (acc : Acc) (priv : Mode) (level : Level) (addr : PAddr) (pte : Word) :
    RefResult :=
  if !leafPermits pte acc priv (msSum s.mstatus) (msMxr s.mstatus) then
    ⟨.raise ⟨.pageFault, acc, va⟩, s.mem⟩
  else if decide (level = .l1) && decide (ptePpn0 pte ≠ 0#10) then ⟨.raise ⟨.pageFault, acc, va⟩, s.mem⟩
  else if needsAD pte acc then
    match s.cfg.adScheme with
    | .fault => ⟨.raise ⟨.pageFault, acc, va⟩, s.mem⟩
    | .hwUpdate =>
      if s.physOk addr 4 .store true priv then
        ⟨.done (leafAddr pte va level), s.mem.writeWord addr (pteWithAD pte acc)⟩
      else ⟨.raise ⟨.accessFault, acc, va⟩, s.mem⟩
  else ⟨.done (leafAddr pte va level), s.mem⟩

/-- `Walk(va, acc, priv)` of R90 with every step-2 read made from memory. -/
def refWalk (s : State) (va : Word) (acc : Acc) (priv : Mode) : RefResult :=
  let a1 := pteAddr (satpPpn s.satp) (vaVpn1 va)
  if !s.physOk a1 4 .load true priv then ⟨.raise ⟨.accessFault, acc, va⟩, s.mem⟩
  else
    match s.mem.word a1 with
    | none => ⟨.unwritten, s.mem⟩
    | some pte1 =>
      if pteReserved s.cfg pte1 then ⟨.raise ⟨.pageFault, acc, va⟩, s.mem⟩
      else if pteIsLeaf pte1 then refLeaf s va acc priv .l1 a1 pte1
      else
        let a0 := pteAddr (ptePpn pte1) (vaVpn0 va)
        if !s.physOk a0 4 .load true priv then ⟨.raise ⟨.accessFault, acc, va⟩, s.mem⟩
        else
          match s.mem.word a0 with
          | none => ⟨.unwritten, s.mem⟩
          | some pte0 =>
            if pteReserved s.cfg pte0 then ⟨.raise ⟨.pageFault, acc, va⟩, s.mem⟩
            else if pteIsLeaf pte0 then refLeaf s va acc priv .l0 a0 pte0
            else ⟨.raise ⟨.pageFault, acc, va⟩, s.mem⟩

end Sys2Proof.Machine
end

