-- ==== Sys2Proof/WellFormed.lean ====
section
/-! DEFINITION. The checks on raw data: register numbers of an instruction, and implementation parameters. -/

namespace Sys2Proof

/-- A number names an integer register: `x0` to `x31` (spec/10_state.md section 5). -/
def regNumberOk (r : Nat) : Bool := r < 32

/-- An instruction is well formed when each of its operands names a register. -/
def Instr.wf : Instr → Bool
  | .sfenceVma rs1 rs2 => regNumberOk rs1 && regNumberOk rs2

/-- The implementation parameters are legal: at most nine ASID bits (R47). -/
def Config.wf (c : Config) : Bool := c.asidLen ≤ 9

end Sys2Proof
end

