-- ==== Sys2Proof/Safety.lean ====
section
/-! DEFINITION. What counts as a safe run, and the terms in which claims speak of the machine: the invariant,
and what a walk's next step-2 read returns. -/

namespace Sys2Proof.Machine

/-- The machine runs `k` steps from `s` without a fault and without a refusal. -/
def SafeFor (k : Nat) (s : State) : Prop := ∃ t, Sys2Proof.core.run k s = .next t

/-- It is the hart's turn in `s`, the schedule being empty or naming the hart; `u` is `s` without that event. -/
def State.HartsTurn (s u : State) : Prop :=
  (s.env = [] ∧ u = s) ∨ ∃ rest, s.env = .hart :: rest ∧ u = { s with env := rest }

/-- In `u` the hart is about to fetch its own next instruction: no access is in progress, and its program
names that instruction next or lists nothing; `v` is `u` with that act taken off. -/
def State.AboutToFetch (u v : State) : Prop :=
  u.access = none ∧ ((u.ops = [] ∧ v = u) ∨ ∃ rest, u.ops = .instr :: rest ∧ v = { u with ops := rest })

/-- In `u` the hart is about to begin the access `g`: a request that its program names next, unless it is a
store-conditional that is not to be translated, or the fetch of its own next instruction; `v` is `u` with
that act taken off. -/
def State.Begins (u : State) (g : Goal) (v : State) : Prop :=
  (u.access = none ∧ ∃ r rest, u.ops = .access r :: rest ∧ (∀ d, r.kind ≠ .sc d .failUntranslated) ∧
      g = .request r ∧ v = { u with ops := rest }) ∨
    (g = .instr u.pc ∧ u.AboutToFetch v)

/-- The hart's next event in `u` fetches its own next instruction and finds these bytes, `v` being the state in
which that instruction is executed: the fetch needs no walk and its checks pass, or it stands translated. -/
def State.Fetches (u : State) (bs : List Byte) (v : State) : Prop :=
  (u.AboutToFetch v ∧ v.translates v.mode = false ∧
      (∀ p ∈ v.fetchPieces, v.physOk p.pa p.n .fetch false v.mode = true) ∧
      v.mem.readAll (pieceAddrs v.fetchPieces) = some bs) ∨
    ∃ pc ps, u.access = some ⟨.instr pc, .ready ps⟩ ∧ u.mem.readAll (pieceAddrs ps) = some bs ∧
      v = { u with access := none }

/-- The walk's next memory event is a step-2 read that passes its check and returns the entry `e`: a cache
entry, or the record of what memory holds (R82, R95). -/
def Walk.Reads (w : Walk) (s : State) (e : AtcEntry) : Prop :=
  w.leaf = none ∧ s.physOk w.pteAddr 4 .load true w.priv = true ∧
    (w.cached s s.nextChoice.pick = some e ∨
      (w.cached s s.nextChoice.pick = none ∧
        ∃ pte, s.mem.pteRead w.speculative w.pteAddr = some pte ∧ e = w.record pte))

/-- `e` is an entry that the walk may add to the cache at its next memory event (R14, R94): of the walk's ASID,
under the page-number bits of its level, of the PTE it is at, global where the PTE, if valid, or the pointer
above it is (R68, D15); and a walk that may add no leaf entry adds only pointers (R99, R100). -/
def Walk.MayAdd (w : Walk) (cfg : Config) (e : AtcEntry) : Prop :=
  e.asid = w.asid ∧ e.tag = vaTag w.va w.level ∧ e.addr = w.pteAddr ∧
    e.global = (w.globalAbove || (pteV e.pte && pteG e.pte)) ∧
    (w.leafFill = true ∨ pteIsPointer cfg e.pte = true)

/-- `p` is the first piece of the untranslated access `g` whose check fails (R22, R122). -/
def State.FirstDenied (s : State) (g : Goal) (p : Piece) : Prop :=
  ∃ pre post, pieces g.va g.bytes = pre ++ p :: post ∧
    (∀ q ∈ pre, s.physOk (q.va.setWidth 34) q.n g.acc false (s.effectiveMode g.acc) = true) ∧
    s.physOk (p.va.setWidth 34) p.n g.acc false (s.effectiveMode g.acc) = false

/-- What holds of every walk in flight: it is made for S or U (R6), and a leaf that waits for step 7 is the
value of the walk's last read, passed steps 3, 4 and 6, and needs a bit that the walk may set (R88, R99). -/
def Walk.Legal (cfg : Config) (w : Walk) : Prop :=
  w.priv ≠ .m ∧
    ∀ pte, w.leaf = some pte →
      (∃ e rest, w.held = e :: rest ∧ e.pte = pte) ∧
      pteReserved cfg pte = false ∧ pteIsLeaf pte = true ∧
      (w.level = .l1 → ptePpn0 pte = 0#10) ∧
      needsAD pte w.acc = true ∧ w.adStops cfg pte = false

/-- What holds of the explicit access in progress. -/
def Access.Legal (s : State) (a : Access) : Prop :=
  (∀ pc, a.goal = .instr pc → pc = s.pc) ∧
    ∀ w n rest ready, a.phase = .walking w n rest ready →
      w.Legal s.cfg ∧ w.speculative = false ∧ w.acc = a.goal.acc

/-- A reservation set lies inside one naturally aligned 4 KiB region (R16). -/
def Reservation.InOnePage (r : Reservation) : Prop :=
  ∃ page, page * 4096 ≤ r.lo ∧ r.lo ≤ r.hi ∧ r.hi ≤ page * 4096 + 4096

/-- The invariant of the machine: memory in its canonical form, MPP the number of a mode, no unimplemented
ASID bit set in `satp` (R47), legal parameters, the reservation inside one page (R16), and every walk in
flight legal. -/
def State.Inv (s : State) : Prop :=
  s.mem.wf = true ∧ msMpp s.mstatus ≠ 2#2 ∧ legalSatp s.cfg.asidLen s.satp = s.satp ∧
    s.cfg.wf = true ∧ (∀ r, s.reservation = some r → r.InOnePage) ∧
    (∀ w ∈ s.spec, w.Legal s.cfg ∧ w.speculative = true) ∧ (∀ a, s.access = some a → a.Legal s)

end Sys2Proof.Machine
end

