-- ==== Sys2Proof/Certificates/Slice0/Obligations.lean ====
section
/-! DEFINITION. The statements for the provers. Each docstring names the rule of spec/ it formalises; a clause
that rests on a choice of the model names the log entry. -/

open Sys2Proof Sys2Proof.Machine

/-! ## Encoding and decoding -/

/-- Words of spec/95_test_vectors.md section 4, each written out there from the fields of R49, decode to the
instructions they stand for, and the one with a non-zero rd field does not. -/
def Obligations.WrittenWordsDecode : Prop :=
  decodeWord 0x12000073#32 = .ok (.sfenceVma 0 0) ∧ decodeWord 0x12028073#32 = .ok (.sfenceVma 5 0) ∧
    decodeWord 0x12600073#32 = .ok (.sfenceVma 0 6) ∧ decodeWord 0x12628073#32 = .ok (.sfenceVma 5 6) ∧
    decodeWord 0x13FF8073#32 = .ok (.sfenceVma 31 31) ∧ decodeWord 0x120000F3#32 = .error .reservedRd

/-- R49: decode and encode agree. Every well-formed instruction is read back from its word, and from its bytes
whatever bytes follow them. -/
def Obligations.DecodeOfEncodeIsTheInstruction : Prop :=
  ∀ i : Instr, i.wf = true →
    decodeWord (encode i) = .ok i ∧ ∀ rest, decode (encodeBytes i ++ rest) = .ok (i, rest)

/-- R49, R50: a word decodes to an instruction exactly when it is that well-formed instruction's encoding; it
is rejected as `reservedRd` exactly when it has SFENCE.VMA's opcode, funct3 and funct7 and a non-zero rd
field. -/
def Obligations.DecodeAcceptsExactlyEncodings : Prop :=
  (∀ (w : Word) (i : Instr), decodeWord w = .ok i ↔ i.wf = true ∧ encode i = w) ∧
    ∀ w : Word, decodeWord w = .error .reservedRd ↔
      w.extractLsb' 0 7 = 0x73#7 ∧ w.extractLsb' 12 3 = 0#3 ∧ w.extractLsb' 25 7 = 0x09#7 ∧
        w.extractLsb' 7 5 ≠ 0#5

/-! ## The step -/

/-- A step runs the decoded instruction. On the hart's turn, when its next event fetches four bytes that decode
to `i`, the step is `exec i`: where the fetch needs no walk and its checks pass, whether the hart's program is
at an end or names its own instruction before further acts; and where the fetch stands translated, once that
access is over. That the hart fetches four bytes at its pc and executes them in the same step is the model's
choice (log entries 1 and 32). -/
def Obligations.StepRunsDecodedInstruction : Prop :=
  ∀ (s u v : State) (b0 b1 b2 b3 : Byte) (i : Instr), s.HartsTurn u → u.Fetches [b0, b1, b2, b3] v →
    decodeWord (wordOfBytes b0 b1 b2 b3) = .ok i → step s = exec i v

/-- R50 with U14: a word that the hart fetches, translated or not, and that is no SFENCE.VMA is refused by name:
as the reserved encoding where it differs in the rd field alone, as the enclosing instruction set's otherwise.
The form of the refusal is the model's (log entry 33), and so is the fetch of four bytes (log entry 32). -/
def Obligations.OtherWordsAreRefusedByName : Prop :=
  ∀ (s u v : State) (b0 b1 b2 b3 : Byte), s.HartsTurn u → u.Fetches [b0, b1, b2, b3] v →
    (decodeWord (wordOfBytes b0 b1 b2 b3) = .error .reservedRd →
      step s = .refused (.reservedEncoding (wordOfBytes b0 b1 b2 b3))) ∧
    (decodeWord (wordOfBytes b0 b1 b2 b3) = .error .otherEncoding →
      step s = .refused (.enclosingInstruction (wordOfBytes b0 b1 b2 b3)))

/-- An instruction placed by `withFetchWord` is the one the very next step runs, from every state: what the
step runs is `exec` of it in a state that differs from the placed one in the access field alone (log entry
29: how a program comes to run). -/
def Obligations.PlacedWordRunsNext : Prop :=
  ∀ (s : State) (w : Nat) (i : Instr), decodeTableWord 32 w = some i →
    step (s.withFetchWord 32 w) = exec i { s.withFetchWord 32 w with access := none }

/-! ## Reset and the invariant -/

/-- The machine after reset meets the invariant. -/
def Obligations.ResetMeetsInvariant : Prop := State.reset.Inv

/-- Every step keeps the invariant: canonical memory, MPP the number of a mode (the model's choice: a write of 2
keeps the old field, log entry 13; the numbers are the family's, log entry 46), no unimplemented ASID bit in
`satp` (R47), legal parameters, the reservation inside one base page (R16), every walk in flight legal (R6, R88,
R99). -/
def Obligations.StepKeepsInvariant : Prop :=
  ∀ s t : State, s.Inv → step s = .next t → t.Inv

/-- R135: the machine after reset is in M-mode with MPRV clear, no walk in flight, no explicit access in
progress and no reservation held, and no byte of memory has a value. -/
def Obligations.ResetState : Prop :=
  State.reset.mode = .m ∧ msMprv State.reset.mstatus = false ∧ State.reset.spec = [] ∧
    State.reset.access = none ∧ State.reset.reservation = none ∧ ∀ a, State.reset.mem.read a = none

/-- R15: the implementation parameters, the A/D scheme among them, are configuration and no step changes
them. -/
def Obligations.StepKeepsConfiguration : Prop :=
  ∀ s t : State, step s = .next t → t.cfg = s.cfg

/-! ## SFENCE.VMA -/

/-- R110, R112: in M-mode, and in S-mode with TVM clear (R115), SFENCE.VMA completes, for every two registers;
the pc moves by 4, and of each entry the cache keeps every copy or none: none exactly when the entry meets
the ASID condition and the address condition of R112. That no more is removed is decision D18 (log entry 18), the
privilege is the family's (log entry 19), and so is that the pc wraps after the last word (log entry 34). -/
def Obligations.SfenceCompletesRemovingExactlyCovered : Prop :=
  ∀ (rs1 rs2 : Nat) (s : State), rs1 < 32 → rs2 < 32 →
    (s.mode = .m ∨ (s.mode = .s ∧ msTvm s.mstatus = false)) →
    ∃ t, exec (.sfenceVma rs1 rs2) s = .next t ∧ t.pc = s.pc + 4#32 ∧
      ∀ e : AtcEntry,
        (((rs2 = 0 ∨ (e.asid = (s.reg rs2).extractLsb' 0 9 &&& asidMask s.cfg.asidLen ∧ e.global = false)) ∧
          (rs1 = 0 ∨ (pteIsPointer s.cfg e.pte = false ∧
            (e.tag = .l1 ((s.reg rs1).extractLsb' 22 10) ∨ e.tag = .l0 ((s.reg rs1).extractLsb' 12 20))))) →
          e ∉ t.atc) ∧
        (¬((rs2 = 0 ∨ (e.asid = (s.reg rs2).extractLsb' 0 9 &&& asidMask s.cfg.asidLen ∧ e.global = false)) ∧
          (rs1 = 0 ∨ (pteIsPointer s.cfg e.pte = false ∧
            (e.tag = .l1 ((s.reg rs1).extractLsb' 22 10) ∨ e.tag = .l0 ((s.reg rs1).extractLsb' 12 20))))) →
          t.atc.count e = s.atc.count e)

/-- R110 ("State written: the executing hart's ATC, and nothing else") with R114: where SFENCE.VMA executes,
every register but the pc, every control register, every byte of memory, the mode, the reservation, the
checks and the parameters are unchanged; nothing is drawn and nothing answered; with no explicit access in
progress the enclosing hart's program is unchanged too. -/
def Obligations.SfenceFrame : Prop :=
  ∀ (rs1 rs2 : Nat) (s t : State), (s.mode = .m ∨ (s.mode = .s ∧ msTvm s.mstatus = false)) →
    exec (.sfenceVma rs1 rs2) s = .next t →
      (∀ r, t.reg r = s.reg r) ∧ t.regs = s.regs ∧ t.mode = s.mode ∧ (∀ c, t.csr c = s.csr c) ∧
      (∀ a, t.mem.read a = s.mem.read a) ∧ t.mem = s.mem ∧
      t.reservation = s.reservation ∧ t.phys = s.phys ∧ t.cfg = s.cfg ∧ t.env = s.env ∧
      t.script = s.script ∧ t.draws = s.draws ∧ t.replies = s.replies ∧
      (s.access = none → t.access = none ∧ t.ops = s.ops)

/-- R115: in U-mode, and in S-mode with TVM set, SFENCE.VMA raises an illegal-instruction exception, which the
model takes as R127 describes: to M-mode when it is not delegated, to S-mode when it is; the cache, the
walks, the registers and memory are untouched. The cause number 2 is the family's (log entry 19), and so is that
the vector is used without its two low bits (log entry 21); the numbers that MPP and SPP hold for the modes are the
family's too (log entry 46); the trap-value register is unconstrained (log entry 20). -/
def Obligations.SfenceTrapsWhereIllegal : Prop :=
  ∀ (rs1 rs2 : Nat) (s : State), (s.mode = .u ∨ (s.mode = .s ∧ msTvm s.mstatus = true)) →
    ∃ t, exec (.sfenceVma rs1 rs2) s = .next t ∧ t.regs = s.regs ∧ t.mem = s.mem ∧ t.atc = s.atc ∧
      t.spec = s.spec ∧ t.satp = s.satp ∧
      (s.medeleg.getLsbD 2 = false →
        t.mode = .m ∧ t.mepc = s.pc ∧ t.mcause = 2#32 ∧ t.pc = s.mtvec &&& 0xFFFFFFFC#32 ∧
          msMpp t.mstatus = s.mode.bits ∧ msMpie t.mstatus = msMie s.mstatus ∧ msMie t.mstatus = false ∧
          t.sepc = s.sepc ∧ t.scause = s.scause ∧ t.stval = s.stval) ∧
      (s.medeleg.getLsbD 2 = true →
        t.mode = .s ∧ t.sepc = s.pc ∧ t.scause = 2#32 ∧ t.pc = s.stvec &&& 0xFFFFFFFC#32 ∧
          msSpp t.mstatus = decide (s.mode = .s) ∧ msSpie t.mstatus = msSie s.mstatus ∧
          msSie t.mstatus = false ∧ t.mepc = s.mepc ∧ t.mcause = s.mcause ∧ t.mtval = s.mtval)

/-- R100 with R112: the full fence, `rs1 = rs2 = x0`, empties the cache and leaves no walk in flight. -/
def Obligations.FullFenceEmptiesCacheAndWalks : Prop :=
  ∀ s : State, (s.mode = .m ∨ (s.mode = .s ∧ msTvm s.mstatus = false)) →
    ∃ t, exec (.sfenceVma 0 0) s = .next t ∧ t.atc = [] ∧ t.spec = [] ∧ t.access = none

/-- R110, R100, R99: no walk in flight survives an SFENCE.VMA, whatever its operands: no speculative walk is left, and
an explicit access in progress is asked for again, first, to be translated anew (that the model asks again where
an implementation may wait is log entry 17's). So no entry is added to the cache by a walk that a fence would have
forbidden it; and of a walk that may add no entry mapping a leaf, in whatever state, an event adds to the cache no
entry but a pointer that passes step 3, and the walk that goes on from it is such a walk. -/
def Obligations.NoWalkOutlivesItsFence : Prop :=
  (∀ (rs1 rs2 : Nat) (s t : State), (s.mode = .m ∨ (s.mode = .s ∧ msTvm s.mstatus = false)) →
    exec (.sfenceVma rs1 rs2) s = .next t →
      t.spec = [] ∧ t.access = none ∧
      (∀ r ph, s.access = some ⟨.request r, ph⟩ → t.ops = .access r :: s.ops) ∧
      ∀ pc ph, s.access = some ⟨.instr pc, ph⟩ → t.ops = .instr :: s.ops) ∧
  ∀ (w : Walk) (s t : State) (o : WalkOut), w.leafFill = false → w.step s = (o, t) →
    (∀ e ∈ t.atc, e ∈ s.atc ∨ pteIsPointer s.cfg e.pte = true) ∧
    ∀ w', o = .more w' → w'.leafFill = false

/-- R111, R112: after an SFENCE.VMA, a step-2 read it selects, by `x[rs1]` in the page-number bits of the read's
level or by rs1 = x0, and by the ASID of `x[rs2]` or by rs2 = x0, is answered from memory, that is, with what
was last stored there; but for two kinds of entry the fence may leave: with rs1 ≠ x0 a pointer that passes step
3, with rs2 ≠ x0 a global one. -/
def Obligations.FencedReadsComeFromMemory : Prop :=
  ∀ (rs1 rs2 : Nat) (s t : State) (w : Walk),
    (s.mode = .m ∨ (s.mode = .s ∧ msTvm s.mstatus = false)) → exec (.sfenceVma rs1 rs2) s = .next t →
    (rs1 = 0 ∨ vaVpn w.va = vaVpn (s.reg rs1) ∨ (w.level = .l1 ∧ vaVpn1 w.va = vaVpn1 (s.reg rs1))) →
    (rs2 = 0 ∨ w.asid = (s.reg rs2).extractLsb' 0 9 &&& asidMask s.cfg.asidLen) →
      (∀ pick e, w.cached t pick = some e →
        (rs1 ≠ 0 ∧ pteIsPointer s.cfg e.pte = true) ∨ (rs2 ≠ 0 ∧ e.global = true)) ∧
      ∀ e, w.Reads t e →
        t.mem.pteRead w.speculative w.pteAddr = some e.pte ∨
          (rs1 ≠ 0 ∧ pteIsPointer s.cfg e.pte = true) ∨ (rs2 ≠ 0 ∧ e.global = true)

/-- R114: SFENCE.VMA makes no translation of `x[rs1]`: what memory holds, and which accesses the checks allow,
has no influence on anything it does. -/
def Obligations.SfenceIgnoresMemoryAndChecks : Prop :=
  ∀ (rs1 rs2 : Nat) (s t : State) (m : Memory) (rules : List DenyRule),
    exec (.sfenceVma rs1 rs2) s = .next t →
      exec (.sfenceVma rs1 rs2) { s with mem := m, phys := rules } = .next { t with mem := m, phys := rules }

/-! ## Formats -/

/-- R83: the address of a PTE is the table's base plus four times the index, without carry, and it is 4-byte
aligned and inside the table's page. -/
def Obligations.PteAddressNeverCarries : Prop :=
  ∀ (table : Ppn) (vpn : BitVec 10),
    (pteAddr table vpn).toNat = table.toNat * 4096 + vpn.toNat * 4 ∧
      (pteAddr table vpn).toNat % 4 = 0 ∧ (pteAddr table vpn).toNat / 4096 = table.toNat

/-- R40: the fields of a virtual address partition its 32 bits. -/
def Obligations.VirtualAddressPartition : Prop :=
  ∀ va : Word, va.toNat = (vaVpn1 va).toNat * 2 ^ 22 + (vaVpn0 va).toNat * 2 ^ 12 + (vaPgoff va).toNat ∧
    (vaVpn va).toNat = (vaVpn1 va).toNat * 2 ^ 10 + (vaVpn0 va).toNat

/-- R89: step 8's address. Whenever a memory event of a walk completes the translation, the address is that of a
leaf the walk has read: for a leaf at level 0 its PPN and the page offset, for a superpage its PPN[1],
`va.vpn[0]` and the page offset. -/
def Obligations.TranslatedAddressComposition : Prop :=
  ∀ (w : Walk) (s t : State) (pa : PAddr), w.step s = (.done pa, t) →
    ∃ pte : Word, (w.leaf = some pte ∨ ∃ e, w.Reads s e ∧ e.pte = pte) ∧
      (w.level = .l0 → pa.toNat = (ptePpn pte).toNat * 4096 + (vaPgoff w.va).toNat) ∧
      (w.level = .l1 → pa.toNat =
        (ptePpn1 pte).toNat * 2 ^ 22 + (vaVpn0 w.va).toNat * 2 ^ 12 + (vaPgoff w.va).toNat)

/-- R28: the byte at `pa` holds bits 7:0 of a word, the byte at `pa + 3` bits 31:24; and a word written is read
back, the bytes outside its four being as before. -/
def Obligations.WordsAreLittleEndian : Prop :=
  ∀ (m : Memory) (pa : PAddr) (w : Word),
    (m.writeWord pa w).read pa.toNat = some (w.extractLsb' 0 8) ∧
    (m.writeWord pa w).read (pa + 1#34).toNat = some (w.extractLsb' 8 8) ∧
    (m.writeWord pa w).read (pa + 2#34).toNat = some (w.extractLsb' 16 8) ∧
    (m.writeWord pa w).read (pa + 3#34).toNat = some (w.extractLsb' 24 8) ∧
    (m.writeWord pa w).word pa = some w ∧
    ∀ a, (∀ i < 4, a ≠ (pa + BitVec.ofNat 34 i).toNat) → (m.writeWord pa w).read a = m.read a

/-! ## The walk: steps 2 to 8 -/

/-- R82: where the check of a PTE's address fails, an access-fault of the original access's type is raised, and
nothing is read or written. -/
def Obligations.PteReadCheckRaisesAccessFault : Prop :=
  ∀ (w : Walk) (s : State), w.leaf = none → s.physOk w.pteAddr 4 .load true w.priv = false →
    w.step s = (.raise ⟨.accessFault, w.acc, w.va⟩, s)

/-- R55: a PTE with V=0 stops the walk with a page-fault of the original access's type, at either level,
whatever its other bits; memory is not written. -/
def Obligations.InvalidPteFaults : Prop :=
  ∀ (w : Walk) (s : State) (e : AtcEntry), w.Reads s e → pteV e.pte = false →
    (w.step s).1 = .raise ⟨.pageFault, w.acc, w.va⟩ ∧ (w.step s).2.mem = s.mem

/-- The reserved encodings of R45, at step 3 (R84): W=1 with R=0 page-faults, X set or not; so does a non-leaf
with D, A or U set where `NONLEAF_DAU_FAULT` holds (the spec's decision D9, log entry 10); where it does not
hold, those three bits of a pointer are ignored. -/
def Obligations.ReservedEncodingsFault : Prop :=
  ∀ (w : Walk) (s : State) (e : AtcEntry), w.Reads s e →
    (pteR e.pte = false → pteW e.pte = true →
      (w.step s).1 = .raise ⟨.pageFault, w.acc, w.va⟩ ∧ (w.step s).2.mem = s.mem) ∧
    (pteR e.pte = false → pteW e.pte = false → pteX e.pte = false → s.cfg.nonleafDauFault = true →
      (pteD e.pte = true ∨ pteA e.pte = true ∨ pteU e.pte = true) →
      (w.step s).1 = .raise ⟨.pageFault, w.acc, w.va⟩ ∧ (w.step s).2.mem = s.mem) ∧
    (pteV e.pte = true → pteR e.pte = false → pteW e.pte = false → pteX e.pte = false →
      s.cfg.nonleafDauFault = false → w.level = .l1 →
      ∃ w', (w.step s).1 = .more w' ∧ w'.table = ptePpn e.pte ∧ w'.level = .l0)

/-- R85, R68: a pointer that passes step 3 is followed at level 1: the next read is made in the table its PPN
names, with `va.vpn[0]`, and a global pointer makes what is below it global; at level 0 it is a page-fault. -/
def Obligations.PointersAreFollowedOnceOnly : Prop :=
  ∀ (w : Walk) (s : State) (e : AtcEntry), w.Reads s e → pteReserved s.cfg e.pte = false →
    pteR e.pte = false → pteX e.pte = false →
      (w.level = .l0 → (w.step s).1 = .raise ⟨.pageFault, w.acc, w.va⟩) ∧
      (w.level = .l1 → ∃ w', (w.step s).1 = .more w' ∧ w'.leaf = none ∧ w'.level = .l0 ∧
        w'.pteAddr = ptePpn e.pte ++ vaVpn0 w.va ++ 0#2 ∧
        w'.globalAbove = (w.globalAbove || pteG e.pte) ∧ w'.va = w.va ∧ w'.acc = w.acc ∧ w'.priv = w.priv ∧
        w'.asid = w.asid)

/-- R58, R60, R62, R64: a leaf that does not permit the access stops the walk with a page-fault of its type: a
fetch without X; a store without W, whatever SUM and MXR; any access of U-mode to a page with U=0; a fetch of
S-mode from a page with U=1, whatever SUM. -/
def Obligations.ForbiddenAccessesPageFault : Prop :=
  ∀ (w : Walk) (s : State) (e : AtcEntry), w.Reads s e → pteIsLeaf e.pte = true →
    ((w.acc = .fetch ∧ pteX e.pte = false) ∨ (w.acc = .store ∧ pteW e.pte = false) ∨
     (w.priv = .u ∧ pteU e.pte = false) ∨ (w.priv = .s ∧ pteU e.pte = true ∧ w.acc = .fetch)) →
    (w.step s).1 = .raise ⟨.pageFault, w.acc, w.va⟩ ∧ (w.step s).2.mem = s.mem

/-- R59 with R65, and R63: a load from a page that is not readable, X under MXR counting as readable, and a load
or store of S-mode to a page with U=1 while SUM=0, page-fault. The effect of MXR is general knowledge in the
spec (decision D10). -/
def Obligations.UnreadableAndUserPagesPageFault : Prop :=
  ∀ (w : Walk) (s : State) (e : AtcEntry), w.Reads s e → pteIsLeaf e.pte = true →
    ((w.acc = .load ∧ pteR e.pte = false ∧ (msMxr s.mstatus = false ∨ pteX e.pte = false)) ∨
     (w.priv = .s ∧ pteU e.pte = true ∧ w.acc ≠ .fetch ∧ msSum s.mstatus = false)) →
    (w.step s).1 = .raise ⟨.pageFault, w.acc, w.va⟩ ∧ (w.step s).2.mem = s.mem

/-- R86, R87, R88, R89 the other way round: a leaf that permits the access (R66), is no misaligned superpage and
has the A and D bits the access needs translates it, memory being unwritten; G and RSW play no part (R67,
R71). -/
def Obligations.PermittedAccessTranslates : Prop :=
  ∀ (w : Walk) (s : State) (e : AtcEntry), w.Reads s e → w.priv ≠ .m →
    pteV e.pte = true → (pteR e.pte = true ∨ pteW e.pte = false) →
    (w.acc = .fetch → pteX e.pte = true) →
    (w.acc = .load → pteR e.pte = true ∨ (msMxr s.mstatus = true ∧ pteX e.pte = true)) →
    (w.acc = .store → pteW e.pte = true) →
    (w.priv = .u → pteU e.pte = true) →
    (w.priv = .s → pteU e.pte = true → w.acc ≠ .fetch ∧ msSum s.mstatus = true) →
    (w.level = .l1 → ptePpn0 e.pte = 0#10) →
    pteA e.pte = true → (w.acc = .store → pteD e.pte = true) →
      (w.step s).1 = .done (leafAddr e.pte w.va w.level) ∧ (w.step s).2.mem = s.mem

/-- R87, R76: a leaf at level 1 whose PPN[0] is not 0 is a misaligned superpage and page-faults, whatever its
permissions. -/
def Obligations.MisalignedSuperpageFaults : Prop :=
  ∀ (w : Walk) (s : State) (e : AtcEntry), w.Reads s e → pteIsLeaf e.pte = true → w.level = .l1 →
    ptePpn0 e.pte ≠ 0#10 →
      (w.step s).1 = .raise ⟨.pageFault, w.acc, w.va⟩ ∧ (w.step s).2.mem = s.mem

/-- R73: under the scheme `Fault`, a leaf with A clear, or with D clear when the access is a store, page-faults
and memory is not written; where the access is permitted (R86) and the bits it needs are set, it succeeds, so
that D clear stops no load and no fetch. -/
def Obligations.FaultSchemeRaisesOnClearBits : Prop :=
  ∀ (w : Walk) (s : State) (e : AtcEntry), w.Reads s e → s.cfg.adScheme = .fault →
    (pteIsLeaf e.pte = true → (pteA e.pte = false ∨ (w.acc = .store ∧ pteD e.pte = false)) →
      (w.step s).1 = .raise ⟨.pageFault, w.acc, w.va⟩ ∧ (w.step s).2.mem = s.mem) ∧
    (pteReserved s.cfg e.pte = false → pteIsLeaf e.pte = true →
      leafPermits e.pte w.acc w.priv (msSum s.mstatus) (msMxr s.mstatus) = true →
      (w.level = .l1 → ptePpn0 e.pte = 0#10) → pteA e.pte = true → (w.acc = .store → pteD e.pte = true) →
      (w.step s).1 = .done (leafAddr e.pte w.va w.level) ∧ (w.step s).2.mem = s.mem)

/-- R74 (R88, R30): step 7 under `HwUpdate`, for a walk of the program. A permitted leaf that has the bits the
access needs completes the translation with nothing written; one that lacks one is held for the
compare-and-write. There, where the store to the PTE would fail its check, an access-fault and nothing written;
where memory holds another value, nothing written, and the walk reads the same place again; where memory holds
the value the walk used, the word gets A set and, for a store, D set, every other bit of it and every other byte
of memory as before, and the walk is done. -/
def Obligations.StepSevenComparesAndWrites : Prop :=
  (∀ (w : Walk) (s : State) (e : AtcEntry), w.Reads s e → s.cfg.adScheme = .hwUpdate → w.speculative = false →
    pteReserved s.cfg e.pte = false → pteIsLeaf e.pte = true →
    leafPermits e.pte w.acc w.priv (msSum s.mstatus) (msMxr s.mstatus) = true →
    (w.level = .l1 → ptePpn0 e.pte = 0#10) →
      (pteA e.pte = true → (w.acc = .store → pteD e.pte = true) →
        (w.step s).1 = .done (leafAddr e.pte w.va w.level) ∧ (w.step s).2.mem = s.mem) ∧
      ((pteA e.pte = false ∨ (w.acc = .store ∧ pteD e.pte = false)) →
        ∃ w', (w.step s).1 = .more w' ∧ w'.leaf = some e.pte ∧ w'.pteAddr = w.pteAddr ∧ w'.level = w.level ∧
          (w.step s).2.mem = s.mem)) ∧
  ∀ (w : Walk) (s : State) (pte : Word), w.leaf = some pte → w.speculative = false →
    (s.physOk w.pteAddr 4 .store true w.priv = false →
      w.step s = (.raise ⟨.accessFault, w.acc, w.va⟩, s)) ∧
    (s.physOk w.pteAddr 4 .store true w.priv = true →
      (∀ other, s.mem.word w.pteAddr = some other → other ≠ pte →
        ∃ w', w.step s = (.more w', s) ∧ w'.leaf = none ∧ w'.pteAddr = w.pteAddr ∧ w'.level = w.level) ∧
      (s.mem.word w.pteAddr = some pte →
        ∃ t new, w.step s = (.done (leafAddr pte w.va w.level), t) ∧ t.mem.word w.pteAddr = some new ∧
          (∀ j, new.getLsbD j =
            (pte.getLsbD j || decide (j = 6) || (decide (w.acc = .store) && decide (j = 7)))) ∧
          ∀ a, (∀ i < 4, a ≠ (w.pteAddr + BitVec.ofNat 34 i).toNat) → t.mem.read a = s.mem.read a))

/-- The read after a failed compare is made from memory: no cache entry answers it (R88; the spec's decision
D15, log entry 14). -/
def Obligations.RereadAfterFailedCompareUsesMemory : Prop :=
  ∀ (w w' : Walk) (s t u : State) (pte : Word) (pick : Option Nat), w.leaf = some pte →
    w.step s = (.more w', t) → w'.cached u pick = none

/-- R96: the cache plays no part in step 7, and the A and D bits are updated in memory. With any other cache in
its place the compare-and-write has the same outcome and leaves the same memory; where memory holds the leaf, its
word in memory gets A and, for a store, D; a leaf that memory no longer holds is discovered there, and the walk
reads again, nothing being written; but a step-2 read that the cache answers has an outcome that memory has no
influence on, so that a stale leaf that needs no update is not discovered. -/
def Obligations.CacheIsNotUsedInStepSeven : Prop :=
  (∀ (w : Walk) (s : State) (pte : Word) (atc : List AtcEntry), w.leaf = some pte →
    (w.step { s with atc := atc }).1 = (w.step s).1 ∧
      (w.step { s with atc := atc }).2.mem = (w.step s).2.mem) ∧
  (∀ (w : Walk) (s : State) (pte other : Word), w.leaf = some pte →
    s.physOk w.pteAddr 4 .store true w.priv = true →
    s.mem.pteRead w.speculative w.pteAddr = some other → other ≠ pte →
      ∃ w', w.step s = (.more w', s) ∧ w'.leaf = none ∧ w'.pteAddr = w.pteAddr) ∧
  (∀ (w : Walk) (s : State) (pte : Word), w.leaf = some pte →
    s.physOk w.pteAddr 4 .store true w.priv = true →
    s.mem.pteRead w.speculative w.pteAddr = some pte →
      ∃ t new, w.step s = (.done (leafAddr pte w.va w.level), t) ∧ t.mem.word w.pteAddr = some new ∧
        ∀ j, new.getLsbD j =
          (pte.getLsbD j || decide (j = 6) || (decide (w.acc = .store) && decide (j = 7)))) ∧
  ∀ (w : Walk) (s : State) (e : AtcEntry) (m : Memory), w.leaf = none →
    w.cached s s.nextChoice.pick = some e →
      (w.step { s with mem := m }).1 = (w.step s).1 ∧ (w.step { s with mem := m }).2.mem = m

/-- R120, R124: every exception of a walk is of the original access's type and reports its address. -/
def Obligations.ExceptionsHaveOriginalType : Prop :=
  ∀ (w : Walk) (s : State) (e : Exn), (w.step s).1 = .raise e → e.acc = w.acc ∧ e.va = w.va

/-- R17: a memory event of a walk writes no state but the A and D bits of one PTE, under `HwUpdate` alone, the
cache, and the model's record of choices; for a walk that is legal as every walk in flight is. -/
def Obligations.WalkWritesOnlyPteAndCache : Prop :=
  ∀ (w : Walk) (s t : State) (o : WalkOut), w.Legal s.cfg → w.step s = (o, t) →
    t = { s with mem := t.mem, atc := t.atc, script := t.script, draws := t.draws } ∧
    (t.mem ≠ s.mem → s.cfg.adScheme = .hwUpdate ∧
      t.mem.wordFree w.pteAddr = pteWithAD (s.mem.wordFree w.pteAddr) w.acc ∧
      ∀ a, (∀ i < 4, a ≠ (w.pteAddr + BitVec.ofNat 34 i).toNat) → t.mem.read a = s.mem.read a)

/-- R75: a walk clears neither A nor D, nor any other bit: at every aligned word of memory, each bit that was set
is still set, and each bit other than A and D, the RSW field among them (R71), is as it was. -/
def Obligations.WalksNeverClearPteBits : Prop :=
  ∀ (w : Walk) (s : State) (pa : PAddr), pa.toNat % 4 = 0 →
    ∀ j, ((s.mem.wordFree pa).getLsbD j = true → ((w.step s).2.mem.wordFree pa).getLsbD j = true) ∧
      (j ≠ 6 → j ≠ 7 → ((w.step s).2.mem.wordFree pa).getLsbD j = (s.mem.wordFree pa).getLsbD j)

/-- R99, R98, R31: speculation triggers no exception and never sets a D bit: a speculative walk's event leaves
the pc, the mode, every register and every control register, the program and the answers as they were, and
the D bit of every aligned word of memory. -/
def Obligations.SpeculationNeverSetsDirtyOrTraps : Prop :=
  ∀ (s t : State) (k : Nat) (rest : List EnvEvent), s.Inv → s.env = .specStep k :: rest →
    step s = .next t →
      t.pc = s.pc ∧ t.mode = s.mode ∧ t.regs = s.regs ∧ (∀ c, t.csr c = s.csr c) ∧ t.ops = s.ops ∧
      t.access = s.access ∧ t.replies = s.replies ∧ t.reservation = s.reservation ∧
      ∀ pa : PAddr, pa.toNat % 4 = 0 → pteD (t.mem.wordFree pa) = pteD (s.mem.wordFree pa)

/-- R98: speculation happens only while `satp` is active with MODE Sv32: in M-mode or with MODE Bare, no event of
it begins a walk, fills the cache or writes memory. -/
def Obligations.NoSpeculationWhileSatpInactive : Prop :=
  ∀ (s t : State) (rest : List EnvEvent) (ev : EnvEvent),
    (s.mode = .m ∨ satpSv32 s.satp = false) → s.env = ev :: rest →
    ((∃ va acc priv, ev = .specStart va acc priv) ∨ ∃ k, ev = .specStep k) → step s = .next t →
      t.mem = s.mem ∧ t.atc = s.atc ∧ ∀ w ∈ t.spec, w ∈ s.spec

/-- R35, R94, R14: the cache holds nothing that was not read. After any step every entry was there before, or its
value is what memory now holds at its address (what memory was powered on with standing for bytes that nothing
has written), and it was added by a walk that was in flight: it has that walk's ASID, the page-number bits of its
level, the address of the PTE it was at, and the global bit of that PTE, if valid (D15), or of the pointer above it
(R68). The same is said of one event of any walk. That the ASID is the walk's own even after a write of `satp`
is log entry 42's, the record's shape log entry 14's. -/
def Obligations.CacheHoldsOnlyWhatMemoryHeld : Prop :=
  (∀ s t : State, step s = .next t → ∀ e ∈ t.atc, e ∈ s.atc ∨
    (t.mem.wordFree e.addr = e.pte ∧
      ∃ w, ((∃ g n ps rs, s.access = some ⟨g, .walking w n ps rs⟩) ∨ w ∈ s.spec) ∧ w.MayAdd s.cfg e)) ∧
  ∀ (w : Walk) (s t : State) (o : WalkOut), w.step s = (o, t) → ∀ e ∈ t.atc, e ∈ s.atc ∨
    (t.mem.wordFree e.addr = e.pte ∧
      e.asid = w.asid ∧ e.tag = vaTag w.va w.level ∧ e.addr = w.pteAddr ∧
      e.global = (w.globalAbove || (pteV e.pte && pteG e.pte)))

/-- R95, R67: a read that the cache answers is answered by an entry of the same level and page number, of the
walk's ASID or global; and under any choice a matching entry can be the one. -/
def Obligations.CacheAnswersOnlyMatches : Prop :=
  ∀ (w : Walk) (s : State) (e : AtcEntry), w.memOnly = false →
    ((∃ pick, w.cached s pick = some e) ↔
      e ∈ s.atc ∧ e.tag = vaTag w.va w.level ∧ (e.asid = w.asid ∨ e.global = true))

/-- R90, R141: with nothing between its events, a walk ends after at most seven of them, whatever the cache
holds and whatever is chosen. The bound rests on the re-read from memory after a failed compare, the spec's
decision D15 (log entry 14); that a second compare may fail, where the re-read finds a pointer, is log entry
37's choice. -/
def Obligations.WalkEndsWithinSevenEvents : Prop :=
  ∀ (s : State) (va : Word) (acc : Acc) (priv : Mode) (speculative : Bool) (w : Walk),
    ((Walk.start s va acc priv speculative).run 7 s).1 ≠ .more w

/-- R90: the walk's events in a row are the procedure of R90. With an empty cache, for every address, access
type, mode, status and parameters, three events are all it takes, and they give the same outcome and the
same memory as the procedure written out. -/
def Obligations.WalkRefinesProcedure : Prop :=
  ∀ (s : State) (va : Word) (acc : Acc) (priv : Mode), s.atc = [] →
    ((Walk.start s va acc priv false).run 3 s).1 = (refWalk s va acc priv).out ∧
    ((Walk.start s va acc priv false).run 3 s).2.mem = (refWalk s va acc priv).mem

/-! ## Explicit accesses -/

/-- R80, R6, R23, R24, R122: an access is translated exactly with MODE Sv32 in an effective mode S or U. With MODE
Bare, or in effective mode M (decision D12, log entry 12), an access of every kind goes to its virtual addresses
zero-extended to 34 bits where the checks of all its pieces pass, and ends in an access-fault of its own type,
which the step takes, at the first piece whose check fails, by whatever rule (decisions D14 and D17, log entries 23
and 24); no page table is read, nothing is written by translation, and no page-fault can occur. Otherwise the
step begins the walk of R81 for the first byte: from the root table and the ASID of `satp`, nothing read yet and
nothing else changed. -/
def Obligations.AccessesAreTranslatedExactlyUnderSv32 : Prop :=
  (∀ (s : State) (g : Goal),
    (satpSv32 s.satp = false ∨ s.effectiveMode g.acc = .m) →
      ((∀ p ∈ pieces g.va g.bytes,
          s.physOk (p.va.setWidth 34) p.n g.acc false (s.effectiveMode g.acc) = true) ∧
        beginAccess s g =
          performAccess s g ((pieces g.va g.bytes).map fun p => ⟨p.va.setWidth 34, p.n⟩)) ∨
      ∃ p, s.FirstDenied g p ∧ beginAccess s g = failAccess s g ⟨.accessFault, g.acc, p.va⟩) ∧
  (∀ (s u v : State) (g : Goal) (p : Piece), s.HartsTurn u → u.Begins g v →
    (satpSv32 v.satp = false ∨ v.effectiveMode g.acc = .m) → v.FirstDenied g p →
      (∀ r, g = .request r →
        step s = .next ((v.reply (.faulted ⟨.accessFault, g.acc, p.va⟩)).takeExn
          ⟨.accessFault, g.acc, p.va⟩)) ∧
      ∀ pc, g = .instr pc → step s = .next (v.takeExn ⟨.accessFault, g.acc, p.va⟩)) ∧
  ∀ (s u v : State) (g : Goal), s.HartsTurn u → u.Begins g v → satpSv32 v.satp = true →
    v.effectiveMode g.acc ≠ .m →
      ∃ w n rest, step s = .next { v with access := some ⟨g, .walking w n rest []⟩ } ∧
        pieces g.va g.bytes = ⟨g.va, n⟩ :: rest ∧ w.va = g.va ∧ w.acc = g.acc ∧
        w.priv = v.effectiveMode g.acc ∧ w.speculative = false ∧ w.asid = satpAsid v.satp ∧
        w.pteAddr = satpPpn v.satp ++ vaVpn1 g.va ++ 0#2 ∧ w.level = .l1 ∧ w.globalAbove = false ∧
        w.memOnly = false ∧ w.leafFill = true ∧ w.held = [] ∧ w.leaf = none

/-- R23, R24 in a step: without translation, an access of any kind, a fetch of the hart's own among them, whose
checks pass is performed in one step as it would be if it stood translated at its virtual addresses
zero-extended to 34 bits, in one page or two; a load in one page answers the bytes there, and a store writes
them there and nowhere else. That M-mode counts as Bare (log entry 12), the byte order of data (log entry 7) and
that a store takes effect at once (log entry 35) are the model's choices. -/
def Obligations.BareAccessesUseZeroExtendedAddress : Prop :=
  ∀ (s u v : State), s.HartsTurn u →
    (∀ g : Goal, u.Begins g v → v.translates (v.effectiveMode g.acc) = false →
      (∀ p ∈ pieces g.va g.bytes,
        v.physOk (p.va.setWidth 34) p.n g.acc false (v.effectiveMode g.acc) = true) →
        step s = step { v with
          env := .hart :: v.env
          access := some ⟨g, .ready ((pieces g.va g.bytes).map fun p => ⟨p.va.setWidth 34, p.n⟩)⟩ }) ∧
    (∀ (va : Word) (size : Size) (bs : List Byte), u.Begins (.request ⟨.load, va, size⟩) v →
      size.bytes ≤ 4096 - (vaPgoff va).toNat → v.translates (v.effectiveMode .load) = false →
      v.physOk (va.setWidth 34) size.bytes .load false (v.effectiveMode .load) = true →
      v.mem.readAll (byteAddrs (va.setWidth 34) size.bytes) = some bs →
        step s = .next (v.reply (.loaded [⟨va.setWidth 34, size.bytes⟩] (datumOfBytes bs)))) ∧
    ∀ (d : Datum) (va : Word) (size : Size), u.Begins (.request ⟨.store d, va, size⟩) v →
      size.bytes ≤ 4096 - (vaPgoff va).toNat → v.translates (v.effectiveMode .store) = false →
      v.physOk (va.setWidth 34) size.bytes .store false (v.effectiveMode .store) = true →
        ∃ t, step s = .next t ∧ t.replies = v.replies ++ [.stored [⟨va.setWidth 34, size.bytes⟩]] ∧
          t.mem.readAll (byteAddrs (va.setWidth 34) size.bytes) = some (datumBytes d size.bytes) ∧
          (∀ a, a ∉ byteAddrs (va.setWidth 34) size.bytes → t.mem.read a = v.mem.read a) ∧
          t = { v with mem := t.mem, replies := t.replies }

/-- R39, R22, R82, R88: an address at or above 2^PABITS passes no check, so that it leads to an access-fault of the
original access's type and to no access: where a walk would read or update a PTE there, at either level, nothing
being written; where a piece has been translated to it, memory staying as the walk left it; and where an
untranslated access begins in one of its pages there. That it is an access-fault, and that a higher address fails
its check, are the spec's decisions D14 and D8 (log entries 23 and 9). -/
def Obligations.AddressBeyondPabitsFaults : Prop :=
  (∀ (s : State) (pa : PAddr) (n : Nat) (acc : Acc) (implicit : Bool) (priv : Mode),
    2 ^ s.cfg.pabits ≤ pa.toNat → s.physOk pa n acc implicit priv = false) ∧
  (∀ (w : Walk) (s : State), 2 ^ s.cfg.pabits ≤ w.pteAddr.toNat →
    w.step s = (.raise ⟨.accessFault, w.acc, w.va⟩, s)) ∧
  (∀ (s u u' : State) (g : Goal) (w : Walk) (n : Nat) (ps : List Piece) (rs : List PhysPiece) (pa : PAddr),
    s.HartsTurn u → u.access = some ⟨g, .walking w n ps rs⟩ → w.step u = (.done pa, u') →
    2 ^ u.cfg.pabits ≤ pa.toNat →
      ∃ t, step s = .next t ∧ t.access = none ∧ t.mem = u'.mem ∧
        (∀ r, g = .request r →
          t = ({ u' with access := none }.reply (.faulted ⟨.accessFault, w.acc, w.va⟩)).takeExn
            ⟨.accessFault, w.acc, w.va⟩) ∧
        ∀ pc, g = .instr pc → t = { u' with access := none }.takeExn ⟨.accessFault, w.acc, w.va⟩) ∧
  ∀ (s u v : State) (g : Goal) (p : Piece), s.HartsTurn u → u.Begins g v →
    v.translates (v.effectiveMode g.acc) = false → p ∈ pieces g.va g.bytes → 2 ^ v.cfg.pabits ≤ p.va.toNat →
      ∃ q ∈ pieces g.va g.bytes, (p.va = g.va → q = p) ∧
        (∀ r, g = .request r →
          step s = .next ((v.reply (.faulted ⟨.accessFault, g.acc, q.va⟩)).takeExn
            ⟨.accessFault, g.acc, q.va⟩)) ∧
        ∀ pc, g = .instr pc → step s = .next (v.takeExn ⟨.accessFault, g.acc, q.va⟩)

/-- R120 (R61): the fault of a request is of the type of the explicit access that was asked for, whatever
implicit access failed: a fetch fault for a fetch, a load fault for a load or load-reserved, a store fault for
a store, a store-conditional or an AMO. -/
def Obligations.FaultsHaveOriginalAccessType : Prop :=
  ∀ (s u t : State) (r : Request) (e : Exn), s.Inv → s.HartsTurn u →
    ((∃ ph, u.access = some ⟨.request r, ph⟩) ∨ ∃ v, u.Begins (.request r) v) →
    step s = .next t → t.replies = s.replies ++ [.faulted e] →
      (r.kind = .fetch → e.acc = .fetch) ∧
      ((r.kind = .load ∨ ∃ a b, r.kind = .lr a b) → e.acc = .load) ∧
      (((∃ v, r.kind = .store v) ∨ (∃ v plan, r.kind = .sc v plan) ∨ ∃ v, r.kind = .amo v) → e.acc = .store)

/-- R126, R93: a step that ends a request in a page-fault has written no memory, neither data nor A nor D. -/
def Obligations.PageFaultingAccessWritesNothing : Prop :=
  ∀ (s t : State) (e : Exn), step s = .next t → t.replies = s.replies ++ [.faulted e] →
    e.kind = .pageFault → t.mem = s.mem ∧ t.reservation = s.reservation

/-- R34: the update of a PTE and the explicit access are separate events: a step in which a walk is in progress
for an access performs no explicit access (it answers nothing but a fault, and writes no byte outside the PTE
the walk is at); and between the two the access can be interrupted: memory, with what was written of A and D,
is as it is, the access is not performed, and the request, or the hart's own instruction, is to be done again,
first. That the interrupt changes nothing else, the pc and the mode among it, is the model's choice: it takes no
interrupt (log entry 31). -/
def Obligations.PteUpdateAndAccessAreSeparate : Prop :=
  (∀ (s u t : State) (g : Goal) (w : Walk) (n : Nat) (ps : List Piece) (rs : List PhysPiece),
    s.HartsTurn u → u.access = some ⟨g, .walking w n ps rs⟩ → step s = .next t →
      (t.replies = u.replies ∨ ∃ e, t.replies = u.replies ++ [.faulted e]) ∧
      t.reservation = u.reservation ∧ t.regs = u.regs ∧
      ∀ a, (∀ i < 4, a ≠ (w.pteAddr + BitVec.ofNat 34 i).toNat) → t.mem.read a = u.mem.read a) ∧
  ∀ (s : State) (rest : List EnvEvent) (ph : Phase), s.env = .interrupt :: rest →
    (∀ r, s.access = some ⟨.request r, ph⟩ →
      step s = .next { s with env := rest, access := none, ops := .access r :: s.ops }) ∧
    ∀ pc, s.access = some ⟨.instr pc, ph⟩ →
      step s = .next { s with env := rest, access := none, ops := .instr :: s.ops }

/-- R120, R127, R22, R80, R125: what an event of an access's walk comes to in the step. Where the walk raises an
exception the step takes it, after telling the enclosing hart where the access was a request of its own (log entry
21 for the trap). Where the walk goes on, the access waits for its next event; a read of bytes that nothing has
written stops (R135, log entry 25). Once a piece is translated the final check is made; where it fails the step
takes an access-fault of the access's type (decision D14, log entry 23), the A and D bits staying as the walk left
them; where it passes, the access is ready to be performed at the translated pieces, or, where it spans two
pages, the walk of the next piece begins, from `satp` as for the first (R38 with decision D17, log entry 24). -/
def Obligations.FinalCheckFollowsTranslation : Prop :=
  ∀ (s u u' : State) (g : Goal) (w : Walk) (n : Nat) (ps : List Piece) (rs : List PhysPiece),
    s.HartsTurn u → u.access = some ⟨g, .walking w n ps rs⟩ →
      (∀ e, w.step u = (.raise e, u') →
        (∀ r, g = .request r →
          step s = .next (({ u' with access := none }.reply (.faulted e)).takeExn e)) ∧
        ∀ pc, g = .instr pc → step s = .next ({ u' with access := none }.takeExn e)) ∧
      (∀ w', w.step u = (.more w', u') →
        step s = .next { u' with access := some ⟨g, .walking w' n ps rs⟩ }) ∧
      (w.step u = (.unwritten, u') → step s = .fault .unwrittenMemory) ∧
      ∀ pa, w.step u = (.done pa, u') →
        (u'.physOk pa n w.acc false w.priv = false →
          (∀ r, g = .request r →
            step s = .next (({ u' with access := none }.reply (.faulted ⟨.accessFault, w.acc, w.va⟩)).takeExn
              ⟨.accessFault, w.acc, w.va⟩)) ∧
          ∀ pc, g = .instr pc →
            step s = .next ({ u' with access := none }.takeExn ⟨.accessFault, w.acc, w.va⟩)) ∧
        (u'.physOk pa n w.acc false w.priv = true →
          (ps = [] → step s = .next { u' with access := some ⟨g, .ready (rs ++ [⟨pa, n⟩])⟩ }) ∧
          ∀ p more, ps = p :: more →
            ∃ w', step s = .next { u' with access := some ⟨g, .walking w' p.n more (rs ++ [⟨pa, n⟩])⟩ } ∧
              w'.va = p.va ∧ w'.acc = w.acc ∧ w'.priv = w.priv ∧ w'.speculative = false ∧ w'.level = .l1 ∧
              w'.leaf = none ∧ w'.held = [] ∧ w'.globalAbove = false ∧ w'.memOnly = false ∧
              w'.leafFill = true ∧ w'.asid = satpAsid u.satp ∧
              w'.pteAddr = satpPpn u.satp ++ vaVpn1 p.va ++ 0#2)

/-- R22, R26: a translated access is performed at its physical bytes and nowhere else. A fetch, a load and a
load-reserved answer the bytes there and change no memory, and the load-reserved holds a reservation of the bytes
it asks for, inside the base page of the first (R16). A store puts the low bytes of its value there, first byte
first; an AMO does so too and answers the bytes that were there. A read of bytes that nothing has written stops
(R135, log entry 25). Nothing else changes. The byte order of data (log entry 7), that stores take effect at once
(log entry 35), that a fetch reads memory as it is (log entry 48), that the bytes of a spanning access move in one
event (log entry 24), and the extent of a reservation and the AMO's value being asked for (log entry 28) are the
model's choices. -/
def Obligations.ReadyAccessesArePerformed : Prop :=
  ∀ (s u : State) (va : Word) (size : Size) (ps : List PhysPiece), s.HartsTurn u →
    (∀ bs, u.mem.readAll (pieceAddrs ps) = some bs →
      (u.access = some ⟨.request ⟨.fetch, va, size⟩, .ready ps⟩ →
        step s = .next ({ u with access := none }.reply (.fetched ps (datumOfBytes bs)))) ∧
      (u.access = some ⟨.request ⟨.load, va, size⟩, .ready ps⟩ →
        step s = .next ({ u with access := none }.reply (.loaded ps (datumOfBytes bs)))) ∧
      (∀ below above p rest, u.access = some ⟨.request ⟨.lr below above, va, size⟩, .ready ps⟩ →
        ps = p :: rest →
        ∃ r, step s = .next ({ u with access := none, reservation := some r }.reply
            (.loaded ps (datumOfBytes bs))) ∧ r.InOnePage ∧
          ∀ a, (r.lo ≤ a ∧ a < r.hi) ↔ (a / 4096 = p.pa.toNat / 4096 ∧ p.pa.toNat ≤ a + below ∧
            a < p.pa.toNat + p.n + above)) ∧
      (∀ d, u.access = some ⟨.request ⟨.amo d, va, size⟩, .ready ps⟩ →
        ∃ t, step s = .next t ∧ t.replies = u.replies ++ [.amoDone ps (datumOfBytes bs)] ∧
          ((pieceAddrs ps).Nodup → (pieceAddrs ps).length = size.bytes →
            t.mem.readAll (pieceAddrs ps) = some (datumBytes d size.bytes)) ∧
          (∀ a, a ∉ pieceAddrs ps → t.mem.read a = u.mem.read a) ∧
          t = { u with access := none, mem := t.mem, replies := t.replies })) ∧
    (∀ d, u.access = some ⟨.request ⟨.store d, va, size⟩, .ready ps⟩ →
      ∃ t, step s = .next t ∧ t.replies = u.replies ++ [.stored ps] ∧
        ((pieceAddrs ps).Nodup → (pieceAddrs ps).length = size.bytes →
          t.mem.readAll (pieceAddrs ps) = some (datumBytes d size.bytes)) ∧
        (∀ a, a ∉ pieceAddrs ps → t.mem.read a = u.mem.read a) ∧
        t = { u with access := none, mem := t.mem, replies := t.replies }) ∧
    ∀ kind, u.mem.readAll (pieceAddrs ps) = none →
      (kind = .fetch ∨ kind = .load ∨ (∃ b a, kind = .lr b a) ∨ ∃ d, kind = .amo d) →
      u.access = some ⟨.request ⟨kind, va, size⟩, .ready ps⟩ → step s = .fault .unwrittenMemory

/-- R16: a reservation set lies inside one naturally aligned 4 KiB region: any that is held after reset does, and
every step keeps it so (that none is held after reset is said by ResetState). -/
def Obligations.ReservationStaysInOnePage : Prop :=
  (∀ r, State.reset.reservation = some r → r.InOnePage) ∧
  ∀ s t : State, (∀ r, s.reservation = some r → r.InOnePage) → step s = .next t →
    ∀ r, t.reservation = some r → r.InOnePage

/-- A store-conditional that the enclosing hart lets succeed, at its translated bytes: where a reservation of all
of them is held it stores its value there and nowhere else and answers success; where none is, it writes
nothing and answers failure; no reservation is left. That the reservation decides is the family's, not the
spec's (log entry 28). -/
def Obligations.StoreConditionalUsesReservation : Prop :=
  ∀ (s u : State) (va : Word) (size : Size) (v : Datum) (ps : List PhysPiece), s.HartsTurn u →
    u.access = some ⟨.request ⟨.sc v .succeed, va, size⟩, .ready ps⟩ →
      ∃ t, step s = .next t ∧ t.reservation = none ∧ t.access = none ∧
        ((∃ r, u.reservation = some r ∧ ∀ a ∈ pieceAddrs ps, r.lo ≤ a ∧ a < r.hi) →
          t.replies = u.replies ++ [.scDone ps true] ∧
          ((pieceAddrs ps).Nodup → (pieceAddrs ps).length = size.bytes →
            t.mem.readAll (pieceAddrs ps) = some (datumBytes v size.bytes)) ∧
          ∀ a, a ∉ pieceAddrs ps → t.mem.read a = u.mem.read a) ∧
        ((∀ r, u.reservation = some r → ∃ a ∈ pieceAddrs ps, a < r.lo ∨ r.hi ≤ a) →
          t.replies = u.replies ++ [.scDone ps false] ∧ t.mem = u.mem)

/-- R38: the pieces of an access of at most a page are its bytes in order, each piece inside one page. -/
def Obligations.PiecesStayInsidePages : Prop :=
  ∀ (va : Word) (n : Nat), 0 < n → n ≤ 4096 →
    ((pieces va n).map (fun p => p.n)).sum = n ∧ (pieces va n).head?.map (fun p => p.va) = some va ∧
    (∀ p ∈ pieces va n, 0 < p.n ∧ (vaPgoff p.va).toNat + p.n ≤ 4096) ∧
    (∀ p q, pieces va n = [p, q] → q.va = p.va + BitVec.ofNat 32 p.n ∧ vaPgoff q.va = 0#12)

/-! ## Registers, control registers, exceptions -/

/-- Integer registers (spec/10_state.md section 5): `x0` reads zero and discards writes; a write to another
register changes it and no other. -/
def Obligations.RegisterZeroIsHardwired : Prop :=
  ∀ (s : State) (r : Nat) (v : Word), r < 32 →
    (s.setReg r v).reg 0 = 0#32 ∧ s.setReg 0 v = s ∧ (r ≠ 0 → (s.setReg r v).reg r = v) ∧
      (∀ q, q ≠ r → (s.setReg r v).reg q = s.reg q) ∧ (s.setReg r v).pc = s.pc ∧
      (s.setReg r v).mem = s.mem

/-- R47, R116: writing `satp` sets MODE and PPN as written and the implemented ASID bits, the rest reading zero,
and flushes nothing: the cache, the walks in flight and memory are as before. That the write is performed in
every mode (log entry 38) and that a speculative walk in flight goes on past it (log entry 42) are the model's
choices; the layout is the family's (log entry 5). -/
def Obligations.SatpWriteKeepsCache : Prop :=
  ∀ (s u : State) (v : Word) (rest : List HartOp), s.HartsTurn u → u.access = none →
    u.ops = .csrWrite .satp v :: rest →
      ∃ t, step s = .next t ∧ satpSv32 t.satp = v.getLsbD 31 ∧ satpPpn t.satp = v.extractLsb' 0 22 ∧
        satpAsid t.satp = v.extractLsb' 22 9 &&& asidMask u.cfg.asidLen ∧ t.atc = u.atc ∧ t.spec = u.spec ∧
        t.mem = u.mem ∧ t.pc = u.pc ∧ t.regs = u.regs ∧ t.mstatus = u.mstatus

/-- R7, R8: SUM and MXR are one bit each, seen at the same places of `mstatus` and `sstatus`, and writing either
register writes them. -/
def Obligations.SumAndMxrUnderBothNames : Prop :=
  ∀ (s : State) (v : Word),
    (s.csr .sstatus).getLsbD 18 = msSum s.mstatus ∧ (s.csr .sstatus).getLsbD 19 = msMxr s.mstatus ∧
    msSum (s.setCsr .sstatus v).mstatus = v.getLsbD 18 ∧ msMxr (s.setCsr .sstatus v).mstatus = v.getLsbD 19 ∧
    msSum (s.setCsr .mstatus v).mstatus = v.getLsbD 18 ∧ msMxr (s.setCsr .mstatus v).mstatus = v.getLsbD 19

/-- R9 with D11: the effective privilege mode of a fetch is the current mode; of a load or store it is the
current mode too, but in M-mode with MPRV set the mode that MPP names, by the family's numbers (log entries 13 and
46). -/
def Obligations.EffectiveModeOfAccesses : Prop :=
  ∀ s : State, s.effectiveMode .fetch = s.mode ∧
    ∀ acc, acc ≠ .fetch →
      (s.mode ≠ .m ∨ msMprv s.mstatus = false → s.effectiveMode acc = s.mode) ∧
      (∀ p : Mode, s.mode = .m → msMprv s.mstatus = true → msMpp s.mstatus = p.bits →
        s.effectiveMode acc = p)

/-- R127 with R121, R124: what taking a fault of the unit saves and where it goes: to M-mode when it is not
delegated or the hart is in M-mode, to S-mode when it is; the registers of the other mode, the cache and
memory are as before. The two low bits of the vector are dropped (log entry 21), and MPP and SPP hold the family's
numbers for the modes (log entry 46). -/
def Obligations.ExceptionEntry : Prop :=
  ∀ (s : State) (e : Exn),
    ((s.mode = .m ∨ s.medeleg.getLsbD e.cause = false) →
      (s.takeExn e).mode = .m ∧ (s.takeExn e).mepc = s.pc ∧ (s.takeExn e).mcause = BitVec.ofNat 32 e.cause ∧
      (s.takeExn e).mtval = e.va ∧ (s.takeExn e).pc = s.mtvec &&& 0xFFFFFFFC#32 ∧
      msMpp (s.takeExn e).mstatus = s.mode.bits ∧ msMpie (s.takeExn e).mstatus = msMie s.mstatus ∧
      msMie (s.takeExn e).mstatus = false ∧ (s.takeExn e).sepc = s.sepc ∧
      (s.takeExn e).scause = s.scause ∧ (s.takeExn e).stval = s.stval) ∧
    ((s.mode ≠ .m ∧ s.medeleg.getLsbD e.cause = true) →
      (s.takeExn e).mode = .s ∧ (s.takeExn e).sepc = s.pc ∧
      (s.takeExn e).scause = BitVec.ofNat 32 e.cause ∧ (s.takeExn e).stval = e.va ∧
      (s.takeExn e).pc = s.stvec &&& 0xFFFFFFFC#32 ∧ msSpp (s.takeExn e).mstatus = decide (s.mode = .s) ∧
      msSpie (s.takeExn e).mstatus = msSie s.mstatus ∧ msSie (s.takeExn e).mstatus = false ∧
      (s.takeExn e).mepc = s.mepc ∧ (s.takeExn e).mcause = s.mcause ∧ (s.takeExn e).mtval = s.mtval) ∧
    (s.takeExn e).atc = s.atc ∧ (s.takeExn e).mem = s.mem ∧ (s.takeExn e).regs = s.regs ∧
      msSum (s.takeExn e).mstatus = msSum s.mstatus ∧ msMxr (s.takeExn e).mstatus = msMxr s.mstatus

/-- R121: the cause codes of the six exceptions. -/
def Obligations.CauseCodes : Prop :=
  ∀ va : Word, Exn.cause ⟨.accessFault, .fetch, va⟩ = 1 ∧ Exn.cause ⟨.accessFault, .load, va⟩ = 5 ∧
    Exn.cause ⟨.accessFault, .store, va⟩ = 7 ∧ Exn.cause ⟨.pageFault, .fetch, va⟩ = 12 ∧
    Exn.cause ⟨.pageFault, .load, va⟩ = 13 ∧ Exn.cause ⟨.pageFault, .store, va⟩ = 15

/-- R127 ("`SRET` undoes it"): after a trap from S- or U-mode to S-mode, SRET brings back the pc, the mode and
SIE; after a trap from any mode to M-mode, MRET brings back the pc, the mode and MIE. Both are the family's (log
entry 21), as are the numbers by which MPP and SPP name the modes (log entry 46). -/
def Obligations.ReturnsUndoTraps : Prop :=
  ∀ (s : State) (cause : Nat) (v : Word),
    (s.mode ≠ .m →
      ((s.trapToS cause v).sret).pc = s.pc ∧ ((s.trapToS cause v).sret).mode = s.mode ∧
        msSie ((s.trapToS cause v).sret).mstatus = msSie s.mstatus) ∧
    ((s.trapToM cause v).mret).pc = s.pc ∧ ((s.trapToM cause v).mret).mode = s.mode ∧
      msMie ((s.trapToM cause v).mret).mstatus = msMie s.mstatus
end

