-- ==== Sys2Proof/Laws/Bits.lean ====
section
/-! SUPPORT. The bits of the status word and of a page-table entry after an update. -/

namespace Sys2Proof.Machine

theorem getLsbD_one_shiftLeft (i j : Nat) :
    ((1#32) <<< i).getLsbD j = (decide (j = i) && decide (j < 32)) := by
  rw [BitVec.getLsbD_shiftLeft, BitVec.getLsbD_one]
  by_cases h : j = i <;> by_cases hj : j < 32 <;> by_cases hl : j < i <;> simp [h, hj, hl] ; omega

@[simp] theorem getLsbD_withBit (w : Word) (i : Nat) (b : Bool) (j : Nat) :
    (withBit w i b).getLsbD j = if j = i ∧ j < 32 then b else w.getLsbD j := by
  by_cases hj : j < 32
  · cases b <;>
      simp only [withBit, if_true, if_false, Bool.false_eq_true, BitVec.getLsbD_or, BitVec.getLsbD_and,
        BitVec.getLsbD_not, getLsbD_one_shiftLeft, hj, and_true] <;>
      by_cases h : j = i <;> simp [h]
  · have hw : w.getLsbD j = false := BitVec.getLsbD_of_ge w j (by omega)
    have hv : (withBit w i b).getLsbD j = false := BitVec.getLsbD_of_ge _ j (by omega)
    simp [hw, hv, hj]

theorem getLsbD_msMpp (w : Word) (i : Nat) :
    (msMpp w).getLsbD i = (decide (i < 2) && w.getLsbD (11 + i)) := by
  simp only [msMpp, BitVec.getLsbD_extractLsb']

theorem msMpp_eq_of_bits {v w : Word} (h11 : v.getLsbD 11 = w.getLsbD 11)
    (h12 : v.getLsbD 12 = w.getLsbD 12) : msMpp v = msMpp w := by
  apply BitVec.eq_of_getLsbD_eq
  intro i hi
  have : i = 0 ∨ i = 1 := by omega
  rcases this with rfl | rfl <;> simp only [getLsbD_msMpp, h11, h12, Nat.add_zero, Nat.reduceAdd]

/-- A bit outside MPP does not change MPP. -/
theorem msMpp_withBit (w : Word) (i : Nat) (b : Bool) (h11 : i ≠ 11) (h12 : i ≠ 12) :
    msMpp (withBit w i b) = msMpp w :=
  msMpp_eq_of_bits (by rw [getLsbD_withBit, if_neg fun h => h11 h.1.symm])
    (by rw [getLsbD_withBit, if_neg fun h => h12 h.1.symm])

@[simp] theorem msMpp_withMpp (w : Word) (v : BitVec 2) : msMpp (withMpp w v) = v := by
  apply BitVec.eq_of_getLsbD_eq
  intro i hi
  have : i = 0 ∨ i = 1 := by omega
  rcases this with rfl | rfl <;> simp only [getLsbD_msMpp, withMpp, getLsbD_withBit] <;> simp

/-! Each one-bit field of the status word after another bit is replaced. -/

@[simp] theorem msSie_withBit (w : Word) (i : Nat) (b : Bool) :
    msSie (withBit w i b) = if i = 1 then b else msSie w := by
  simp only [msSie, getLsbD_withBit]
  by_cases h : i = 1 <;> simp [h, eq_comm]

@[simp] theorem msMie_withBit (w : Word) (i : Nat) (b : Bool) :
    msMie (withBit w i b) = if i = 3 then b else msMie w := by
  simp only [msMie, getLsbD_withBit]
  by_cases h : i = 3 <;> simp [h, eq_comm]

@[simp] theorem msSpie_withBit (w : Word) (i : Nat) (b : Bool) :
    msSpie (withBit w i b) = if i = 5 then b else msSpie w := by
  simp only [msSpie, getLsbD_withBit]
  by_cases h : i = 5 <;> simp [h, eq_comm]

@[simp] theorem msMpie_withBit (w : Word) (i : Nat) (b : Bool) :
    msMpie (withBit w i b) = if i = 7 then b else msMpie w := by
  simp only [msMpie, getLsbD_withBit]
  by_cases h : i = 7 <;> simp [h, eq_comm]

@[simp] theorem msSpp_withBit (w : Word) (i : Nat) (b : Bool) :
    msSpp (withBit w i b) = if i = 8 then b else msSpp w := by
  simp only [msSpp, getLsbD_withBit]
  by_cases h : i = 8 <;> simp [h, eq_comm]

@[simp] theorem msMprv_withBit (w : Word) (i : Nat) (b : Bool) :
    msMprv (withBit w i b) = if i = 17 then b else msMprv w := by
  simp only [msMprv, getLsbD_withBit]
  by_cases h : i = 17 <;> simp [h, eq_comm]

@[simp] theorem msSum_withBit (w : Word) (i : Nat) (b : Bool) :
    msSum (withBit w i b) = if i = 18 then b else msSum w := by
  simp only [msSum, getLsbD_withBit]
  by_cases h : i = 18 <;> simp [h, eq_comm]

@[simp] theorem msMxr_withBit (w : Word) (i : Nat) (b : Bool) :
    msMxr (withBit w i b) = if i = 19 then b else msMxr w := by
  simp only [msMxr, getLsbD_withBit]
  by_cases h : i = 19 <;> simp [h, eq_comm]

@[simp] theorem msTvm_withBit (w : Word) (i : Nat) (b : Bool) :
    msTvm (withBit w i b) = if i = 20 then b else msTvm w := by
  simp only [msTvm, getLsbD_withBit]
  by_cases h : i = 20 <;> simp [h, eq_comm]

theorem Mode.bits_ne_two (p : Mode) : p.bits ≠ 2#2 := by cases p <;> decide

@[simp] theorem modeOfBits_bits (p : Mode) : modeOfBits p.bits = p := by cases p <;> rfl

/-- The bits step 7 writes: A, and D for a store; every other bit is the old one (R88). -/
theorem getLsbD_pteWithAD (p : Word) (acc : Acc) (j : Nat) :
    (pteWithAD p acc).getLsbD j =
      (p.getLsbD j || decide (j = 6) || (decide (acc = .store) && decide (j = 7))) := by
  by_cases hj : j < 32
  · have key6 : (0x00000040#32).getLsbD j = decide (j = 6) := by
      revert hj; revert j; decide
    have key67 : (0x000000C0#32).getLsbD j = (decide (j = 6) || decide (j = 7)) := by
      clear key6
      revert hj; revert j; decide
    cases acc <;> simp [pteWithAD, key6, key67, Bool.or_assoc]
  · have hp : p.getLsbD j = false := BitVec.getLsbD_of_ge p j (by omega)
    have hq : (pteWithAD p acc).getLsbD j = false := BitVec.getLsbD_of_ge _ j (by omega)
    have h6 : ¬ j = 6 := by omega
    have h7 : ¬ j = 7 := by omega
    simp [hp, hq, h6, h7]

@[simp] theorem ptePpn0_pteWithAD (p : Word) (acc : Acc) : ptePpn0 (pteWithAD p acc) = ptePpn0 p := by
  apply BitVec.eq_of_getLsbD_eq
  intro i hi
  simp only [ptePpn0, BitVec.getLsbD_extractLsb', getLsbD_pteWithAD]
  have h6 : ¬ 10 + i = 6 := by omega
  have h7 : ¬ 10 + i = 7 := by omega
  simp [h6, h7]

@[simp] theorem ptePpn1_pteWithAD (p : Word) (acc : Acc) : ptePpn1 (pteWithAD p acc) = ptePpn1 p := by
  apply BitVec.eq_of_getLsbD_eq
  intro i hi
  simp only [ptePpn1, BitVec.getLsbD_extractLsb', getLsbD_pteWithAD]
  have h6 : ¬ 20 + i = 6 := by omega
  have h7 : ¬ 20 + i = 7 := by omega
  simp [h6, h7]

/-- Setting A and D does not change where a leaf leads (R89). -/
@[simp] theorem leafAddr_pteWithAD (p va : Word) (acc : Acc) (l : Level) :
    leafAddr (pteWithAD p acc) va l = leafAddr p va l := by
  cases l <;> simp [leafAddr]

/-- The bits of the word that `satp` keeps (R47). -/
theorem getLsbD_legalSatp (n : Nat) (w : Word) (i : Nat) :
    (legalSatp n w).getLsbD i =
      if i < 22 then w.getLsbD i
      else if i < 31 then (satpAsid w &&& asidMask n).getLsbD (i - 22)
      else (decide (i = 31) && w.getLsbD 31) := by
  refine (BitVec.getLsbD_append (x := w.extractLsb' 31 1 ++ (satpAsid w &&& asidMask n))
    (y := satpPpn w)).trans ?_
  by_cases h : i < 22
  · simp [h, satpPpn]
  · rw [if_neg h, if_neg h]
    refine (BitVec.getLsbD_append (x := w.extractLsb' 31 1) (y := satpAsid w &&& asidMask n)).trans ?_
    by_cases h' : i < 31
    · rw [if_pos h', if_pos (by omega)]
    · rw [if_neg h', if_neg (by omega), BitVec.getLsbD_extractLsb']
      by_cases h31 : i = 31
      · subst h31; rfl
      · have : ¬ i - 22 - 9 < 1 := by omega
        simp [h31, this]

/-- The ASID that `satp` holds once it is legal: the implemented bits of what was written (R47). -/
theorem satpAsid_legalSatp (n : Nat) (w : Word) :
    satpAsid (legalSatp n w) = satpAsid w &&& asidMask n := by
  apply BitVec.eq_of_getLsbD_eq
  intro i hi
  have h1 : ¬ 22 + i < 22 := by omega
  have h2 : 22 + i < 31 := by omega
  have h3 : 22 + i - 22 = i := by omega
  rw [satpAsid, BitVec.getLsbD_extractLsb', getLsbD_legalSatp, if_neg h1, if_pos h2, h3]
  simp [hi]

/-- The root page number is kept as written (R47). -/
theorem satpPpn_legalSatp (n : Nat) (w : Word) : satpPpn (legalSatp n w) = satpPpn w := by
  apply BitVec.eq_of_getLsbD_eq
  intro i hi
  simp [satpPpn, getLsbD_legalSatp, hi]

/-- MODE is kept as written (R47). -/
theorem satpSv32_legalSatp (n : Nat) (w : Word) : satpSv32 (legalSatp n w) = satpSv32 w := by
  rw [satpSv32, getLsbD_legalSatp, if_neg (by decide), if_neg (by decide)]
  simp [satpSv32]

/-- What `satp` keeps of a word it already legalised is all of it (R47). -/
theorem legalSatp_idem (n : Nat) (w : Word) : legalSatp n (legalSatp n w) = legalSatp n w := by
  apply BitVec.eq_of_getLsbD_eq
  intro i hi
  rw [getLsbD_legalSatp n (legalSatp n w), satpAsid_legalSatp]
  by_cases h : i < 22
  · rw [if_pos h]
  · by_cases h' : i < 31
    · rw [if_neg h, if_pos h', getLsbD_legalSatp, if_neg h, if_pos h', BitVec.and_assoc, BitVec.and_self]
    · have h31 : i = 31 := by omega
      subst h31
      simp

end Sys2Proof.Machine
end

