-- ==== Sys2Proof/Laws/Memory.lean ====
section
/-! SUPPORT. Physical memory: read after write, the canonical form, and the four-byte accesses of the walk. -/

namespace Sys2Proof.Machine

@[simp] theorem Memory.read_nil (x : Nat) : Memory.read [] x = none := rfl

/-- A byte just stored is what is read there. -/
@[simp] theorem Memory.read_write_same (m : Memory) (x : Nat) (v : Byte) : (m.write x v).read x = some v := by
  induction m with
  | nil => simp [Memory.write, Memory.read]
  | cons c rest ih =>
    obtain ⟨a, b⟩ := c
    simp only [Memory.write]
    split
    · simp [Memory.read]
    · split
      · simp_all [Memory.read]
      · simp_all [Memory.read]

/-- A store leaves every other byte alone. -/
theorem Memory.read_write_ne (m : Memory) {x y : Nat} (v : Byte) (h : y ≠ x) :
    (m.write x v).read y = m.read y := by
  induction m with
  | nil => simp [Memory.write, Memory.read, h]
  | cons c rest ih =>
    obtain ⟨a, b⟩ := c
    simp only [Memory.write]
    split
    · simp [Memory.read, h]
    · split
      · rename_i hxa
        subst hxa
        simp [Memory.read, h]
      · simp [Memory.read, ih]

/-- A store of several bytes leaves alone every byte it does not name. -/
theorem Memory.read_writeAll_of_notMem (l : List (Nat × Byte)) :
    ∀ (m : Memory) {y : Nat}, (∀ c ∈ l, c.1 ≠ y) → (m.writeAll l).read y = m.read y := by
  induction l with
  | nil => intro m y _; rfl
  | cons c rest ih =>
    intro m y h
    obtain ⟨a, b⟩ := c
    rw [Memory.writeAll, ih (m.write a b) fun c hc => h c (List.mem_cons_of_mem _ hc)]
    exact m.read_write_ne b fun hy => h (a, b) (List.mem_cons_self ..) hy.symm

/-- Storing one byte keeps the addresses rising, from the lower of the old bound and the new address. -/
theorem Memory.risingFrom_write (m : Memory) :
    ∀ (lo x : Nat) (v : Byte), m.risingFrom lo = true → lo ≤ x → x < 2 ^ 34 →
      (m.write x v).risingFrom lo = true := by
  induction m with
  | nil =>
    intro lo x v _ hlo hx
    simp only [Memory.write, Memory.risingFrom, Bool.and_eq_true, decide_eq_true_eq]
    exact ⟨⟨hlo, hx⟩, trivial⟩
  | cons c rest ih =>
    intro lo x v h hlo hx
    obtain ⟨a, b⟩ := c
    simp only [Memory.risingFrom, Bool.and_eq_true, decide_eq_true_eq] at h
    simp only [Memory.write]
    split
    · simp only [Memory.risingFrom, Bool.and_eq_true, decide_eq_true_eq]
      exact ⟨⟨hlo, hx⟩, ⟨by omega, h.1.2⟩, h.2⟩
    · split
      · simp only [Memory.risingFrom, Bool.and_eq_true, decide_eq_true_eq]
        exact h
      · simp only [Memory.risingFrom, Bool.and_eq_true, decide_eq_true_eq]
        exact ⟨h.1, ih _ _ v h.2 (by omega) hx⟩

/-- Storing one byte of the 34-bit space keeps memory canonical. -/
theorem Memory.wf_write {m : Memory} (h : m.wf = true) {x : Nat} (v : Byte) (hx : x < 2 ^ 34) :
    (m.write x v).wf = true :=
  m.risingFrom_write 0 x v h (Nat.zero_le x) hx

/-- Storing several bytes of the 34-bit space keeps memory canonical. -/
theorem Memory.wf_writeAll (l : List (Nat × Byte)) :
    ∀ {m : Memory}, m.wf = true → (∀ c ∈ l, c.1 < 2 ^ 34) → (m.writeAll l).wf = true := by
  induction l with
  | nil => intro m h _; exact h
  | cons c rest ih =>
    intro m h hl
    exact ih (m.wf_write h c.2 (hl c (List.mem_cons_self ..)))
      fun c hc => hl c (List.mem_cons_of_mem _ hc)

/-- The addresses of an access are addresses of the 34-bit space. -/
theorem byteAddrs_lt {pa : PAddr} {n a : Nat} (h : a ∈ byteAddrs pa n) : a < 2 ^ 34 := by
  simp only [byteAddrs, List.mem_map] at h
  obtain ⟨i, _, rfl⟩ := h
  exact BitVec.isLt _

theorem pieceAddrs_lt {ps : List PhysPiece} {a : Nat} (h : a ∈ pieceAddrs ps) : a < 2 ^ 34 := by
  simp only [pieceAddrs, List.mem_flatMap] at h
  obtain ⟨p, _, hp⟩ := h
  exact byteAddrs_lt hp

/-- A store of bytes at the addresses of some pieces keeps memory canonical. -/
theorem Memory.wf_writePieces {m : Memory} (h : m.wf = true) (ps : List PhysPiece) (bs : List Byte) :
    (m.writeAll ((pieceAddrs ps).zip bs)).wf = true :=
  Memory.wf_writeAll _ h fun _ hc => pieceAddrs_lt (List.of_mem_zip hc).1

/-- A store of bytes from one address on keeps memory canonical. -/
theorem Memory.wf_writeRun {m : Memory} (h : m.wf = true) (pa : PAddr) (n : Nat) (bs : List Byte) :
    (m.writeAll ((byteAddrs pa n).zip bs)).wf = true :=
  Memory.wf_writeAll _ h fun _ hc => byteAddrs_lt (List.of_mem_zip hc).1

theorem Memory.wf_writeWord {m : Memory} (h : m.wf = true) (pa : PAddr) (w : Word) :
    (m.writeWord pa w).wf = true :=
  m.wf_writeRun h pa 4 _

/-- The four bytes of a word, stored one after the other. -/
theorem Memory.writeWord_eq (m : Memory) (pa : PAddr) (w : Word) :
    m.writeWord pa w =
      (((m.write pa.toNat (w.extractLsb' 0 8)).write (pa + 1#34).toNat (w.extractLsb' 8 8)).write
        (pa + 2#34).toNat (w.extractLsb' 16 8)).write (pa + 3#34).toNat (w.extractLsb' 24 8) := by
  have h0 : pa + BitVec.ofNat 34 0 = pa := by simp
  simp only [Memory.writeWord, byteAddrs, bytesOfWord, List.range_succ, List.range_zero, List.nil_append,
    List.cons_append, List.map_cons, List.map_nil, List.zip_cons_cons, List.zip_nil_left, Memory.writeAll,
    h0]

theorem toNat_add_ne {pa : PAddr} {i j : BitVec 34} (h : i ≠ j) : (pa + i).toNat ≠ (pa + j).toNat := by
  intro hij
  exact h (add_left_cancel (BitVec.eq_of_toNat_eq hij))

/-- A word put together from its bytes (R28). -/
theorem wordOfBytes_bytes (w : Word) :
    wordOfBytes (w.extractLsb' 0 8) (w.extractLsb' 8 8) (w.extractLsb' 16 8) (w.extractLsb' 24 8) = w := by
  apply BitVec.eq_of_getLsbD_eq
  intro i hi
  simp only [wordOfBytes, BitVec.getLsbD_append, BitVec.getLsbD_extractLsb']
  by_cases h0 : i < 8
  · simp [h0]
  · by_cases h1 : i - 8 < 8
    · have : 8 + (i - 8) = i := by omega
      simp [h0, h1, this]
    · by_cases h2 : i - 8 - 8 < 8
      · have : 16 + (i - 8 - 8) = i := by omega
        simp [h0, h1, h2, this]
      · have h3 : i - 8 - 8 - 8 < 8 := by omega
        have : 24 + (i - 8 - 8 - 8) = i := by omega
        simp [h0, h1, h2, h3, this]

/-- A word just stored is what is read there (R27, R28). -/
@[simp] theorem Memory.word_writeWord_same (m : Memory) (pa : PAddr) (w : Word) :
    (m.writeWord pa w).word pa = some w := by
  have z : pa.toNat = (pa + 0#34).toNat := by simp
  have n01 : pa.toNat ≠ (pa + 1#34).toNat := by rw [z]; exact toNat_add_ne (by decide)
  have n02 : pa.toNat ≠ (pa + 2#34).toNat := by rw [z]; exact toNat_add_ne (by decide)
  have n03 : pa.toNat ≠ (pa + 3#34).toNat := by rw [z]; exact toNat_add_ne (by decide)
  have n12 : (pa + 1#34).toNat ≠ (pa + 2#34).toNat := toNat_add_ne (by decide)
  have n13 : (pa + 1#34).toNat ≠ (pa + 3#34).toNat := toNat_add_ne (by decide)
  have n23 : (pa + 2#34).toNat ≠ (pa + 3#34).toNat := toNat_add_ne (by decide)
  simp only [Memory.word, Memory.writeWord_eq, Memory.read_write_same, Memory.read_write_ne _ _ n01,
    Memory.read_write_ne _ _ n02, Memory.read_write_ne _ _ n03, Memory.read_write_ne _ _ n12,
    Memory.read_write_ne _ _ n13, Memory.read_write_ne _ _ n23, wordOfBytes_bytes]

/-- A word store leaves every byte outside its four alone. -/
theorem Memory.read_writeWord_ne (m : Memory) (pa : PAddr) (w : Word) {y : Nat} (h : y ∉ byteAddrs pa 4) :
    (m.writeWord pa w).read y = m.read y :=
  Memory.read_writeAll_of_notMem _ m fun _ hc hy => h (hy ▸ (List.of_mem_zip hc).1)

/-- A word that has been written is what the free-filled read returns too. -/
theorem Memory.wordFree_of_word {m : Memory} {pa : PAddr} {w : Word} (h : m.word pa = some w) :
    m.wordFree pa = w := by
  unfold Memory.word at h
  split at h
  · next b0 b1 b2 b3 h0 h1 h2 h3 =>
    simp only [Option.some.injEq] at h
    simp only [Memory.wordFree, Memory.readFree, h0, h1, h2, h3, Option.getD_some, h]
  · cases h

theorem Memory.wordFree_of_pteRead {m : Memory} {sp : Bool} {pa : PAddr} {w : Word}
    (h : m.pteRead sp pa = some w) : m.wordFree pa = w := by
  unfold Memory.pteRead at h
  split at h
  · simpa using h
  · exact Memory.wordFree_of_word h

/-- What the compare-and-write of step 7 can do, said once (R30). -/
theorem Memory.cas_cases (m : Memory) (sp : Bool) (pa : PAddr) (old new : Word) :
    (m.pteRead sp pa = none ∧ m.cas sp pa old new = .unwritten) ∨
    (m.pteRead sp pa = some old ∧ m.cas sp pa old new = .stored (m.writeWord pa new)) ∨
    (∃ w, m.pteRead sp pa = some w ∧ w ≠ old ∧ m.cas sp pa old new = .differs) := by
  unfold Memory.cas
  cases h : m.pteRead sp pa with
  | none => simp
  | some w =>
    by_cases hw : w = old
    · simp [hw]
    · simp [hw]

/-- What is stored at distinct addresses is what is read there, in the same order. -/
theorem Memory.readAll_writeAll (l : List Nat) :
    ∀ (m : Memory) (bs : List Byte), l.Nodup → l.length = bs.length →
      (m.writeAll (l.zip bs)).readAll l = some bs := by
  induction l with
  | nil => intro m bs _ h; cases bs <;> simp_all [Memory.readAll]
  | cons a as ih =>
    intro m bs hn hl
    cases bs with
    | nil => simp at hl
    | cons b bs =>
      have hn' := List.nodup_cons.mp hn
      simp only [List.zip_cons_cons, Memory.writeAll, Memory.readAll]
      rw [ih _ _ hn'.2 (by simpa using hl), Memory.read_writeAll_of_notMem]
      · simp
      · intro c hc h
        exact hn'.1 (h ▸ (List.of_mem_zip hc).1)

/-- Two aligned words at different addresses share no byte (R29). -/
theorem aligned_bytes_ne {pa qa : PAddr} (hp : pa.toNat % 4 = 0) (hq : qa.toNat % 4 = 0) (h : pa ≠ qa)
    {i j : Nat} (hi : i < 4) (hj : j < 4) :
    (pa + BitVec.ofNat 34 i).toNat ≠ (qa + BitVec.ofNat 34 j).toNat := by
  have : pa.toNat ≠ qa.toNat := fun e => h (BitVec.eq_of_toNat_eq e)
  simp only [BitVec.toNat_add, BitVec.toNat_ofNat]
  have := pa.isLt
  have := qa.isLt
  omega

theorem mem_byteAddrs_four {pa : PAddr} {a : Nat} :
    a ∈ byteAddrs pa 4 ↔ ∃ i < 4, a = (pa + BitVec.ofNat 34 i).toNat := by
  simp only [byteAddrs, List.mem_map, List.mem_range, eq_comm]

/-- The update of one PTE leaves every other aligned word as it was. -/
theorem Memory.wordFree_writeWord_ne {m : Memory} {pa qa : PAddr} (w : Word) (hp : pa.toNat % 4 = 0)
    (hq : qa.toNat % 4 = 0) (h : qa ≠ pa) : (m.writeWord pa w).wordFree qa = m.wordFree qa := by
  have hz : qa + BitVec.ofNat 34 0 = qa := by simp
  have key : ∀ j < 4, (m.writeWord pa w).readFree (qa + BitVec.ofNat 34 j).toNat =
      m.readFree (qa + BitVec.ofNat 34 j).toNat := by
    intro j hj
    unfold Memory.readFree
    rw [Memory.read_writeWord_ne]
    rw [mem_byteAddrs_four]
    rintro ⟨i, hi, e⟩
    exact aligned_bytes_ne hq hp h hj hi e
  unfold Memory.wordFree
  have k0 := key 0 (by omega)
  rw [hz] at k0
  rw [k0]
  exact congr (congr (congrArg (wordOfBytes _) (key 1 (by omega))) (key 2 (by omega))) (key 3 (by omega))

end Sys2Proof.Machine
end

