-- ==== Sys2Proof/Laws/State.lean ====
section
/-! SUPPORT. For each named update of the state, one lemma per field: what the field holds after it. -/

namespace Sys2Proof.Machine


/-! The program counter. -/

@[simp] theorem State.advancePc_regs (s : State) (n : Word) : (s.advancePc n).regs = s.regs := rfl
@[simp] theorem State.advancePc_pc (s : State) (n : Word) : (s.advancePc n).pc = s.pc + n := rfl
@[simp] theorem State.advancePc_mode (s : State) (n : Word) : (s.advancePc n).mode = s.mode := rfl
@[simp] theorem State.advancePc_mstatus (s : State) (n : Word) : (s.advancePc n).mstatus = s.mstatus := rfl
@[simp] theorem State.advancePc_satp (s : State) (n : Word) : (s.advancePc n).satp = s.satp := rfl
@[simp] theorem State.advancePc_medeleg (s : State) (n : Word) : (s.advancePc n).medeleg = s.medeleg := rfl
@[simp] theorem State.advancePc_stvec (s : State) (n : Word) : (s.advancePc n).stvec = s.stvec := rfl
@[simp] theorem State.advancePc_sepc (s : State) (n : Word) : (s.advancePc n).sepc = s.sepc := rfl
@[simp] theorem State.advancePc_scause (s : State) (n : Word) : (s.advancePc n).scause = s.scause := rfl
@[simp] theorem State.advancePc_stval (s : State) (n : Word) : (s.advancePc n).stval = s.stval := rfl
@[simp] theorem State.advancePc_mtvec (s : State) (n : Word) : (s.advancePc n).mtvec = s.mtvec := rfl
@[simp] theorem State.advancePc_mepc (s : State) (n : Word) : (s.advancePc n).mepc = s.mepc := rfl
@[simp] theorem State.advancePc_mcause (s : State) (n : Word) : (s.advancePc n).mcause = s.mcause := rfl
@[simp] theorem State.advancePc_mtval (s : State) (n : Word) : (s.advancePc n).mtval = s.mtval := rfl
@[simp] theorem State.advancePc_reservation (s : State) (n : Word) :
    (s.advancePc n).reservation = s.reservation := rfl
@[simp] theorem State.advancePc_mem (s : State) (n : Word) : (s.advancePc n).mem = s.mem := rfl
@[simp] theorem State.advancePc_phys (s : State) (n : Word) : (s.advancePc n).phys = s.phys := rfl
@[simp] theorem State.advancePc_cfg (s : State) (n : Word) : (s.advancePc n).cfg = s.cfg := rfl
@[simp] theorem State.advancePc_atc (s : State) (n : Word) : (s.advancePc n).atc = s.atc := rfl
@[simp] theorem State.advancePc_spec (s : State) (n : Word) : (s.advancePc n).spec = s.spec := rfl
@[simp] theorem State.advancePc_access (s : State) (n : Word) : (s.advancePc n).access = s.access := rfl
@[simp] theorem State.advancePc_ops (s : State) (n : Word) : (s.advancePc n).ops = s.ops := rfl
@[simp] theorem State.advancePc_env (s : State) (n : Word) : (s.advancePc n).env = s.env := rfl
@[simp] theorem State.advancePc_script (s : State) (n : Word) : (s.advancePc n).script = s.script := rfl
@[simp] theorem State.advancePc_draws (s : State) (n : Word) : (s.advancePc n).draws = s.draws := rfl
@[simp] theorem State.advancePc_replies (s : State) (n : Word) : (s.advancePc n).replies = s.replies := rfl

/-! Answers to the enclosing hart. -/

@[simp] theorem State.reply_regs (s : State) (r : Reply) : (s.reply r).regs = s.regs := rfl
@[simp] theorem State.reply_pc (s : State) (r : Reply) : (s.reply r).pc = s.pc := rfl
@[simp] theorem State.reply_mode (s : State) (r : Reply) : (s.reply r).mode = s.mode := rfl
@[simp] theorem State.reply_mstatus (s : State) (r : Reply) : (s.reply r).mstatus = s.mstatus := rfl
@[simp] theorem State.reply_satp (s : State) (r : Reply) : (s.reply r).satp = s.satp := rfl
@[simp] theorem State.reply_medeleg (s : State) (r : Reply) : (s.reply r).medeleg = s.medeleg := rfl
@[simp] theorem State.reply_stvec (s : State) (r : Reply) : (s.reply r).stvec = s.stvec := rfl
@[simp] theorem State.reply_sepc (s : State) (r : Reply) : (s.reply r).sepc = s.sepc := rfl
@[simp] theorem State.reply_scause (s : State) (r : Reply) : (s.reply r).scause = s.scause := rfl
@[simp] theorem State.reply_stval (s : State) (r : Reply) : (s.reply r).stval = s.stval := rfl
@[simp] theorem State.reply_mtvec (s : State) (r : Reply) : (s.reply r).mtvec = s.mtvec := rfl
@[simp] theorem State.reply_mepc (s : State) (r : Reply) : (s.reply r).mepc = s.mepc := rfl
@[simp] theorem State.reply_mcause (s : State) (r : Reply) : (s.reply r).mcause = s.mcause := rfl
@[simp] theorem State.reply_mtval (s : State) (r : Reply) : (s.reply r).mtval = s.mtval := rfl
@[simp] theorem State.reply_reservation (s : State) (r : Reply) :
    (s.reply r).reservation = s.reservation := rfl
@[simp] theorem State.reply_mem (s : State) (r : Reply) : (s.reply r).mem = s.mem := rfl
@[simp] theorem State.reply_phys (s : State) (r : Reply) : (s.reply r).phys = s.phys := rfl
@[simp] theorem State.reply_cfg (s : State) (r : Reply) : (s.reply r).cfg = s.cfg := rfl
@[simp] theorem State.reply_atc (s : State) (r : Reply) : (s.reply r).atc = s.atc := rfl
@[simp] theorem State.reply_spec (s : State) (r : Reply) : (s.reply r).spec = s.spec := rfl
@[simp] theorem State.reply_access (s : State) (r : Reply) : (s.reply r).access = s.access := rfl
@[simp] theorem State.reply_ops (s : State) (r : Reply) : (s.reply r).ops = s.ops := rfl
@[simp] theorem State.reply_env (s : State) (r : Reply) : (s.reply r).env = s.env := rfl
@[simp] theorem State.reply_script (s : State) (r : Reply) : (s.reply r).script = s.script := rfl
@[simp] theorem State.reply_draws (s : State) (r : Reply) : (s.reply r).draws = s.draws := rfl
@[simp] theorem State.reply_replies (s : State) (r : Reply) : (s.reply r).replies = s.replies ++ [r] := rfl

/-! Memory. -/

@[simp] theorem State.setMem_regs (s : State) (m : Memory) : (s.setMem m).regs = s.regs := rfl
@[simp] theorem State.setMem_pc (s : State) (m : Memory) : (s.setMem m).pc = s.pc := rfl
@[simp] theorem State.setMem_mode (s : State) (m : Memory) : (s.setMem m).mode = s.mode := rfl
@[simp] theorem State.setMem_mstatus (s : State) (m : Memory) : (s.setMem m).mstatus = s.mstatus := rfl
@[simp] theorem State.setMem_satp (s : State) (m : Memory) : (s.setMem m).satp = s.satp := rfl
@[simp] theorem State.setMem_medeleg (s : State) (m : Memory) : (s.setMem m).medeleg = s.medeleg := rfl
@[simp] theorem State.setMem_stvec (s : State) (m : Memory) : (s.setMem m).stvec = s.stvec := rfl
@[simp] theorem State.setMem_sepc (s : State) (m : Memory) : (s.setMem m).sepc = s.sepc := rfl
@[simp] theorem State.setMem_scause (s : State) (m : Memory) : (s.setMem m).scause = s.scause := rfl
@[simp] theorem State.setMem_stval (s : State) (m : Memory) : (s.setMem m).stval = s.stval := rfl
@[simp] theorem State.setMem_mtvec (s : State) (m : Memory) : (s.setMem m).mtvec = s.mtvec := rfl
@[simp] theorem State.setMem_mepc (s : State) (m : Memory) : (s.setMem m).mepc = s.mepc := rfl
@[simp] theorem State.setMem_mcause (s : State) (m : Memory) : (s.setMem m).mcause = s.mcause := rfl
@[simp] theorem State.setMem_mtval (s : State) (m : Memory) : (s.setMem m).mtval = s.mtval := rfl
@[simp] theorem State.setMem_reservation (s : State) (m : Memory) :
    (s.setMem m).reservation = s.reservation := rfl
@[simp] theorem State.setMem_mem (s : State) (m : Memory) : (s.setMem m).mem = m := rfl
@[simp] theorem State.setMem_phys (s : State) (m : Memory) : (s.setMem m).phys = s.phys := rfl
@[simp] theorem State.setMem_cfg (s : State) (m : Memory) : (s.setMem m).cfg = s.cfg := rfl
@[simp] theorem State.setMem_atc (s : State) (m : Memory) : (s.setMem m).atc = s.atc := rfl
@[simp] theorem State.setMem_spec (s : State) (m : Memory) : (s.setMem m).spec = s.spec := rfl
@[simp] theorem State.setMem_access (s : State) (m : Memory) : (s.setMem m).access = s.access := rfl
@[simp] theorem State.setMem_ops (s : State) (m : Memory) : (s.setMem m).ops = s.ops := rfl
@[simp] theorem State.setMem_env (s : State) (m : Memory) : (s.setMem m).env = s.env := rfl
@[simp] theorem State.setMem_script (s : State) (m : Memory) : (s.setMem m).script = s.script := rfl
@[simp] theorem State.setMem_draws (s : State) (m : Memory) : (s.setMem m).draws = s.draws := rfl
@[simp] theorem State.setMem_replies (s : State) (m : Memory) : (s.setMem m).replies = s.replies := rfl

/-! The cache. -/

@[simp] theorem State.addAtc_regs (s : State) (e : AtcEntry) : (s.addAtc e).regs = s.regs := rfl
@[simp] theorem State.addAtc_pc (s : State) (e : AtcEntry) : (s.addAtc e).pc = s.pc := rfl
@[simp] theorem State.addAtc_mode (s : State) (e : AtcEntry) : (s.addAtc e).mode = s.mode := rfl
@[simp] theorem State.addAtc_mstatus (s : State) (e : AtcEntry) : (s.addAtc e).mstatus = s.mstatus := rfl
@[simp] theorem State.addAtc_satp (s : State) (e : AtcEntry) : (s.addAtc e).satp = s.satp := rfl
@[simp] theorem State.addAtc_medeleg (s : State) (e : AtcEntry) : (s.addAtc e).medeleg = s.medeleg := rfl
@[simp] theorem State.addAtc_stvec (s : State) (e : AtcEntry) : (s.addAtc e).stvec = s.stvec := rfl
@[simp] theorem State.addAtc_sepc (s : State) (e : AtcEntry) : (s.addAtc e).sepc = s.sepc := rfl
@[simp] theorem State.addAtc_scause (s : State) (e : AtcEntry) : (s.addAtc e).scause = s.scause := rfl
@[simp] theorem State.addAtc_stval (s : State) (e : AtcEntry) : (s.addAtc e).stval = s.stval := rfl
@[simp] theorem State.addAtc_mtvec (s : State) (e : AtcEntry) : (s.addAtc e).mtvec = s.mtvec := rfl
@[simp] theorem State.addAtc_mepc (s : State) (e : AtcEntry) : (s.addAtc e).mepc = s.mepc := rfl
@[simp] theorem State.addAtc_mcause (s : State) (e : AtcEntry) : (s.addAtc e).mcause = s.mcause := rfl
@[simp] theorem State.addAtc_mtval (s : State) (e : AtcEntry) : (s.addAtc e).mtval = s.mtval := rfl
@[simp] theorem State.addAtc_reservation (s : State) (e : AtcEntry) :
    (s.addAtc e).reservation = s.reservation := rfl
@[simp] theorem State.addAtc_mem (s : State) (e : AtcEntry) : (s.addAtc e).mem = s.mem := rfl
@[simp] theorem State.addAtc_phys (s : State) (e : AtcEntry) : (s.addAtc e).phys = s.phys := rfl
@[simp] theorem State.addAtc_cfg (s : State) (e : AtcEntry) : (s.addAtc e).cfg = s.cfg := rfl
@[simp] theorem State.addAtc_atc (s : State) (e : AtcEntry) : (s.addAtc e).atc = e :: s.atc := rfl
@[simp] theorem State.addAtc_spec (s : State) (e : AtcEntry) : (s.addAtc e).spec = s.spec := rfl
@[simp] theorem State.addAtc_access (s : State) (e : AtcEntry) : (s.addAtc e).access = s.access := rfl
@[simp] theorem State.addAtc_ops (s : State) (e : AtcEntry) : (s.addAtc e).ops = s.ops := rfl
@[simp] theorem State.addAtc_env (s : State) (e : AtcEntry) : (s.addAtc e).env = s.env := rfl
@[simp] theorem State.addAtc_script (s : State) (e : AtcEntry) : (s.addAtc e).script = s.script := rfl
@[simp] theorem State.addAtc_draws (s : State) (e : AtcEntry) : (s.addAtc e).draws = s.draws := rfl
@[simp] theorem State.addAtc_replies (s : State) (e : AtcEntry) : (s.addAtc e).replies = s.replies := rfl

/-! Traps and returns. -/

@[simp] theorem State.trapToS_regs (s : State) (c : Nat) (v : Word) : (s.trapToS c v).regs = s.regs := rfl
@[simp] theorem State.trapToS_pc (s : State) (c : Nat) (v : Word) :
    (s.trapToS c v).pc = vectorBase s.stvec := rfl
@[simp] theorem State.trapToS_mode (s : State) (c : Nat) (v : Word) : (s.trapToS c v).mode = .s := rfl
@[simp] theorem State.trapToS_mstatus (s : State) (c : Nat) (v : Word) : (s.trapToS c v).mstatus = 
    withBit (withBit (withBit s.mstatus 8 (decide (s.mode ≠ .u))) 5 (msSie s.mstatus)) 1 false := rfl
@[simp] theorem State.trapToS_satp (s : State) (c : Nat) (v : Word) : (s.trapToS c v).satp = s.satp := rfl
@[simp] theorem State.trapToS_medeleg (s : State) (c : Nat) (v : Word) :
    (s.trapToS c v).medeleg = s.medeleg := rfl
@[simp] theorem State.trapToS_stvec (s : State) (c : Nat) (v : Word) : (s.trapToS c v).stvec = s.stvec := rfl
@[simp] theorem State.trapToS_sepc (s : State) (c : Nat) (v : Word) : (s.trapToS c v).sepc = s.pc := rfl
@[simp] theorem State.trapToS_scause (s : State) (c : Nat) (v : Word) :
    (s.trapToS c v).scause = BitVec.ofNat 32 c := rfl
@[simp] theorem State.trapToS_stval (s : State) (c : Nat) (v : Word) : (s.trapToS c v).stval = v := rfl
@[simp] theorem State.trapToS_mtvec (s : State) (c : Nat) (v : Word) : (s.trapToS c v).mtvec = s.mtvec := rfl
@[simp] theorem State.trapToS_mepc (s : State) (c : Nat) (v : Word) : (s.trapToS c v).mepc = s.mepc := rfl
@[simp] theorem State.trapToS_mcause (s : State) (c : Nat) (v : Word) :
    (s.trapToS c v).mcause = s.mcause := rfl
@[simp] theorem State.trapToS_mtval (s : State) (c : Nat) (v : Word) : (s.trapToS c v).mtval = s.mtval := rfl
@[simp] theorem State.trapToS_reservation (s : State) (c : Nat) (v : Word) :
    (s.trapToS c v).reservation = s.reservation := rfl
@[simp] theorem State.trapToS_mem (s : State) (c : Nat) (v : Word) : (s.trapToS c v).mem = s.mem := rfl
@[simp] theorem State.trapToS_phys (s : State) (c : Nat) (v : Word) : (s.trapToS c v).phys = s.phys := rfl
@[simp] theorem State.trapToS_cfg (s : State) (c : Nat) (v : Word) : (s.trapToS c v).cfg = s.cfg := rfl
@[simp] theorem State.trapToS_atc (s : State) (c : Nat) (v : Word) : (s.trapToS c v).atc = s.atc := rfl
@[simp] theorem State.trapToS_spec (s : State) (c : Nat) (v : Word) : (s.trapToS c v).spec = s.spec := rfl
@[simp] theorem State.trapToS_access (s : State) (c : Nat) (v : Word) :
    (s.trapToS c v).access = s.access := rfl
@[simp] theorem State.trapToS_ops (s : State) (c : Nat) (v : Word) : (s.trapToS c v).ops = s.ops := rfl
@[simp] theorem State.trapToS_env (s : State) (c : Nat) (v : Word) : (s.trapToS c v).env = s.env := rfl
@[simp] theorem State.trapToS_script (s : State) (c : Nat) (v : Word) :
    (s.trapToS c v).script = s.script := rfl
@[simp] theorem State.trapToS_draws (s : State) (c : Nat) (v : Word) : (s.trapToS c v).draws = s.draws := rfl
@[simp] theorem State.trapToS_replies (s : State) (c : Nat) (v : Word) :
    (s.trapToS c v).replies = s.replies := rfl
@[simp] theorem State.trapToM_regs (s : State) (c : Nat) (v : Word) : (s.trapToM c v).regs = s.regs := rfl
@[simp] theorem State.trapToM_pc (s : State) (c : Nat) (v : Word) :
    (s.trapToM c v).pc = vectorBase s.mtvec := rfl
@[simp] theorem State.trapToM_mode (s : State) (c : Nat) (v : Word) : (s.trapToM c v).mode = .m := rfl
@[simp] theorem State.trapToM_mstatus (s : State) (c : Nat) (v : Word) : (s.trapToM c v).mstatus = 
    withBit (withBit (withMpp s.mstatus s.mode.bits) 7 (msMie s.mstatus)) 3 false := rfl
@[simp] theorem State.trapToM_satp (s : State) (c : Nat) (v : Word) : (s.trapToM c v).satp = s.satp := rfl
@[simp] theorem State.trapToM_medeleg (s : State) (c : Nat) (v : Word) :
    (s.trapToM c v).medeleg = s.medeleg := rfl
@[simp] theorem State.trapToM_stvec (s : State) (c : Nat) (v : Word) : (s.trapToM c v).stvec = s.stvec := rfl
@[simp] theorem State.trapToM_sepc (s : State) (c : Nat) (v : Word) : (s.trapToM c v).sepc = s.sepc := rfl
@[simp] theorem State.trapToM_scause (s : State) (c : Nat) (v : Word) :
    (s.trapToM c v).scause = s.scause := rfl
@[simp] theorem State.trapToM_stval (s : State) (c : Nat) (v : Word) : (s.trapToM c v).stval = s.stval := rfl
@[simp] theorem State.trapToM_mtvec (s : State) (c : Nat) (v : Word) : (s.trapToM c v).mtvec = s.mtvec := rfl
@[simp] theorem State.trapToM_mepc (s : State) (c : Nat) (v : Word) : (s.trapToM c v).mepc = s.pc := rfl
@[simp] theorem State.trapToM_mcause (s : State) (c : Nat) (v : Word) :
    (s.trapToM c v).mcause = BitVec.ofNat 32 c := rfl
@[simp] theorem State.trapToM_mtval (s : State) (c : Nat) (v : Word) : (s.trapToM c v).mtval = v := rfl
@[simp] theorem State.trapToM_reservation (s : State) (c : Nat) (v : Word) :
    (s.trapToM c v).reservation = s.reservation := rfl
@[simp] theorem State.trapToM_mem (s : State) (c : Nat) (v : Word) : (s.trapToM c v).mem = s.mem := rfl
@[simp] theorem State.trapToM_phys (s : State) (c : Nat) (v : Word) : (s.trapToM c v).phys = s.phys := rfl
@[simp] theorem State.trapToM_cfg (s : State) (c : Nat) (v : Word) : (s.trapToM c v).cfg = s.cfg := rfl
@[simp] theorem State.trapToM_atc (s : State) (c : Nat) (v : Word) : (s.trapToM c v).atc = s.atc := rfl
@[simp] theorem State.trapToM_spec (s : State) (c : Nat) (v : Word) : (s.trapToM c v).spec = s.spec := rfl
@[simp] theorem State.trapToM_access (s : State) (c : Nat) (v : Word) :
    (s.trapToM c v).access = s.access := rfl
@[simp] theorem State.trapToM_ops (s : State) (c : Nat) (v : Word) : (s.trapToM c v).ops = s.ops := rfl
@[simp] theorem State.trapToM_env (s : State) (c : Nat) (v : Word) : (s.trapToM c v).env = s.env := rfl
@[simp] theorem State.trapToM_script (s : State) (c : Nat) (v : Word) :
    (s.trapToM c v).script = s.script := rfl
@[simp] theorem State.trapToM_draws (s : State) (c : Nat) (v : Word) : (s.trapToM c v).draws = s.draws := rfl
@[simp] theorem State.trapToM_replies (s : State) (c : Nat) (v : Word) :
    (s.trapToM c v).replies = s.replies := rfl
@[simp] theorem State.sret_regs (s : State) : (s.sret).regs = s.regs := rfl
@[simp] theorem State.sret_pc (s : State) : (s.sret).pc = s.sepc := rfl
@[simp] theorem State.sret_mode (s : State) : (s.sret).mode = if msSpp s.mstatus then .s else .u := rfl
@[simp] theorem State.sret_mstatus (s : State) : (s.sret).mstatus = 
    withBit (withBit (withBit (withBit s.mstatus 1 (msSpie s.mstatus)) 5 true) 8 false) 17 false := rfl
@[simp] theorem State.sret_satp (s : State) : (s.sret).satp = s.satp := rfl
@[simp] theorem State.sret_medeleg (s : State) : (s.sret).medeleg = s.medeleg := rfl
@[simp] theorem State.sret_stvec (s : State) : (s.sret).stvec = s.stvec := rfl
@[simp] theorem State.sret_sepc (s : State) : (s.sret).sepc = s.sepc := rfl
@[simp] theorem State.sret_scause (s : State) : (s.sret).scause = s.scause := rfl
@[simp] theorem State.sret_stval (s : State) : (s.sret).stval = s.stval := rfl
@[simp] theorem State.sret_mtvec (s : State) : (s.sret).mtvec = s.mtvec := rfl
@[simp] theorem State.sret_mepc (s : State) : (s.sret).mepc = s.mepc := rfl
@[simp] theorem State.sret_mcause (s : State) : (s.sret).mcause = s.mcause := rfl
@[simp] theorem State.sret_mtval (s : State) : (s.sret).mtval = s.mtval := rfl
@[simp] theorem State.sret_reservation (s : State) : (s.sret).reservation = s.reservation := rfl
@[simp] theorem State.sret_mem (s : State) : (s.sret).mem = s.mem := rfl
@[simp] theorem State.sret_phys (s : State) : (s.sret).phys = s.phys := rfl
@[simp] theorem State.sret_cfg (s : State) : (s.sret).cfg = s.cfg := rfl
@[simp] theorem State.sret_atc (s : State) : (s.sret).atc = s.atc := rfl
@[simp] theorem State.sret_spec (s : State) : (s.sret).spec = s.spec := rfl
@[simp] theorem State.sret_access (s : State) : (s.sret).access = s.access := rfl
@[simp] theorem State.sret_ops (s : State) : (s.sret).ops = s.ops := rfl
@[simp] theorem State.sret_env (s : State) : (s.sret).env = s.env := rfl
@[simp] theorem State.sret_script (s : State) : (s.sret).script = s.script := rfl
@[simp] theorem State.sret_draws (s : State) : (s.sret).draws = s.draws := rfl
@[simp] theorem State.sret_replies (s : State) : (s.sret).replies = s.replies := rfl
@[simp] theorem State.mret_regs (s : State) : (s.mret).regs = s.regs := rfl
@[simp] theorem State.mret_pc (s : State) : (s.mret).pc = s.mepc := rfl
@[simp] theorem State.mret_mode (s : State) : (s.mret).mode = modeOfBits (msMpp s.mstatus) := rfl
@[simp] theorem State.mret_mstatus (s : State) : (s.mret).mstatus = 
    withBit (withMpp (withBit (withBit s.mstatus 3 (msMpie s.mstatus)) 7 true) 0#2) 17
      (msMprv s.mstatus && decide (modeOfBits (msMpp s.mstatus) = .m)) := rfl
@[simp] theorem State.mret_satp (s : State) : (s.mret).satp = s.satp := rfl
@[simp] theorem State.mret_medeleg (s : State) : (s.mret).medeleg = s.medeleg := rfl
@[simp] theorem State.mret_stvec (s : State) : (s.mret).stvec = s.stvec := rfl
@[simp] theorem State.mret_sepc (s : State) : (s.mret).sepc = s.sepc := rfl
@[simp] theorem State.mret_scause (s : State) : (s.mret).scause = s.scause := rfl
@[simp] theorem State.mret_stval (s : State) : (s.mret).stval = s.stval := rfl
@[simp] theorem State.mret_mtvec (s : State) : (s.mret).mtvec = s.mtvec := rfl
@[simp] theorem State.mret_mepc (s : State) : (s.mret).mepc = s.mepc := rfl
@[simp] theorem State.mret_mcause (s : State) : (s.mret).mcause = s.mcause := rfl
@[simp] theorem State.mret_mtval (s : State) : (s.mret).mtval = s.mtval := rfl
@[simp] theorem State.mret_reservation (s : State) : (s.mret).reservation = s.reservation := rfl
@[simp] theorem State.mret_mem (s : State) : (s.mret).mem = s.mem := rfl
@[simp] theorem State.mret_phys (s : State) : (s.mret).phys = s.phys := rfl
@[simp] theorem State.mret_cfg (s : State) : (s.mret).cfg = s.cfg := rfl
@[simp] theorem State.mret_atc (s : State) : (s.mret).atc = s.atc := rfl
@[simp] theorem State.mret_spec (s : State) : (s.mret).spec = s.spec := rfl
@[simp] theorem State.mret_access (s : State) : (s.mret).access = s.access := rfl
@[simp] theorem State.mret_ops (s : State) : (s.mret).ops = s.ops := rfl
@[simp] theorem State.mret_env (s : State) : (s.mret).env = s.env := rfl
@[simp] theorem State.mret_script (s : State) : (s.mret).script = s.script := rfl
@[simp] theorem State.mret_draws (s : State) : (s.mret).draws = s.draws := rfl
@[simp] theorem State.mret_replies (s : State) : (s.mret).replies = s.replies := rfl
@[simp] theorem State.takeException_regs (s : State) (c : Nat) (v : Word) :
    (s.takeException c v).regs = s.regs := by
  unfold State.takeException; split <;> rfl
@[simp] theorem State.takeException_satp (s : State) (c : Nat) (v : Word) :
    (s.takeException c v).satp = s.satp := by
  unfold State.takeException; split <;> rfl
@[simp] theorem State.takeException_medeleg (s : State) (c : Nat) (v : Word) :
    (s.takeException c v).medeleg = s.medeleg := by
  unfold State.takeException; split <;> rfl
@[simp] theorem State.takeException_stvec (s : State) (c : Nat) (v : Word) :
    (s.takeException c v).stvec = s.stvec := by
  unfold State.takeException; split <;> rfl
@[simp] theorem State.takeException_mtvec (s : State) (c : Nat) (v : Word) :
    (s.takeException c v).mtvec = s.mtvec := by
  unfold State.takeException; split <;> rfl
@[simp] theorem State.takeException_reservation (s : State) (c : Nat) (v : Word) :
    (s.takeException c v).reservation = s.reservation := by
  unfold State.takeException; split <;> rfl
@[simp] theorem State.takeException_mem (s : State) (c : Nat) (v : Word) :
    (s.takeException c v).mem = s.mem := by
  unfold State.takeException; split <;> rfl
@[simp] theorem State.takeException_phys (s : State) (c : Nat) (v : Word) :
    (s.takeException c v).phys = s.phys := by
  unfold State.takeException; split <;> rfl
@[simp] theorem State.takeException_cfg (s : State) (c : Nat) (v : Word) :
    (s.takeException c v).cfg = s.cfg := by
  unfold State.takeException; split <;> rfl
@[simp] theorem State.takeException_atc (s : State) (c : Nat) (v : Word) :
    (s.takeException c v).atc = s.atc := by
  unfold State.takeException; split <;> rfl
@[simp] theorem State.takeException_spec (s : State) (c : Nat) (v : Word) :
    (s.takeException c v).spec = s.spec := by
  unfold State.takeException; split <;> rfl
@[simp] theorem State.takeException_access (s : State) (c : Nat) (v : Word) :
    (s.takeException c v).access = s.access := by
  unfold State.takeException; split <;> rfl
@[simp] theorem State.takeException_ops (s : State) (c : Nat) (v : Word) :
    (s.takeException c v).ops = s.ops := by
  unfold State.takeException; split <;> rfl
@[simp] theorem State.takeException_env (s : State) (c : Nat) (v : Word) :
    (s.takeException c v).env = s.env := by
  unfold State.takeException; split <;> rfl
@[simp] theorem State.takeException_script (s : State) (c : Nat) (v : Word) :
    (s.takeException c v).script = s.script := by
  unfold State.takeException; split <;> rfl
@[simp] theorem State.takeException_draws (s : State) (c : Nat) (v : Word) :
    (s.takeException c v).draws = s.draws := by
  unfold State.takeException; split <;> rfl
@[simp] theorem State.takeException_replies (s : State) (c : Nat) (v : Word) :
    (s.takeException c v).replies = s.replies := by
  unfold State.takeException; split <;> rfl
@[simp] theorem State.takeExn_regs (s : State) (e : Exn) : (s.takeExn e).regs = s.regs := by
  exact State.takeException_regs s _ _
@[simp] theorem State.takeExn_satp (s : State) (e : Exn) : (s.takeExn e).satp = s.satp := by
  exact State.takeException_satp s _ _
@[simp] theorem State.takeExn_medeleg (s : State) (e : Exn) : (s.takeExn e).medeleg = s.medeleg := by
  exact State.takeException_medeleg s _ _
@[simp] theorem State.takeExn_stvec (s : State) (e : Exn) : (s.takeExn e).stvec = s.stvec := by
  exact State.takeException_stvec s _ _
@[simp] theorem State.takeExn_mtvec (s : State) (e : Exn) : (s.takeExn e).mtvec = s.mtvec := by
  exact State.takeException_mtvec s _ _
@[simp] theorem State.takeExn_reservation (s : State) (e : Exn) :
    (s.takeExn e).reservation = s.reservation := by
  exact State.takeException_reservation s _ _
@[simp] theorem State.takeExn_mem (s : State) (e : Exn) : (s.takeExn e).mem = s.mem := by
  exact State.takeException_mem s _ _
@[simp] theorem State.takeExn_phys (s : State) (e : Exn) : (s.takeExn e).phys = s.phys := by
  exact State.takeException_phys s _ _
@[simp] theorem State.takeExn_cfg (s : State) (e : Exn) : (s.takeExn e).cfg = s.cfg := by
  exact State.takeException_cfg s _ _
@[simp] theorem State.takeExn_atc (s : State) (e : Exn) : (s.takeExn e).atc = s.atc := by
  exact State.takeException_atc s _ _
@[simp] theorem State.takeExn_spec (s : State) (e : Exn) : (s.takeExn e).spec = s.spec := by
  exact State.takeException_spec s _ _
@[simp] theorem State.takeExn_access (s : State) (e : Exn) : (s.takeExn e).access = s.access := by
  exact State.takeException_access s _ _
@[simp] theorem State.takeExn_ops (s : State) (e : Exn) : (s.takeExn e).ops = s.ops := by
  exact State.takeException_ops s _ _
@[simp] theorem State.takeExn_env (s : State) (e : Exn) : (s.takeExn e).env = s.env := by
  exact State.takeException_env s _ _
@[simp] theorem State.takeExn_script (s : State) (e : Exn) : (s.takeExn e).script = s.script := by
  exact State.takeException_script s _ _
@[simp] theorem State.takeExn_draws (s : State) (e : Exn) : (s.takeExn e).draws = s.draws := by
  exact State.takeException_draws s _ _
@[simp] theorem State.takeExn_replies (s : State) (e : Exn) : (s.takeExn e).replies = s.replies := by
  exact State.takeException_replies s _ _
@[simp] theorem State.takeIllegal_regs (s : State) : (s.takeIllegal).regs = s.regs := by
  exact State.takeException_regs _ _ _
@[simp] theorem State.takeIllegal_satp (s : State) : (s.takeIllegal).satp = s.satp := by
  exact State.takeException_satp _ _ _
@[simp] theorem State.takeIllegal_medeleg (s : State) : (s.takeIllegal).medeleg = s.medeleg := by
  exact State.takeException_medeleg _ _ _
@[simp] theorem State.takeIllegal_stvec (s : State) : (s.takeIllegal).stvec = s.stvec := by
  exact State.takeException_stvec _ _ _
@[simp] theorem State.takeIllegal_mtvec (s : State) : (s.takeIllegal).mtvec = s.mtvec := by
  exact State.takeException_mtvec _ _ _
@[simp] theorem State.takeIllegal_reservation (s : State) : (s.takeIllegal).reservation = s.reservation := by
  exact State.takeException_reservation _ _ _
@[simp] theorem State.takeIllegal_mem (s : State) : (s.takeIllegal).mem = s.mem := by
  exact State.takeException_mem _ _ _
@[simp] theorem State.takeIllegal_phys (s : State) : (s.takeIllegal).phys = s.phys := by
  exact State.takeException_phys _ _ _
@[simp] theorem State.takeIllegal_cfg (s : State) : (s.takeIllegal).cfg = s.cfg := by
  exact State.takeException_cfg _ _ _
@[simp] theorem State.takeIllegal_atc (s : State) : (s.takeIllegal).atc = s.atc := by
  exact State.takeException_atc _ _ _
@[simp] theorem State.takeIllegal_spec (s : State) : (s.takeIllegal).spec = s.spec := by
  exact State.takeException_spec _ _ _
@[simp] theorem State.takeIllegal_access (s : State) : (s.takeIllegal).access = s.access := by
  exact State.takeException_access _ _ _
@[simp] theorem State.takeIllegal_ops (s : State) : (s.takeIllegal).ops = s.ops := by
  exact State.takeException_ops _ _ _
@[simp] theorem State.takeIllegal_env (s : State) : (s.takeIllegal).env = s.env := by
  exact State.takeException_env _ _ _
@[simp] theorem State.takeIllegal_script (s : State) : (s.takeIllegal).script = s.script := by
  exact State.takeException_script _ _ _
@[simp] theorem State.takeIllegal_replies (s : State) : (s.takeIllegal).replies = s.replies := by
  exact State.takeException_replies _ _ _

/-! Registers and control registers. -/

@[simp] theorem State.setReg_pc (s : State) (r : Nat) (v : Word) : (s.setReg r v).pc = s.pc := by
  unfold State.setReg; split <;> rfl
@[simp] theorem State.setReg_mode (s : State) (r : Nat) (v : Word) : (s.setReg r v).mode = s.mode := by
  unfold State.setReg; split <;> rfl
@[simp] theorem State.setReg_mstatus (s : State) (r : Nat) (v : Word) :
    (s.setReg r v).mstatus = s.mstatus := by
  unfold State.setReg; split <;> rfl
@[simp] theorem State.setReg_satp (s : State) (r : Nat) (v : Word) : (s.setReg r v).satp = s.satp := by
  unfold State.setReg; split <;> rfl
@[simp] theorem State.setReg_medeleg (s : State) (r : Nat) (v : Word) :
    (s.setReg r v).medeleg = s.medeleg := by
  unfold State.setReg; split <;> rfl
@[simp] theorem State.setReg_stvec (s : State) (r : Nat) (v : Word) : (s.setReg r v).stvec = s.stvec := by
  unfold State.setReg; split <;> rfl
@[simp] theorem State.setReg_sepc (s : State) (r : Nat) (v : Word) : (s.setReg r v).sepc = s.sepc := by
  unfold State.setReg; split <;> rfl
@[simp] theorem State.setReg_scause (s : State) (r : Nat) (v : Word) : (s.setReg r v).scause = s.scause := by
  unfold State.setReg; split <;> rfl
@[simp] theorem State.setReg_stval (s : State) (r : Nat) (v : Word) : (s.setReg r v).stval = s.stval := by
  unfold State.setReg; split <;> rfl
@[simp] theorem State.setReg_mtvec (s : State) (r : Nat) (v : Word) : (s.setReg r v).mtvec = s.mtvec := by
  unfold State.setReg; split <;> rfl
@[simp] theorem State.setReg_mepc (s : State) (r : Nat) (v : Word) : (s.setReg r v).mepc = s.mepc := by
  unfold State.setReg; split <;> rfl
@[simp] theorem State.setReg_mcause (s : State) (r : Nat) (v : Word) : (s.setReg r v).mcause = s.mcause := by
  unfold State.setReg; split <;> rfl
@[simp] theorem State.setReg_mtval (s : State) (r : Nat) (v : Word) : (s.setReg r v).mtval = s.mtval := by
  unfold State.setReg; split <;> rfl
@[simp] theorem State.setReg_reservation (s : State) (r : Nat) (v : Word) :
    (s.setReg r v).reservation = s.reservation := by
  unfold State.setReg; split <;> rfl
@[simp] theorem State.setReg_mem (s : State) (r : Nat) (v : Word) : (s.setReg r v).mem = s.mem := by
  unfold State.setReg; split <;> rfl
@[simp] theorem State.setReg_phys (s : State) (r : Nat) (v : Word) : (s.setReg r v).phys = s.phys := by
  unfold State.setReg; split <;> rfl
@[simp] theorem State.setReg_cfg (s : State) (r : Nat) (v : Word) : (s.setReg r v).cfg = s.cfg := by
  unfold State.setReg; split <;> rfl
@[simp] theorem State.setReg_atc (s : State) (r : Nat) (v : Word) : (s.setReg r v).atc = s.atc := by
  unfold State.setReg; split <;> rfl
@[simp] theorem State.setReg_spec (s : State) (r : Nat) (v : Word) : (s.setReg r v).spec = s.spec := by
  unfold State.setReg; split <;> rfl
@[simp] theorem State.setReg_access (s : State) (r : Nat) (v : Word) : (s.setReg r v).access = s.access := by
  unfold State.setReg; split <;> rfl
@[simp] theorem State.setReg_ops (s : State) (r : Nat) (v : Word) : (s.setReg r v).ops = s.ops := by
  unfold State.setReg; split <;> rfl
@[simp] theorem State.setReg_env (s : State) (r : Nat) (v : Word) : (s.setReg r v).env = s.env := by
  unfold State.setReg; split <;> rfl
@[simp] theorem State.setReg_script (s : State) (r : Nat) (v : Word) : (s.setReg r v).script = s.script := by
  unfold State.setReg; split <;> rfl
@[simp] theorem State.setReg_draws (s : State) (r : Nat) (v : Word) : (s.setReg r v).draws = s.draws := by
  unfold State.setReg; split <;> rfl
@[simp] theorem State.setReg_replies (s : State) (r : Nat) (v : Word) :
    (s.setReg r v).replies = s.replies := by
  unfold State.setReg; split <;> rfl
@[simp] theorem State.setCsr_regs (s : State) (c : Csr) (v : Word) : (s.setCsr c v).regs = s.regs := by
  cases c <;> rfl
@[simp] theorem State.setCsr_pc (s : State) (c : Csr) (v : Word) : (s.setCsr c v).pc = s.pc := by
  cases c <;> rfl
@[simp] theorem State.setCsr_mode (s : State) (c : Csr) (v : Word) : (s.setCsr c v).mode = s.mode := by
  cases c <;> rfl
@[simp] theorem State.setCsr_reservation (s : State) (c : Csr) (v : Word) :
    (s.setCsr c v).reservation = s.reservation := by
  cases c <;> rfl
@[simp] theorem State.setCsr_mem (s : State) (c : Csr) (v : Word) : (s.setCsr c v).mem = s.mem := by
  cases c <;> rfl
@[simp] theorem State.setCsr_phys (s : State) (c : Csr) (v : Word) : (s.setCsr c v).phys = s.phys := by
  cases c <;> rfl
@[simp] theorem State.setCsr_cfg (s : State) (c : Csr) (v : Word) : (s.setCsr c v).cfg = s.cfg := by
  cases c <;> rfl
@[simp] theorem State.setCsr_atc (s : State) (c : Csr) (v : Word) : (s.setCsr c v).atc = s.atc := by
  cases c <;> rfl
@[simp] theorem State.setCsr_spec (s : State) (c : Csr) (v : Word) : (s.setCsr c v).spec = s.spec := by
  cases c <;> rfl
@[simp] theorem State.setCsr_access (s : State) (c : Csr) (v : Word) : (s.setCsr c v).access = s.access := by
  cases c <;> rfl
@[simp] theorem State.setCsr_ops (s : State) (c : Csr) (v : Word) : (s.setCsr c v).ops = s.ops := by
  cases c <;> rfl
@[simp] theorem State.setCsr_env (s : State) (c : Csr) (v : Word) : (s.setCsr c v).env = s.env := by
  cases c <;> rfl
@[simp] theorem State.setCsr_script (s : State) (c : Csr) (v : Word) : (s.setCsr c v).script = s.script := by
  cases c <;> rfl
@[simp] theorem State.setCsr_draws (s : State) (c : Csr) (v : Word) : (s.setCsr c v).draws = s.draws := by
  cases c <;> rfl
@[simp] theorem State.setCsr_replies (s : State) (c : Csr) (v : Word) :
    (s.setCsr c v).replies = s.replies := by
  cases c <;> rfl

/-! The choices of a walk, and the entries it adds. -/

@[simp] theorem State.afterChoice_regs (s : State) : (s.afterChoice).regs = s.regs := by
  unfold State.afterChoice; split <;> rfl
@[simp] theorem State.afterChoice_pc (s : State) : (s.afterChoice).pc = s.pc := by
  unfold State.afterChoice; split <;> rfl
@[simp] theorem State.afterChoice_mode (s : State) : (s.afterChoice).mode = s.mode := by
  unfold State.afterChoice; split <;> rfl
@[simp] theorem State.afterChoice_mstatus (s : State) : (s.afterChoice).mstatus = s.mstatus := by
  unfold State.afterChoice; split <;> rfl
@[simp] theorem State.afterChoice_satp (s : State) : (s.afterChoice).satp = s.satp := by
  unfold State.afterChoice; split <;> rfl
@[simp] theorem State.afterChoice_medeleg (s : State) : (s.afterChoice).medeleg = s.medeleg := by
  unfold State.afterChoice; split <;> rfl
@[simp] theorem State.afterChoice_stvec (s : State) : (s.afterChoice).stvec = s.stvec := by
  unfold State.afterChoice; split <;> rfl
@[simp] theorem State.afterChoice_sepc (s : State) : (s.afterChoice).sepc = s.sepc := by
  unfold State.afterChoice; split <;> rfl
@[simp] theorem State.afterChoice_scause (s : State) : (s.afterChoice).scause = s.scause := by
  unfold State.afterChoice; split <;> rfl
@[simp] theorem State.afterChoice_stval (s : State) : (s.afterChoice).stval = s.stval := by
  unfold State.afterChoice; split <;> rfl
@[simp] theorem State.afterChoice_mtvec (s : State) : (s.afterChoice).mtvec = s.mtvec := by
  unfold State.afterChoice; split <;> rfl
@[simp] theorem State.afterChoice_mepc (s : State) : (s.afterChoice).mepc = s.mepc := by
  unfold State.afterChoice; split <;> rfl
@[simp] theorem State.afterChoice_mcause (s : State) : (s.afterChoice).mcause = s.mcause := by
  unfold State.afterChoice; split <;> rfl
@[simp] theorem State.afterChoice_mtval (s : State) : (s.afterChoice).mtval = s.mtval := by
  unfold State.afterChoice; split <;> rfl
@[simp] theorem State.afterChoice_reservation (s : State) : (s.afterChoice).reservation = s.reservation := by
  unfold State.afterChoice; split <;> rfl
@[simp] theorem State.afterChoice_mem (s : State) : (s.afterChoice).mem = s.mem := by
  unfold State.afterChoice; split <;> rfl
@[simp] theorem State.afterChoice_phys (s : State) : (s.afterChoice).phys = s.phys := by
  unfold State.afterChoice; split <;> rfl
@[simp] theorem State.afterChoice_cfg (s : State) : (s.afterChoice).cfg = s.cfg := by
  unfold State.afterChoice; split <;> rfl
@[simp] theorem State.afterChoice_atc (s : State) : (s.afterChoice).atc = s.atc := by
  unfold State.afterChoice; split <;> rfl
@[simp] theorem State.afterChoice_spec (s : State) : (s.afterChoice).spec = s.spec := by
  unfold State.afterChoice; split <;> rfl
@[simp] theorem State.afterChoice_access (s : State) : (s.afterChoice).access = s.access := by
  unfold State.afterChoice; split <;> rfl
@[simp] theorem State.afterChoice_ops (s : State) : (s.afterChoice).ops = s.ops := by
  unfold State.afterChoice; split <;> rfl
@[simp] theorem State.afterChoice_env (s : State) : (s.afterChoice).env = s.env := by
  unfold State.afterChoice; split <;> rfl
@[simp] theorem State.afterChoice_replies (s : State) : (s.afterChoice).replies = s.replies := by
  unfold State.afterChoice; split <;> rfl
@[simp] theorem Walk.fill_regs (s : State) (w : Walk) (b : Bool) (e : AtcEntry) :
    (w.fill s b e).regs = s.regs := by
  unfold Walk.fill; split <;> rfl
@[simp] theorem Walk.fill_pc (s : State) (w : Walk) (b : Bool) (e : AtcEntry) : (w.fill s b e).pc = s.pc := by
  unfold Walk.fill; split <;> rfl
@[simp] theorem Walk.fill_mode (s : State) (w : Walk) (b : Bool) (e : AtcEntry) :
    (w.fill s b e).mode = s.mode := by
  unfold Walk.fill; split <;> rfl
@[simp] theorem Walk.fill_mstatus (s : State) (w : Walk) (b : Bool) (e : AtcEntry) :
    (w.fill s b e).mstatus = s.mstatus := by
  unfold Walk.fill; split <;> rfl
@[simp] theorem Walk.fill_satp (s : State) (w : Walk) (b : Bool) (e : AtcEntry) :
    (w.fill s b e).satp = s.satp := by
  unfold Walk.fill; split <;> rfl
@[simp] theorem Walk.fill_medeleg (s : State) (w : Walk) (b : Bool) (e : AtcEntry) :
    (w.fill s b e).medeleg = s.medeleg := by
  unfold Walk.fill; split <;> rfl
@[simp] theorem Walk.fill_stvec (s : State) (w : Walk) (b : Bool) (e : AtcEntry) :
    (w.fill s b e).stvec = s.stvec := by
  unfold Walk.fill; split <;> rfl
@[simp] theorem Walk.fill_sepc (s : State) (w : Walk) (b : Bool) (e : AtcEntry) :
    (w.fill s b e).sepc = s.sepc := by
  unfold Walk.fill; split <;> rfl
@[simp] theorem Walk.fill_scause (s : State) (w : Walk) (b : Bool) (e : AtcEntry) :
    (w.fill s b e).scause = s.scause := by
  unfold Walk.fill; split <;> rfl
@[simp] theorem Walk.fill_stval (s : State) (w : Walk) (b : Bool) (e : AtcEntry) :
    (w.fill s b e).stval = s.stval := by
  unfold Walk.fill; split <;> rfl
@[simp] theorem Walk.fill_mtvec (s : State) (w : Walk) (b : Bool) (e : AtcEntry) :
    (w.fill s b e).mtvec = s.mtvec := by
  unfold Walk.fill; split <;> rfl
@[simp] theorem Walk.fill_mepc (s : State) (w : Walk) (b : Bool) (e : AtcEntry) :
    (w.fill s b e).mepc = s.mepc := by
  unfold Walk.fill; split <;> rfl
@[simp] theorem Walk.fill_mcause (s : State) (w : Walk) (b : Bool) (e : AtcEntry) :
    (w.fill s b e).mcause = s.mcause := by
  unfold Walk.fill; split <;> rfl
@[simp] theorem Walk.fill_mtval (s : State) (w : Walk) (b : Bool) (e : AtcEntry) :
    (w.fill s b e).mtval = s.mtval := by
  unfold Walk.fill; split <;> rfl
@[simp] theorem Walk.fill_reservation (s : State) (w : Walk) (b : Bool) (e : AtcEntry) :
    (w.fill s b e).reservation = s.reservation := by
  unfold Walk.fill; split <;> rfl
@[simp] theorem Walk.fill_mem (s : State) (w : Walk) (b : Bool) (e : AtcEntry) :
    (w.fill s b e).mem = s.mem := by
  unfold Walk.fill; split <;> rfl
@[simp] theorem Walk.fill_phys (s : State) (w : Walk) (b : Bool) (e : AtcEntry) :
    (w.fill s b e).phys = s.phys := by
  unfold Walk.fill; split <;> rfl
@[simp] theorem Walk.fill_cfg (s : State) (w : Walk) (b : Bool) (e : AtcEntry) :
    (w.fill s b e).cfg = s.cfg := by
  unfold Walk.fill; split <;> rfl
@[simp] theorem Walk.fill_spec (s : State) (w : Walk) (b : Bool) (e : AtcEntry) :
    (w.fill s b e).spec = s.spec := by
  unfold Walk.fill; split <;> rfl
@[simp] theorem Walk.fill_access (s : State) (w : Walk) (b : Bool) (e : AtcEntry) :
    (w.fill s b e).access = s.access := by
  unfold Walk.fill; split <;> rfl
@[simp] theorem Walk.fill_ops (s : State) (w : Walk) (b : Bool) (e : AtcEntry) :
    (w.fill s b e).ops = s.ops := by
  unfold Walk.fill; split <;> rfl
@[simp] theorem Walk.fill_env (s : State) (w : Walk) (b : Bool) (e : AtcEntry) :
    (w.fill s b e).env = s.env := by
  unfold Walk.fill; split <;> rfl
@[simp] theorem Walk.fill_script (s : State) (w : Walk) (b : Bool) (e : AtcEntry) :
    (w.fill s b e).script = s.script := by
  unfold Walk.fill; split <;> rfl
@[simp] theorem Walk.fill_draws (s : State) (w : Walk) (b : Bool) (e : AtcEntry) :
    (w.fill s b e).draws = s.draws := by
  unfold Walk.fill; split <;> rfl
@[simp] theorem Walk.fill_replies (s : State) (w : Walk) (b : Bool) (e : AtcEntry) :
    (w.fill s b e).replies = s.replies := by
  unfold Walk.fill; split <;> rfl

/-! An explicit access given up. -/

@[simp] theorem State.abandonAccess_regs (s : State) : (s.abandonAccess).regs = s.regs := by
  unfold State.abandonAccess; split <;> rfl
@[simp] theorem State.abandonAccess_pc (s : State) : (s.abandonAccess).pc = s.pc := by
  unfold State.abandonAccess; split <;> rfl
@[simp] theorem State.abandonAccess_mode (s : State) : (s.abandonAccess).mode = s.mode := by
  unfold State.abandonAccess; split <;> rfl
@[simp] theorem State.abandonAccess_mstatus (s : State) : (s.abandonAccess).mstatus = s.mstatus := by
  unfold State.abandonAccess; split <;> rfl
@[simp] theorem State.abandonAccess_satp (s : State) : (s.abandonAccess).satp = s.satp := by
  unfold State.abandonAccess; split <;> rfl
@[simp] theorem State.abandonAccess_medeleg (s : State) : (s.abandonAccess).medeleg = s.medeleg := by
  unfold State.abandonAccess; split <;> rfl
@[simp] theorem State.abandonAccess_stvec (s : State) : (s.abandonAccess).stvec = s.stvec := by
  unfold State.abandonAccess; split <;> rfl
@[simp] theorem State.abandonAccess_sepc (s : State) : (s.abandonAccess).sepc = s.sepc := by
  unfold State.abandonAccess; split <;> rfl
@[simp] theorem State.abandonAccess_scause (s : State) : (s.abandonAccess).scause = s.scause := by
  unfold State.abandonAccess; split <;> rfl
@[simp] theorem State.abandonAccess_stval (s : State) : (s.abandonAccess).stval = s.stval := by
  unfold State.abandonAccess; split <;> rfl
@[simp] theorem State.abandonAccess_mtvec (s : State) : (s.abandonAccess).mtvec = s.mtvec := by
  unfold State.abandonAccess; split <;> rfl
@[simp] theorem State.abandonAccess_mepc (s : State) : (s.abandonAccess).mepc = s.mepc := by
  unfold State.abandonAccess; split <;> rfl
@[simp] theorem State.abandonAccess_mcause (s : State) : (s.abandonAccess).mcause = s.mcause := by
  unfold State.abandonAccess; split <;> rfl
@[simp] theorem State.abandonAccess_mtval (s : State) : (s.abandonAccess).mtval = s.mtval := by
  unfold State.abandonAccess; split <;> rfl
@[simp] theorem State.abandonAccess_reservation (s : State) :
    (s.abandonAccess).reservation = s.reservation := by
  unfold State.abandonAccess; split <;> rfl
@[simp] theorem State.abandonAccess_mem (s : State) : (s.abandonAccess).mem = s.mem := by
  unfold State.abandonAccess; split <;> rfl
@[simp] theorem State.abandonAccess_phys (s : State) : (s.abandonAccess).phys = s.phys := by
  unfold State.abandonAccess; split <;> rfl
@[simp] theorem State.abandonAccess_cfg (s : State) : (s.abandonAccess).cfg = s.cfg := by
  unfold State.abandonAccess; split <;> rfl
@[simp] theorem State.abandonAccess_atc (s : State) : (s.abandonAccess).atc = s.atc := by
  unfold State.abandonAccess; split <;> rfl
@[simp] theorem State.abandonAccess_spec (s : State) : (s.abandonAccess).spec = s.spec := by
  unfold State.abandonAccess; split <;> rfl
@[simp] theorem State.abandonAccess_env (s : State) : (s.abandonAccess).env = s.env := by
  unfold State.abandonAccess; split <;> rfl
@[simp] theorem State.abandonAccess_script (s : State) : (s.abandonAccess).script = s.script := by
  unfold State.abandonAccess; split <;> rfl
@[simp] theorem State.abandonAccess_draws (s : State) : (s.abandonAccess).draws = s.draws := by
  unfold State.abandonAccess; split <;> rfl
@[simp] theorem State.abandonAccess_replies (s : State) : (s.abandonAccess).replies = s.replies := by
  unfold State.abandonAccess; split <;> rfl
@[simp] theorem State.abandonAccess_access (s : State) : s.abandonAccess.access = none := by
  unfold State.abandonAccess
  split
  · assumption
  · rfl

/-- Nothing is given up where no access is in progress; otherwise what it was made for is to be done next. -/
theorem State.abandonAccess_of_none {s : State} (h : s.access = none) : s.abandonAccess = s := by
  unfold State.abandonAccess
  rw [h]

theorem State.abandonAccess_of_some {s : State} {a : Access} (h : s.access = some a) :
    s.abandonAccess = { s with access := none, ops := a.goal.op :: s.ops } := by
  unfold State.abandonAccess
  rw [h]

/-! The fence. -/

@[simp] theorem State.fence_regs (s : State) (a : AddrSel) (i : AsidSel) : (s.fence a i).regs = s.regs := by
  simp [State.fence]
@[simp] theorem State.fence_pc (s : State) (a : AddrSel) (i : AsidSel) : (s.fence a i).pc = s.pc := by
  simp [State.fence]
@[simp] theorem State.fence_mode (s : State) (a : AddrSel) (i : AsidSel) : (s.fence a i).mode = s.mode := by
  simp [State.fence]
@[simp] theorem State.fence_mstatus (s : State) (a : AddrSel) (i : AsidSel) :
    (s.fence a i).mstatus = s.mstatus := by
  simp [State.fence]
@[simp] theorem State.fence_satp (s : State) (a : AddrSel) (i : AsidSel) : (s.fence a i).satp = s.satp := by
  simp [State.fence]
@[simp] theorem State.fence_medeleg (s : State) (a : AddrSel) (i : AsidSel) :
    (s.fence a i).medeleg = s.medeleg := by
  simp [State.fence]
@[simp] theorem State.fence_stvec (s : State) (a : AddrSel) (i : AsidSel) :
    (s.fence a i).stvec = s.stvec := by
  simp [State.fence]
@[simp] theorem State.fence_sepc (s : State) (a : AddrSel) (i : AsidSel) : (s.fence a i).sepc = s.sepc := by
  simp [State.fence]
@[simp] theorem State.fence_scause (s : State) (a : AddrSel) (i : AsidSel) :
    (s.fence a i).scause = s.scause := by
  simp [State.fence]
@[simp] theorem State.fence_stval (s : State) (a : AddrSel) (i : AsidSel) :
    (s.fence a i).stval = s.stval := by
  simp [State.fence]
@[simp] theorem State.fence_mtvec (s : State) (a : AddrSel) (i : AsidSel) :
    (s.fence a i).mtvec = s.mtvec := by
  simp [State.fence]
@[simp] theorem State.fence_mepc (s : State) (a : AddrSel) (i : AsidSel) : (s.fence a i).mepc = s.mepc := by
  simp [State.fence]
@[simp] theorem State.fence_mcause (s : State) (a : AddrSel) (i : AsidSel) :
    (s.fence a i).mcause = s.mcause := by
  simp [State.fence]
@[simp] theorem State.fence_mtval (s : State) (a : AddrSel) (i : AsidSel) :
    (s.fence a i).mtval = s.mtval := by
  simp [State.fence]
@[simp] theorem State.fence_reservation (s : State) (a : AddrSel) (i : AsidSel) :
    (s.fence a i).reservation = s.reservation := by
  simp [State.fence]
@[simp] theorem State.fence_mem (s : State) (a : AddrSel) (i : AsidSel) : (s.fence a i).mem = s.mem := by
  simp [State.fence]
@[simp] theorem State.fence_phys (s : State) (a : AddrSel) (i : AsidSel) : (s.fence a i).phys = s.phys := by
  simp [State.fence]
@[simp] theorem State.fence_cfg (s : State) (a : AddrSel) (i : AsidSel) : (s.fence a i).cfg = s.cfg := by
  simp [State.fence]
@[simp] theorem State.fence_env (s : State) (a : AddrSel) (i : AsidSel) : (s.fence a i).env = s.env := by
  simp [State.fence]
@[simp] theorem State.fence_script (s : State) (a : AddrSel) (i : AsidSel) :
    (s.fence a i).script = s.script := by
  simp [State.fence]
@[simp] theorem State.fence_draws (s : State) (a : AddrSel) (i : AsidSel) :
    (s.fence a i).draws = s.draws := by
  simp [State.fence]
@[simp] theorem State.fence_replies (s : State) (a : AddrSel) (i : AsidSel) :
    (s.fence a i).replies = s.replies := by
  simp [State.fence]
@[simp] theorem State.fence_access (s : State) (a : AddrSel) (i : AsidSel) : (s.fence a i).access = none := by
  simp [State.fence]
@[simp] theorem State.fence_ops (s : State) (a : AddrSel) (i : AsidSel) :
    (s.fence a i).ops = s.abandonAccess.ops := rfl
@[simp] theorem State.fence_atc (s : State) (a : AddrSel) (i : AsidSel) :
    (s.fence a i).atc = s.atc.filter fun e => !covered s.cfg a i e := rfl
@[simp] theorem State.fence_spec (s : State) (a : AddrSel) (i : AsidSel) :
    (s.fence a i).spec = [] := rfl

/-! Stores of explicit accesses. -/

@[simp] theorem State.storeAt_regs (s : State) (ps : List PhysPiece) (n : Nat) (v : Datum) :
    (s.storeAt ps n v).regs = s.regs := rfl
@[simp] theorem State.storeAt_pc (s : State) (ps : List PhysPiece) (n : Nat) (v : Datum) :
    (s.storeAt ps n v).pc = s.pc := rfl
@[simp] theorem State.storeAt_mode (s : State) (ps : List PhysPiece) (n : Nat) (v : Datum) :
    (s.storeAt ps n v).mode = s.mode := rfl
@[simp] theorem State.storeAt_mstatus (s : State) (ps : List PhysPiece) (n : Nat) (v : Datum) :
    (s.storeAt ps n v).mstatus = s.mstatus := rfl
@[simp] theorem State.storeAt_satp (s : State) (ps : List PhysPiece) (n : Nat) (v : Datum) :
    (s.storeAt ps n v).satp = s.satp := rfl
@[simp] theorem State.storeAt_medeleg (s : State) (ps : List PhysPiece) (n : Nat) (v : Datum) :
    (s.storeAt ps n v).medeleg = s.medeleg := rfl
@[simp] theorem State.storeAt_stvec (s : State) (ps : List PhysPiece) (n : Nat) (v : Datum) :
    (s.storeAt ps n v).stvec = s.stvec := rfl
@[simp] theorem State.storeAt_sepc (s : State) (ps : List PhysPiece) (n : Nat) (v : Datum) :
    (s.storeAt ps n v).sepc = s.sepc := rfl
@[simp] theorem State.storeAt_scause (s : State) (ps : List PhysPiece) (n : Nat) (v : Datum) :
    (s.storeAt ps n v).scause = s.scause := rfl
@[simp] theorem State.storeAt_stval (s : State) (ps : List PhysPiece) (n : Nat) (v : Datum) :
    (s.storeAt ps n v).stval = s.stval := rfl
@[simp] theorem State.storeAt_mtvec (s : State) (ps : List PhysPiece) (n : Nat) (v : Datum) :
    (s.storeAt ps n v).mtvec = s.mtvec := rfl
@[simp] theorem State.storeAt_mepc (s : State) (ps : List PhysPiece) (n : Nat) (v : Datum) :
    (s.storeAt ps n v).mepc = s.mepc := rfl
@[simp] theorem State.storeAt_mcause (s : State) (ps : List PhysPiece) (n : Nat) (v : Datum) :
    (s.storeAt ps n v).mcause = s.mcause := rfl
@[simp] theorem State.storeAt_mtval (s : State) (ps : List PhysPiece) (n : Nat) (v : Datum) :
    (s.storeAt ps n v).mtval = s.mtval := rfl
@[simp] theorem State.storeAt_reservation (s : State) (ps : List PhysPiece) (n : Nat) (v : Datum) :
    (s.storeAt ps n v).reservation = s.reservation := rfl
@[simp] theorem State.storeAt_mem (s : State) (ps : List PhysPiece) (n : Nat) (v : Datum) : (s.storeAt ps n v).mem = 
    s.mem.writeAll ((pieceAddrs ps).zip (datumBytes v n)) := rfl
@[simp] theorem State.storeAt_phys (s : State) (ps : List PhysPiece) (n : Nat) (v : Datum) :
    (s.storeAt ps n v).phys = s.phys := rfl
@[simp] theorem State.storeAt_cfg (s : State) (ps : List PhysPiece) (n : Nat) (v : Datum) :
    (s.storeAt ps n v).cfg = s.cfg := rfl
@[simp] theorem State.storeAt_atc (s : State) (ps : List PhysPiece) (n : Nat) (v : Datum) :
    (s.storeAt ps n v).atc = s.atc := rfl
@[simp] theorem State.storeAt_spec (s : State) (ps : List PhysPiece) (n : Nat) (v : Datum) :
    (s.storeAt ps n v).spec = s.spec := rfl
@[simp] theorem State.storeAt_access (s : State) (ps : List PhysPiece) (n : Nat) (v : Datum) :
    (s.storeAt ps n v).access = s.access := rfl
@[simp] theorem State.storeAt_ops (s : State) (ps : List PhysPiece) (n : Nat) (v : Datum) :
    (s.storeAt ps n v).ops = s.ops := rfl
@[simp] theorem State.storeAt_env (s : State) (ps : List PhysPiece) (n : Nat) (v : Datum) :
    (s.storeAt ps n v).env = s.env := rfl
@[simp] theorem State.storeAt_script (s : State) (ps : List PhysPiece) (n : Nat) (v : Datum) :
    (s.storeAt ps n v).script = s.script := rfl
@[simp] theorem State.storeAt_draws (s : State) (ps : List PhysPiece) (n : Nat) (v : Datum) :
    (s.storeAt ps n v).draws = s.draws := rfl
@[simp] theorem State.storeAt_replies (s : State) (ps : List PhysPiece) (n : Nat) (v : Datum) :
    (s.storeAt ps n v).replies = s.replies := rfl

end Sys2Proof.Machine
end

