-- ==== Sys2Proof/Laws/Walker.lean ====
section
/-! SUPPORT. What one memory event of a walk can do, said once: the cases of steps 3 to 8, of a step-2 read
and of step 7's compare-and-write, and the state each of them leaves. -/

namespace Sys2Proof.Machine

theorem needsAD_iff (pte : Word) (acc : Acc) :
    needsAD pte acc = true ↔ pteA pte = false ∨ (acc = .store ∧ pteD pte = false) := by
  simp [needsAD]

/-- Step 7 leaves nothing to do: the value it writes has A set and, for a store, D set (R88). -/
theorem needsAD_pteWithAD (pte : Word) (acc : Acc) : needsAD (pteWithAD pte acc) acc = false := by
  simp only [needsAD, pteA, pteD, getLsbD_pteWithAD]
  cases acc <;> simp

/-- The cases of steps 3 to 8 on the PTE a read returned (R84 to R89). -/
theorem Walk.judge_cases (w : Walk) (s : State) (e : AtcEntry) :
    w.judge s e = .raise (w.exn .pageFault) ∨
    (w.level = .l1 ∧ pteIsPointer s.cfg e.pte = true ∧
      w.judge s e = .more { w with
        table := ptePpn e.pte
        level := .l0
        globalAbove := w.globalAbove || pteG e.pte
        memOnly := false
        held := e :: w.held }) ∨
    (pteReserved s.cfg e.pte = false ∧ pteIsLeaf e.pte = true ∧
      leafPermits e.pte w.acc w.priv (msSum s.mstatus) (msMxr s.mstatus) = true ∧
      (w.level = .l1 → ptePpn0 e.pte = 0#10) ∧
      ((needsAD e.pte w.acc = true ∧ w.adStops s.cfg e.pte = false ∧
          w.judge s e = .more { w with memOnly := false, held := e :: w.held, leaf := some e.pte }) ∨
        (needsAD e.pte w.acc = false ∧ w.judge s e = .done (leafAddr e.pte w.va w.level)))) := by
  unfold Walk.judge
  by_cases hres : pteReserved s.cfg e.pte = true
  · left; simp [hres]
  have hres' : pteReserved s.cfg e.pte = false := by simpa using hres
  by_cases hleaf : pteIsLeaf e.pte = true
  · by_cases hp : leafPermits e.pte w.acc w.priv (msSum s.mstatus) (msMxr s.mstatus) = true
    · by_cases hm : w.level = .l1 ∧ ptePpn0 e.pte ≠ 0#10
      · left; simp [hres', hleaf, hp, hm.1, hm.2]
      · have hm' : (decide (w.level = .l1) && decide (ptePpn0 e.pte ≠ 0#10)) = false := by
          simpa [not_and] using hm
        have hal : w.level = .l1 → ptePpn0 e.pte = 0#10 := fun h => by
          by_contra hne; exact hm ⟨h, hne⟩
        cases hn : needsAD e.pte w.acc with
        | false =>
          refine .inr (.inr ⟨hres', hleaf, hp, hal, .inr ⟨rfl, ?_⟩⟩)
          simp only [hres', hleaf, hp, hm', Bool.not_true, Bool.false_eq_true, if_false]
        | true =>
          cases ha : w.adStops s.cfg e.pte with
          | false =>
            refine .inr (.inr ⟨hres', hleaf, hp, hal, .inl ⟨rfl, rfl, ?_⟩⟩)
            simp only [hres', hleaf, hp, hm', Bool.not_true, Bool.false_eq_true, if_false, if_true]
          | true =>
            left
            simp only [hres', hleaf, hp, hm', Bool.not_true, Bool.false_eq_true, if_false, if_true]
    · left; simp [hres', hleaf, hp]
  · have hleaf' : pteIsLeaf e.pte = false := by simpa using hleaf
    cases hl : w.level with
    | l0 => left; simp [hres', hleaf']
    | l1 => right; left; simp [hres', hleaf', pteIsPointer]

/-- A walk's fault is a page-fault when the PTE it read is at fault (R84 to R88). -/
theorem Walk.judge_raise {w : Walk} {s : State} {e : AtcEntry} {x : Exn} (h : w.judge s e = .raise x) :
    x = w.exn .pageFault := by
  rcases w.judge_cases s e with hj | ⟨_, _, hj⟩ | ⟨_, _, _, _, ⟨_, _, hj⟩ | ⟨_, hj⟩⟩ <;>
    rw [hj] at h <;> cases h
  rfl

/-- The cases of a step-2 read (R82, R95). -/
theorem Walk.readStep_cases (w : Walk) (s : State) :
    (s.physOk w.pteAddr 4 .load true w.priv = false ∧
      w.readStep s = (.raise (w.exn .accessFault), s)) ∨
    (s.physOk w.pteAddr 4 .load true w.priv = true ∧
      ((∃ e, w.cached s s.nextChoice.pick = some e ∧ w.readStep s = (w.judge s e, s.afterChoice)) ∨
       (w.cached s s.nextChoice.pick = none ∧
         ((s.mem.pteRead w.speculative w.pteAddr = none ∧ w.readStep s = (.unwritten, s)) ∨
          (∃ pte, s.mem.pteRead w.speculative w.pteAddr = some pte ∧
            w.readStep s =
              (w.judge s (w.record pte),
                w.fill s.afterChoice s.nextChoice.fill (w.record pte))))))) := by
  unfold Walk.readStep
  cases hp : s.physOk w.pteAddr 4 .load true w.priv with
  | false => left; simp
  | true =>
    right
    refine ⟨rfl, ?_⟩
    cases hc : w.cached s s.nextChoice.pick with
    | some e => left; exact ⟨e, rfl, by simp⟩
    | none =>
      right
      refine ⟨rfl, ?_⟩
      cases hr : s.mem.pteRead w.speculative w.pteAddr with
      | none => left; simp
      | some pte => right; exact ⟨pte, rfl, by simp⟩

/-- The cases of step 7's compare-and-write (R88, R30). -/
theorem Walk.updateStep_cases (w : Walk) (s : State) (pte : Word) :
    (s.physOk w.pteAddr 4 .store true w.priv = false ∧
      w.updateStep s pte = (.raise (w.exn .accessFault), s)) ∨
    (s.physOk w.pteAddr 4 .store true w.priv = true ∧
      ((s.mem.pteRead w.speculative w.pteAddr = none ∧ w.updateStep s pte = (.unwritten, s)) ∨
       (s.mem.pteRead w.speculative w.pteAddr = some pte ∧
         w.updateStep s pte =
           (.done (leafAddr pte w.va w.level),
             w.fill (s.afterChoice.setMem (s.mem.writeWord w.pteAddr (pteWithAD pte w.acc)))
               s.nextChoice.fill (w.record (pteWithAD pte w.acc)))) ∨
       (∃ other, s.mem.pteRead w.speculative w.pteAddr = some other ∧ other ≠ pte ∧
         w.updateStep s pte =
           (.more { w with memOnly := true, held := w.held.tail, leaf := none }, s)))) := by
  unfold Walk.updateStep
  cases hp : s.physOk w.pteAddr 4 .store true w.priv with
  | false => left; simp
  | true =>
    right
    refine ⟨rfl, ?_⟩
    rcases s.mem.cas_cases w.speculative w.pteAddr pte (pteWithAD pte w.acc) with
      ⟨hr, hc⟩ | ⟨hr, hc⟩ | ⟨other, hr, hne, hc⟩
    · left; simp [hr, hc]
    · right; left; simp [hr, hc]
    · right; right; exact ⟨other, hr, hne, by simp [hc]⟩

/-- An entry of the cache after a walk may have added one (R94, R99). -/
theorem Walk.mem_fill_atc {w : Walk} {s : State} {b : Bool} {e x : AtcEntry}
    (h : x ∈ (w.fill s b e).atc) :
    x ∈ s.atc ∨ (x = e ∧ (w.leafFill = true ∨ pteIsPointer s.cfg e.pte = true)) := by
  unfold Walk.fill at h
  split at h
  · next hf => simp_all [or_comm]
  · exact .inl h

/-- The choices of a walk come from the script while it lasts, and are counted after that. -/
theorem State.afterChoice_cases (s : State) :
    (s.script = [] ∧ s.afterChoice.script = [] ∧ s.afterChoice.draws = s.draws + 1) ∨
    (∃ c, s.script = c :: s.afterChoice.script ∧ s.afterChoice.draws = s.draws) := by
  unfold State.afterChoice
  cases s.script with
  | nil => left; simp
  | cons c cs => right; exact ⟨c, rfl, rfl⟩

/-- What a state has in common with another once the fields a walk may write are set apart (R17). -/
def SameButWalk (s t : State) : Prop :=
  t = { s with mem := t.mem, atc := t.atc, script := t.script, draws := t.draws }

theorem SameButWalk.refl (s : State) : SameButWalk s s := rfl

theorem sameButWalk_afterChoice (s : State) : SameButWalk s s.afterChoice := by
  unfold SameButWalk State.afterChoice
  split <;> rfl

theorem sameButWalk_fill (w : Walk) (s : State) (b : Bool) (e : AtcEntry) : SameButWalk s (w.fill s b e) := by
  unfold SameButWalk Walk.fill
  split <;> rfl

theorem SameButWalk.trans {s t u : State} (h : SameButWalk s t) (k : SameButWalk t u) : SameButWalk s u := by
  unfold SameButWalk at *
  rw [k, h]

theorem sameButWalk_setMem (s : State) (m : Memory) : SameButWalk s (s.setMem m) := rfl

/-- A memory event of a walk writes no state but memory, the cache and the record of choices (R17). -/
theorem Walk.step_same (w : Walk) (s : State) : SameButWalk s (w.step s).2 := by
  unfold Walk.step
  split
  · rcases w.readStep_cases s with ⟨_, h⟩ | ⟨_, ⟨e, _, h⟩ | ⟨_, ⟨_, h⟩ | ⟨pte, _, h⟩⟩⟩ <;> rw [h]
    · exact .refl s
    · exact sameButWalk_afterChoice s
    · exact .refl s
    · exact (sameButWalk_afterChoice s).trans (sameButWalk_fill ..)
  · next pte _ =>
    rcases w.updateStep_cases s pte with ⟨_, h⟩ | ⟨_, ⟨_, h⟩ | ⟨_, h⟩ | ⟨_, _, _, h⟩⟩ <;> rw [h]
    · exact .refl s
    · exact .refl s
    · exact ((sameButWalk_afterChoice s).trans (sameButWalk_setMem ..)).trans (sameButWalk_fill ..)
    · exact .refl s

/-- A memory event of a walk leaves memory alone, or is the compare-and-write of a leaf that memory still
holds (R30, R88). -/
theorem Walk.step_mem (w : Walk) (s : State) :
    (w.step s).2.mem = s.mem ∨
    ∃ pte, w.leaf = some pte ∧ s.physOk w.pteAddr 4 .store true w.priv = true ∧
      s.mem.pteRead w.speculative w.pteAddr = some pte ∧
      (w.step s).2.mem = s.mem.writeWord w.pteAddr (pteWithAD pte w.acc) ∧
      (w.step s).1 = .done (leafAddr pte w.va w.level) := by
  unfold Walk.step
  split
  · left
    rcases w.readStep_cases s with ⟨_, h⟩ | ⟨_, ⟨e, _, h⟩ | ⟨_, ⟨_, h⟩ | ⟨pte, _, h⟩⟩⟩ <;> simp [h]
  · next pte hl =>
    rcases w.updateStep_cases s pte with ⟨_, h⟩ | ⟨hp, ⟨_, h⟩ | ⟨hr, h⟩ | ⟨_, _, _, h⟩⟩
    · left; simp [h]
    · left; simp [h]
    · right; exact ⟨pte, hl, hp, hr, by simp [h], by simp [h]⟩
    · left; simp [h]

/-- Every exception of a walk is of the original access's type and reports its address (R120, R124). -/
theorem Walk.step_raise {w : Walk} {s s' : State} {x : Exn} (h : w.step s = (.raise x, s')) :
    ∃ k, x = w.exn k := by
  unfold Walk.step at h
  split at h
  · rcases w.readStep_cases s with ⟨_, h'⟩ | ⟨_, ⟨e, _, h'⟩ | ⟨_, ⟨_, h'⟩ | ⟨pte, _, h'⟩⟩⟩ <;>
      rw [h'] at h <;> simp only [Prod.mk.injEq] at h
    · exact ⟨_, by cases h.1; rfl⟩
    · exact ⟨_, Walk.judge_raise h.1⟩
    · cases h.1
    · exact ⟨_, Walk.judge_raise h.1⟩
  · next pte hl =>
    rcases w.updateStep_cases s pte with ⟨_, h'⟩ | ⟨_, ⟨_, h'⟩ | ⟨_, h'⟩ | ⟨_, _, _, h'⟩⟩ <;>
      rw [h'] at h <;> simp only [Prod.mk.injEq] at h
    · exact ⟨_, by cases h.1; rfl⟩
    · cases h.1
    · cases h.1
    · cases h.1

/-- Going on, a walk keeps its address, its access type, its mode, its ASID and what kind of walk it is. -/
theorem Walk.step_more {w w' : Walk} {s s' : State} (h : w.step s = (.more w', s')) :
    w'.va = w.va ∧ w'.acc = w.acc ∧ w'.priv = w.priv ∧ w'.speculative = w.speculative ∧ w'.asid = w.asid := by
  have key : ∀ e, w.judge s e = .more w' →
      w'.va = w.va ∧ w'.acc = w.acc ∧ w'.priv = w.priv ∧ w'.speculative = w.speculative ∧
        w'.asid = w.asid := by
    intro e he
    rcases w.judge_cases s e with hj | ⟨_, _, hj⟩ | ⟨_, _, _, _, ⟨_, _, hj⟩ | ⟨_, hj⟩⟩ <;>
      rw [hj] at he <;> cases he <;> simp
  unfold Walk.step at h
  split at h
  · rcases w.readStep_cases s with ⟨_, h'⟩ | ⟨_, ⟨e, _, h'⟩ | ⟨_, ⟨_, h'⟩ | ⟨pte, _, h'⟩⟩⟩ <;>
      rw [h'] at h <;> simp only [Prod.mk.injEq] at h
    · cases h.1
    · exact key _ h.1
    · cases h.1
    · exact key _ h.1
  · next pte hl =>
    rcases w.updateStep_cases s pte with ⟨_, h'⟩ | ⟨_, ⟨_, h'⟩ | ⟨_, h'⟩ | ⟨_, _, _, h'⟩⟩ <;>
      rw [h'] at h <;> simp only [Prod.mk.injEq] at h
    · cases h.1
    · cases h.1
    · cases h.1
    · cases h.1; simp

/-- Going on, a walk that may add no leaf entry still may not (R99). -/
theorem Walk.step_more_leafFill {w w' : Walk} {s s' : State} (h : w.step s = (.more w', s')) :
    w'.leafFill = w.leafFill := by
  have key : ∀ e, w.judge s e = .more w' → w'.leafFill = w.leafFill := by
    intro e he
    rcases w.judge_cases s e with hj | ⟨_, _, hj⟩ | ⟨_, _, _, _, ⟨_, _, hj⟩ | ⟨_, hj⟩⟩ <;>
      rw [hj] at he <;> cases he <;> rfl
  unfold Walk.step at h
  split at h
  · rcases w.readStep_cases s with ⟨_, h'⟩ | ⟨_, ⟨e, _, h'⟩ | ⟨_, ⟨_, h'⟩ | ⟨pte, _, h'⟩⟩⟩ <;>
      rw [h'] at h <;> simp only [Prod.mk.injEq] at h
    · cases h.1
    · exact key _ h.1
    · cases h.1
    · exact key _ h.1
  · next pte hl =>
    rcases w.updateStep_cases s pte with ⟨_, h'⟩ | ⟨_, ⟨_, h'⟩ | ⟨_, h'⟩ | ⟨_, _, _, h'⟩⟩ <;>
      rw [h'] at h <;> simp only [Prod.mk.injEq] at h <;> cases h.1
    rfl

/-- What a memory event of a walk adds to the cache: at most the record of the value that memory now holds at
the walk's PTE, and only what the walk may still add (R94, R99). -/
theorem Walk.step_atc {w : Walk} {s : State} {e : AtcEntry} (h : e ∈ (w.step s).2.atc) :
    e ∈ s.atc ∨
    (e = w.record e.pte ∧ (w.leafFill = true ∨ pteIsPointer s.cfg e.pte = true) ∧
      (w.step s).2.mem.wordFree w.pteAddr = e.pte) := by
  unfold Walk.step at h ⊢
  split at h
  · rcases w.readStep_cases s with ⟨_, h'⟩ | ⟨_, ⟨_, _, h'⟩ | ⟨_, ⟨_, h'⟩ | ⟨pte, hr, h'⟩⟩⟩ <;>
      rw [h'] at h ⊢ <;> simp only [State.afterChoice_atc] at h
    · exact .inl h
    · exact .inl h
    · exact .inl h
    · rcases Walk.mem_fill_atc h with k | ⟨rfl, k⟩
      · exact .inl (by simpa using k)
      · exact .inr ⟨rfl, by simpa using k, by simpa [Walk.record] using Memory.wordFree_of_pteRead hr⟩
  · next pte _ =>
    rcases w.updateStep_cases s pte with ⟨_, h'⟩ | ⟨_, ⟨_, h'⟩ | ⟨_, h'⟩ | ⟨_, _, _, h'⟩⟩ <;>
      rw [h'] at h ⊢
    · exact .inl h
    · exact .inl h
    · rcases Walk.mem_fill_atc h with k | ⟨rfl, k⟩
      · exact .inl (by simpa using k)
      · exact .inr ⟨rfl, by simpa using k,
          by simpa [Walk.record] using Memory.wordFree_of_word (Memory.word_writeWord_same ..)⟩
    · exact .inl h

/-- The entry that answers a read is in the cache and matches (R95). -/
theorem Walk.cached_mem {w : Walk} {s : State} {pick : Option Nat} {e : AtcEntry}
    (h : w.cached s pick = some e) : e ∈ s.atc ∧ w.matchesEntry e = true := by
  unfold Walk.cached at h
  split at h
  · cases h
  · split at h
    · cases h
    · simpa using List.mem_of_getElem? h

end Sys2Proof.Machine
end

