-- ==== Sys2Proof/Laws/Explicit.lean ====
section
/-! SUPPORT. What an explicit access can do, said once: the faults, the access itself, the untranslated path,
the pieces; and that placing an instruction keeps memory canonical. -/

namespace Sys2Proof.Machine

@[simp] theorem reset_mem_wf : State.reset.mem.wf = true := rfl

theorem placeWord_mem_wf {s : State} (h : s.mem.wf = true) (w : Word) : (s.placeWord w).mem.wf = true :=
  Memory.wf_writePieces h _ _

/-- An exception ends an explicit access in a next state, that of the trap (R127). -/
theorem failAccess_cases (s : State) (g : Goal) (e : Exn) :
    (∃ pc, g = .instr pc ∧ failAccess s g e = .out (.next (s.takeExn e))) ∨
    (∃ r, g = .request r ∧ failAccess s g e = .out (.next ((s.reply (.faulted e)).takeExn e))) := by
  cases g with
  | instr pc => exact .inl ⟨pc, rfl, rfl⟩
  | request r => exact .inr ⟨r, rfl, rfl⟩

/-- What two states have in common once the fields an explicit access may write are set apart. -/
def SameButData (s t : State) : Prop :=
  t = { s with mem := t.mem, reservation := t.reservation, replies := t.replies }

/-- A reservation set lies in the base page of its first byte (R16). -/
theorem reservationOf_inOnePage {ps : List PhysPiece} {below above : Nat} {r : Reservation}
    (h : reservationOf ps below above = some r) : r.InOnePage := by
  unfold reservationOf at h
  cases ps with
  | nil => cases h
  | cons p _ =>
    simp only [Option.some.injEq] at h
    subst h
    refine ⟨p.pa.toNat / 4096, ?_⟩
    simp only
    omega

/-- The request reads memory before it does anything else. -/
theorem performRead_cases (s : State) (ps : List PhysPiece) (answer : Datum → State) :
    (s.mem.readAll (pieceAddrs ps) = none ∧
      performRead s ps answer = .out (.fault .unwrittenMemory)) ∨
    (∃ bs, s.mem.readAll (pieceAddrs ps) = some bs ∧
      performRead s ps answer = .out (.next (answer (datumOfBytes bs)))) := by
  unfold performRead
  cases s.mem.readAll (pieceAddrs ps) <;> simp

/-- The accesses of R57 whose performance writes memory, with what they write. -/
def ReqKind.stores : ReqKind → Option Datum
  | .store v => some v
  | .sc v .succeed => some v
  | .amo v => some v
  | _ => none

/-- What a store-conditional does at its translated pieces. -/
theorem State.storeConditional_cases (s : State) (ps : List PhysPiece) (n : Nat) (v : Datum) (b : Bool) :
    (b = true ∧ s.reserves ps = true ∧
      s.storeConditional ps n v b =
        { s.storeAt ps n v with reservation := none }.reply (.scDone ps true)) ∨
    ((b = false ∨ s.reserves ps = false) ∧
      s.storeConditional ps n v b = { s with reservation := none }.reply (.scDone ps false)) := by
  unfold State.storeConditional
  cases b <;> cases s.reserves ps <;> simp

/-- What performing the access of a request can do: it stops on memory nothing has written, or it answers a
state that differs in memory, the reservation and the answers alone, memory being written at the translated
bytes and only by a request that stores, the reservation being kept, given up, or that of a load-reserved. -/
theorem performRequest_cases (s : State) (r : Request) (ps : List PhysPiece) :
    performRequest s r ps = .out (.fault .unwrittenMemory) ∨
    ∃ t, performRequest s r ps = .out (.next t) ∧ SameButData s t ∧
      (t.mem = s.mem ∨
        ∃ v, r.kind.stores = some v ∧
          t.mem = s.mem.writeAll ((pieceAddrs ps).zip (datumBytes v r.size.bytes))) ∧
      (t.reservation = s.reservation ∨ t.reservation = none ∨
        ∃ a b, t.reservation = reservationOf ps a b) ∧
      (∃ x, t.replies = s.replies ++ [x] ∧ ∀ e, x ≠ .faulted e) := by
  unfold performRequest
  cases hk : r.kind with
  | fetch =>
    simp only
    rcases performRead_cases s ps (fun v => s.reply (.fetched ps v)) with ⟨_, h⟩ | ⟨bs, _, h⟩ <;> rw [h]
    · exact .inl rfl
    · exact .inr ⟨_, rfl, rfl, .inl rfl, .inl rfl, _, rfl, nofun⟩
  | load =>
    simp only
    rcases performRead_cases s ps (fun v => s.reply (.loaded ps v)) with ⟨_, h⟩ | ⟨bs, _, h⟩ <;> rw [h]
    · exact .inl rfl
    · exact .inr ⟨_, rfl, rfl, .inl rfl, .inl rfl, _, rfl, nofun⟩
  | lr a b =>
    simp only
    rcases performRead_cases s ps
      (fun v => { s with reservation := reservationOf ps a b }.reply (.loaded ps v)) with
      ⟨_, h⟩ | ⟨bs, _, h⟩ <;> rw [h]
    · exact .inl rfl
    · exact .inr ⟨_, rfl, rfl, .inl rfl, .inr (.inr ⟨a, b, rfl⟩), _, rfl, nofun⟩
  | store v => exact .inr ⟨_, rfl, rfl, .inr ⟨v, rfl, rfl⟩, .inl rfl, _, rfl, nofun⟩
  | sc v plan =>
    rcases s.storeConditional_cases ps r.size.bytes v (decide (plan = .succeed)) with
      ⟨hp, _, h⟩ | ⟨_, h⟩ <;> simp only [h]
    · have hs : plan = .succeed := of_decide_eq_true hp
      subst hs
      exact .inr ⟨_, rfl, rfl, .inr ⟨v, rfl, rfl⟩, .inr (.inl rfl), _, rfl, nofun⟩
    · exact .inr ⟨_, rfl, rfl, .inl rfl, .inr (.inl rfl), _, rfl, nofun⟩
  | amo v =>
    simp only
    rcases performRead_cases s ps
      (fun old => (s.storeAt ps r.size.bytes v).reply (.amoDone ps old)) with ⟨_, h⟩ | ⟨bs, _, h⟩ <;> rw [h]
    · exact .inl rfl
    · exact .inr ⟨_, rfl, rfl, .inr ⟨v, rfl, rfl⟩, .inl rfl, _, rfl, nofun⟩

/-- What performing an explicit access can do. -/
theorem performAccess_cases (s : State) (g : Goal) (ps : List PhysPiece) :
    (∃ r, g = .request r ∧ performAccess s g ps = performRequest s r ps) ∨
    (∃ pc w, g = .instr pc ∧ performAccess s g ps = .fetched w s) ∨
    performAccess s g ps = .out (.fault .unwrittenMemory) := by
  cases g with
  | request r => exact .inl ⟨r, rfl, rfl⟩
  | instr pc =>
    unfold performAccess
    simp only
    split
    · exact .inr (.inl ⟨pc, _, rfl, rfl⟩)
    · exact .inr (.inr rfl)

/-- An untranslated access fails by an access-fault of its own type, at the first piece whose check fails (R122,
R123). -/
theorem checkBare_error {s : State} {acc : Acc} {priv : Mode} :
    ∀ {l : List Piece} {e : Exn}, checkBare s acc priv l = .error e →
      ∃ pre p post, l = pre ++ p :: post ∧ e = ⟨.accessFault, acc, p.va⟩ ∧
        (∀ q ∈ pre, s.physOk (q.va.setWidth 34) q.n acc false priv = true) ∧
        s.physOk (p.va.setWidth 34) p.n acc false priv = false := by
  intro l
  induction l with
  | nil => intro e h; cases h
  | cons p rest ih =>
    intro e h
    rw [checkBare] at h
    by_cases hp : s.physOk (p.va.setWidth 34) p.n acc false priv = true
    · rw [if_pos hp] at h
      cases hr : checkBare s acc priv rest with
      | ok ps => rw [hr] at h; cases h
      | error e' =>
        rw [hr] at h; cases h
        obtain ⟨pre, q, post, rfl, he, hpre, hq⟩ := ih hr
        refine ⟨p :: pre, q, post, rfl, he, fun x hx => ?_, hq⟩
        rcases List.mem_cons.mp hx with rfl | hx
        · exact hp
        · exact hpre x hx
    · rw [if_neg hp] at h
      cases h
      exact ⟨[], p, rest, rfl, rfl, nofun, by simpa using hp⟩

/-- An untranslated access fails at the piece that is the first to fail its check (R122, R123). -/
theorem checkBare_first {s : State} {acc : Acc} {priv : Mode} {p : Piece} {post : List Piece} :
    ∀ {pre : List Piece}, (∀ q ∈ pre, s.physOk (q.va.setWidth 34) q.n acc false priv = true) →
      s.physOk (p.va.setWidth 34) p.n acc false priv = false →
      checkBare s acc priv (pre ++ p :: post) = .error ⟨.accessFault, acc, p.va⟩ := by
  intro pre
  induction pre with
  | nil => intro _ hp; simp [checkBare, hp]
  | cons q rest ih =>
    intro h hp
    rw [List.cons_append, checkBare, if_pos (h q (List.mem_cons_self ..)),
      ih (fun x hx => h x (List.mem_cons_of_mem _ hx)) hp]

/-- An untranslated access goes to the addresses zero-extended (R23, R24). -/
theorem checkBare_ok {s : State} {acc : Acc} {priv : Mode} :
    ∀ {l : List Piece} {ps : List PhysPiece}, checkBare s acc priv l = .ok ps →
      ps = l.map fun p => ⟨p.va.setWidth 34, p.n⟩ := by
  intro l
  induction l with
  | nil => intro ps h; cases h; rfl
  | cons p rest ih =>
    intro ps h
    rw [checkBare] at h
    by_cases hp : s.physOk (p.va.setWidth 34) p.n acc false priv = true
    · rw [if_pos hp] at h
      cases hr : checkBare s acc priv rest with
      | ok ps' => rw [hr] at h; cases h; simp [ih hr]
      | error e' => rw [hr] at h; cases h
    · rw [if_neg hp] at h
      cases h

/-- The untranslated pieces when every check passes. -/
theorem checkBare_all {s : State} {acc : Acc} {priv : Mode} :
    ∀ {l : List Piece}, (∀ p ∈ l, s.physOk (p.va.setWidth 34) p.n acc false priv = true) →
      checkBare s acc priv l = .ok (l.map fun p => ⟨p.va.setWidth 34, p.n⟩) := by
  intro l
  induction l with
  | nil => intro _; rfl
  | cons p rest ih =>
    intro h
    have hp := h p (List.mem_cons_self ..)
    have hr := ih fun q hq => h q (List.mem_cons_of_mem _ hq)
    rw [checkBare, if_pos hp, hr]
    rfl

/-- An access is one piece or two (R38). -/
theorem pieces_cases (va : Word) (n : Nat) :
    (n ≤ 4096 - (vaPgoff va).toNat ∧ pieces va n = [⟨va, n⟩]) ∨
    (4096 - (vaPgoff va).toNat < n ∧
      pieces va n =
        [⟨va, 4096 - (vaPgoff va).toNat⟩,
          ⟨va + BitVec.ofNat 32 (4096 - (vaPgoff va).toNat), n - (4096 - (vaPgoff va).toNat)⟩]) := by
  unfold pieces
  simp only
  split
  · left; exact ⟨by assumption, rfl⟩
  · right; exact ⟨by omega, rfl⟩

/-- A read that is made is judged, and writes no memory (R82). -/
theorem Walk.Reads.step {w : Walk} {s : State} {e : AtcEntry} (h : w.Reads s e) :
    (w.step s).1 = w.judge s e ∧ (w.step s).2.mem = s.mem := by
  obtain ⟨hl, hp, h⟩ := h
  unfold Walk.step
  rw [hl]
  rcases w.readStep_cases s with ⟨h', _⟩ | ⟨_, ⟨e', hc, hx⟩ | ⟨hc, ⟨hr, hx⟩ | ⟨pte, hr, hx⟩⟩⟩
  · rw [hp] at h'; cases h'
  · rcases h with h | ⟨h, _⟩ <;> rw [hc] at h <;> cases h
    simp [hx]
  · rcases h with h | ⟨_, pte, h2, _⟩
    · rw [hc] at h; cases h
    · rw [hr] at h2; cases h2
  · rcases h with h | ⟨_, pte', h2, rfl⟩
    · rw [hc] at h; cases h
    · rw [hr] at h2; cases h2; simp [hx]

end Sys2Proof.Machine
end

