-- ==== Sys2Proof/Laws/Fence.lean ====
section
/-! SUPPORT. What SFENCE.VMA covers and what it leaves (R112). -/

namespace Sys2Proof.Machine

@[simp] theorem AsidSel.covers_all (e : AtcEntry) : AsidSel.all.covers e = true := rfl

theorem AsidSel.covers_one (a : Asid) (e : AtcEntry) :
    (AsidSel.one a).covers e = true ↔ e.asid = a ∧ e.global = false := by
  simp [AsidSel.covers]

@[simp] theorem AddrSel.covers_all (cfg : Config) (e : AtcEntry) : AddrSel.all.covers cfg e = true := rfl

theorem AddrSel.covers_page (va : Word) (cfg : Config) (e : AtcEntry) :
    (AddrSel.page va).covers cfg e = true ↔
      pteIsPointer cfg e.pte = false ∧ e.tag = vaTag va e.tag.level := by
  simp [AddrSel.covers]

/-- A tag is that of an address exactly when its page-number bits are the address's (R14). -/
theorem VpnTag.eq_vaTag_iff (t : VpnTag) (va : Word) :
    t = vaTag va t.level ↔ (t = .l1 (vaVpn1 va) ∨ t = .l0 (vaVpn va)) := by
  cases t <;> simp [vaTag, VpnTag.level]

theorem covered_iff (cfg : Config) (a : AddrSel) (i : AsidSel) (e : AtcEntry) :
    covered cfg a i e = true ↔ i.covers e = true ∧ a.covers cfg e = true := by
  simp [covered]

/-- What the instruction answers, in both kinds of mode (R110, R115). -/
theorem execSfenceVma_cases (rs1 rs2 : Nat) (s : State) :
    (s.mayFence = true ∧
      execSfenceVma rs1 rs2 s = .next ((s.fence (s.addrSel rs1) (s.asidSel rs2)).advancePc 4#32)) ∨
    (s.mayFence = false ∧ execSfenceVma rs1 rs2 s = .next s.takeIllegal) := by
  unfold execSfenceVma
  cases s.mayFence <;> simp

theorem mayFence_iff (s : State) :
    s.mayFence = true ↔ s.mode = .m ∨ (s.mode = .s ∧ msTvm s.mstatus = false) := by
  unfold State.mayFence
  cases s.mode <;> simp

end Sys2Proof.Machine
end

