-- ==== Sys2Proof/Laws/PerInstr.lean ====
section
/-! SUPPORT. Statements about every instruction, one lemma per constructor. -/

namespace Sys2Proof.Laws

/-- The encoding of an instruction has the fixed bits of its row of the opcode table (R49). -/
def EncodingHasFixedBits.Statement (i : Instr) : Prop := encode i &&& sfenceMask = sfenceMatch

theorem EncodingHasFixedBits.sfenceVma (rs1 rs2 : Nat) :
    EncodingHasFixedBits.Statement (.sfenceVma rs1 rs2) := by
  have key : ∀ a b : BitVec 5,
      (0b0001001#7 ++ b ++ a ++ 0b000#3 ++ 0b00000#5 ++ 0b1110011#7 : BitVec 32) &&& 0xFE007FFF#32 =
        0x12000073#32 := by decide +kernel
  exact key _ _

end Sys2Proof.Laws
end

