-- ==== Sys2Proof/Laws/Registers.lean ====
section
/-! SUPPORT. Integer registers, the physical checks, and taking an exception. -/

namespace Sys2Proof.Machine

@[simp] theorem State.reg_zero (s : State) : s.reg 0 = 0#32 := rfl

@[simp] theorem State.setReg_zero (s : State) (v : Word) : s.setReg 0 v = s := rfl

theorem State.reg_of_lt (s : State) {r : Nat} (h0 : r ≠ 0) (h : r < 32) : s.reg r = s.regs[r] := by
  simp [State.reg, h0, List.getD_eq_getElem?_getD, h]

/-- A register read after a register write. -/
theorem State.reg_setReg (s : State) (r q : Nat) (v : Word) :
    (s.setReg r v).reg q = if q = r ∧ r ≠ 0 ∧ r < 32 then v else s.reg q := by
  by_cases hr : r = 0
  · subst hr; simp
  by_cases hq : q = 0
  · subst hq; simp; omega
  · by_cases h32 : q < 32
    · rw [State.reg_of_lt _ hq h32, State.reg_of_lt _ hq h32]
      simp only [State.setReg, if_neg hr]
      by_cases hqr : q = r
      · subst hqr; simp [hr, h32]
      · simp only [hqr, false_and, if_false]
        exact Vector.getElem_setIfInBounds_ne h32 (fun h => hqr h.symm)
    · have hv : ∀ t : State, t.reg q = 0#32 := by
        intro t
        simp [State.reg, hq, List.getD_eq_getElem?_getD, Nat.le_of_not_lt h32]
      rw [hv, hv, if_neg]
      rintro ⟨rfl, _, h⟩
      exact h32 h

/-- An address at or above 2^PABITS passes no check (R39). -/
theorem State.physOk_of_ge (s : State) {pa : PAddr} (n : Nat) (acc : Acc) (i : Bool) (p : Mode)
    (h : 2 ^ s.cfg.pabits ≤ pa.toNat) : s.physOk pa n acc i p = false := by
  have : ¬ pa.toNat < 2 ^ s.cfg.pabits := by omega
  simp [State.physOk, this]

/-- A check depends on the parameters and the PMA and PMP state alone (D7). -/
theorem State.physOk_congr {s t : State} (hc : t.cfg = s.cfg) (hp : t.phys = s.phys) (pa : PAddr) (n : Nat)
    (acc : Acc) (i : Bool) (p : Mode) : t.physOk pa n acc i p = s.physOk pa n acc i p := by
  simp [State.physOk, hc, hp]

/-- Where an exception is taken (R127). -/
theorem State.takeException_cases (s : State) (c : Nat) (v : Word) :
    (s.mode ≠ .m ∧ s.medeleg.getLsbD c = true ∧ s.takeException c v = s.trapToS c v) ∨
    ((s.mode = .m ∨ s.medeleg.getLsbD c = false) ∧ s.takeException c v = s.trapToM c v) := by
  unfold State.takeException State.delegated
  by_cases hm : s.mode = .m
  · right; simp [hm]
  · cases hd : s.medeleg.getLsbD c
    · right; simp
    · left; simp [hm]

/-- Taking an exception never leaves MPP naming no mode. -/
theorem State.msMpp_takeException {s : State} (h : msMpp s.mstatus ≠ 2#2) (c : Nat) (v : Word) :
    msMpp (s.takeException c v).mstatus ≠ 2#2 := by
  rcases s.takeException_cases c v with ⟨_, _, hs⟩ | ⟨_, hs⟩ <;> rw [hs]
  · simpa [msMpp_withBit] using h
  · rw [State.trapToM_mstatus, msMpp_withBit _ _ _ (by decide) (by decide),
      msMpp_withBit _ _ _ (by decide) (by decide), msMpp_withMpp]
    exact Mode.bits_ne_two _

end Sys2Proof.Machine
end

