-- ==== Sys2Proof/Laws/Step.lean ====
section
/-! SUPPORT. Everything one step can do, said once: the events that lead to a next state, as one relation, and
the theorem that every step is one of them. -/

namespace Sys2Proof.Machine

/-- On the hart's turn the step is what that turn comes to. -/
theorem step_of_turn {s u : State} (h : s.HartsTurn u) : step s = hartTurn u := by
  rcases h with ⟨he, rfl⟩ | ⟨rest, he, rfl⟩ <;> unfold step <;> rw [he]

/-- Beginning an access takes one act off the program, if it takes any. -/
theorem State.Begins.eq_ops {s u : State} {g : Goal} (h : s.Begins g u) :
    s.access = none ∧ ∃ ops, u = { s with ops := ops } := by
  rcases h with ⟨ha, r, rest, _, _, _, rfl⟩ | ⟨_, ha, ⟨_, rfl⟩ | ⟨rest, _, rfl⟩⟩
  · exact ⟨ha, rest, rfl⟩
  · exact ⟨ha, u.ops, rfl⟩
  · exact ⟨ha, rest, rfl⟩

theorem State.AboutToFetch.begins {s u : State} (h : s.AboutToFetch u) : s.Begins (.instr s.pc) u :=
  .inr ⟨rfl, h⟩

/-- The hart's turn where an access begins. -/
theorem hartMove_of_begins {s u : State} {g : Goal} (h : s.Begins g u) : hartMove s = beginAccess u g := by
  rcases h with ⟨ha, r, rest, ho, hns, rfl, rfl⟩ | ⟨rfl, ha, ⟨ho, rfl⟩ | ⟨rest, ho, rfl⟩⟩
  · simp only [hartMove, ha, ho, hartOp, beginRequest]
  · simp only [hartMove, ha, ho]
  · simp only [hartMove, ha, ho, hartOp]

/-- The hart's turn where an access stands translated. -/
theorem hartMove_of_ready {s : State} {g : Goal} {ps : List PhysPiece}
    (h : s.access = some ⟨g, .ready ps⟩) :
    hartMove s = performAccess { s with access := none } g ps := by
  simp only [hartMove, h, advanceAccess]

/-- An untranslated access whose checks pass is performed at its zero-extended addresses (R23, R24). -/
theorem beginAccess_bare {s : State} {g : Goal} (ht : s.translates (s.effectiveMode g.acc) = false)
    (hp : ∀ p ∈ pieces g.va g.bytes,
      s.physOk (p.va.setWidth 34) p.n g.acc false (s.effectiveMode g.acc) = true) :
    beginAccess s g =
      performAccess s g ((pieces g.va g.bytes).map fun p => ⟨p.va.setWidth 34, p.n⟩) := by
  simp [beginAccess, ht, checkBare_all hp]

/-- A turn that gives an outcome is that outcome. -/
theorem hartTurn_of_out {s : State} {o : Host.Outcome State Fault Refusal} (h : hartMove s = .out o) :
    hartTurn s = o := by
  simp only [hartTurn, h]

/-- Where the hart's next event fetches four bytes, the word they make is fetched. -/
theorem hartMove_of_fetches {u v : State} {b0 b1 b2 b3 : Byte} (h : u.Fetches [b0, b1, b2, b3] v) :
    hartMove u = .fetched (wordOfBytes b0 b1 b2 b3) v := by
  rcases h with ⟨hf, ht, hp, hm⟩ | ⟨pc, ps, ha, hm, rfl⟩
  · have hpc : v.pc = u.pc := by obtain ⟨_, _, rfl⟩ := hf.begins.eq_ops; rfl
    rw [hartMove_of_begins hf.begins, ← hpc, beginAccess_bare (g := .instr v.pc) ht fun p hi =>
      hp ⟨p.va.setWidth 34, p.n⟩ (List.mem_map.mpr ⟨p, hi, rfl⟩)]
    have he : (pieces v.pc 4).map (fun p => (⟨p.va.setWidth 34, p.n⟩ : PhysPiece)) = v.fetchPieces := rfl
    simp only [performAccess, Goal.va, Goal.bytes, he, hm]
  · simp only [hartMove_of_ready ha, performAccess, hm]

/-- What the hart's turn can lead to, for each next state. -/
inductive HartAct (s : State) : State → Prop
  /-- A translated access begins (R80). -/
  | walkStart {g u p rest} : s.Begins g u → u.translates (u.effectiveMode g.acc) = true →
      pieces g.va g.bytes = p :: rest →
      HartAct s { u with
        access := some ⟨g, .walking (Walk.start u p.va g.acc (u.effectiveMode g.acc) false) p.n rest []⟩ }
  /-- An untranslated access fails its check (R23). -/
  | bareDenied {g u e t} : s.Begins g u → u.translates (u.effectiveMode g.acc) = false →
      checkBare u g.acc (u.effectiveMode g.acc) (pieces g.va g.bytes) = .error e →
      failAccess u g e = .out (.next t) → HartAct s t
  /-- An untranslated request is performed (R23). -/
  | barePerform {r u ps t} : s.Begins (.request r) u →
      u.translates (u.effectiveMode r.kind.acc) = false →
      checkBare u r.kind.acc (u.effectiveMode r.kind.acc) (pieces r.va r.size.bytes) = .ok ps →
      performRequest u r ps = .out (.next t) → HartAct s t
  /-- An instruction fetched without translation is executed. -/
  | bareRun {i u t} : s.Begins (.instr s.pc) u → exec i u = .next t → HartAct s t
  /-- A walk goes on. -/
  | walkMore {g w n rest ready w' s'} : s.access = some ⟨g, .walking w n rest ready⟩ →
      w.step s = (.more w', s') →
      HartAct s { s' with access := some ⟨g, .walking w' n rest ready⟩ }
  /-- A walk raises an exception. -/
  | walkRaise {g w n rest ready e s' t} : s.access = some ⟨g, .walking w n rest ready⟩ →
      w.step s = (.raise e, s') → failAccess { s' with access := none } g e = .out (.next t) →
      HartAct s t
  /-- The last piece is translated and checked (R22). -/
  | pieceReady {g w n ready pa s'} : s.access = some ⟨g, .walking w n [] ready⟩ →
      w.step s = (.done pa, s') → s'.physOk pa n w.acc false w.priv = true →
      HartAct s { s' with access := some ⟨g, .ready (ready ++ [⟨pa, n⟩])⟩ }
  /-- A piece is translated and checked, and the next one is to be walked (R38). -/
  | pieceNext {g w n p rest ready pa s'} : s.access = some ⟨g, .walking w n (p :: rest) ready⟩ →
      w.step s = (.done pa, s') → s'.physOk pa n w.acc false w.priv = true →
      HartAct s { s' with
        access := some ⟨g, .walking (Walk.start s' p.va w.acc w.priv false) p.n rest
          (ready ++ [⟨pa, n⟩])⟩ }
  /-- A translated piece fails the final check (R22). -/
  | pieceDenied {g w n rest ready pa s' t} : s.access = some ⟨g, .walking w n rest ready⟩ →
      w.step s = (.done pa, s') → s'.physOk pa n w.acc false w.priv = false →
      failAccess { s' with access := none } g (w.exn .accessFault) = .out (.next t) → HartAct s t
  /-- A translated request is performed (R34). -/
  | perform {r ps t} : s.access = some ⟨.request r, .ready ps⟩ →
      performRequest { s with access := none } r ps = .out (.next t) → HartAct s t
  /-- A translated fetch is performed and its instruction executed. -/
  | run {pc ps i t} : s.access = some ⟨.instr pc, .ready ps⟩ →
      exec i { s with access := none } = .next t → HartAct s t
  /-- Another act of the enclosing hart. -/
  | other {op rest t} : s.access = none → s.ops = op :: rest → op ≠ .instr →
      ((∀ r, op ≠ .access r) ∨
        ∃ r v, op = .access r ∧ r.kind = .sc v .failUntranslated) →
      hartOp { s with ops := rest } op = .out (.next t) → HartAct s t

/-- What beginning an access comes to (R80, R23). -/
theorem beginAccess_cases (s : State) (g : Goal) :
    (∃ p rest, s.translates (s.effectiveMode g.acc) = true ∧ pieces g.va g.bytes = p :: rest ∧
      beginAccess s g = .out (.next { s with
        access := some ⟨g, .walking (Walk.start s p.va g.acc (s.effectiveMode g.acc) false) p.n rest
          []⟩ })) ∨
    (∃ ps, s.translates (s.effectiveMode g.acc) = false ∧
      checkBare s g.acc (s.effectiveMode g.acc) (pieces g.va g.bytes) = .ok ps ∧
      beginAccess s g = performAccess s g ps) ∨
    (∃ e, s.translates (s.effectiveMode g.acc) = false ∧
      checkBare s g.acc (s.effectiveMode g.acc) (pieces g.va g.bytes) = .error e ∧
      beginAccess s g = failAccess s g e) := by
  cases ht : s.translates (s.effectiveMode g.acc) with
  | true =>
    left
    rcases pieces_cases g.va g.bytes with ⟨_, h⟩ | ⟨_, h⟩ <;>
      exact ⟨_, _, rfl, h, by simp only [beginAccess, ht, h, if_true]⟩
  | false =>
    right
    cases hc : checkBare s g.acc (s.effectiveMode g.acc) (pieces g.va g.bytes) with
    | ok ps => exact .inl ⟨ps, rfl, rfl, by simp [beginAccess, ht, hc]⟩
    | error e => exact .inr ⟨e, rfl, rfl, by simp [beginAccess, ht, hc]⟩

/-- Performing an access that is at hand leads where `HartAct` says. -/
theorem performAccess_out {s t : State} {g : Goal} {ps : List PhysPiece}
    (h : performAccess s g ps = .out (.next t)) :
    ∃ r, g = .request r ∧ performRequest s r ps = .out (.next t) := by
  rcases performAccess_cases s g ps with ⟨r, hg, hp⟩ | ⟨_, _, _, hp⟩ | hp
  · exact ⟨r, hg, hp ▸ h⟩
  · rw [hp] at h; cases h
  · rw [hp] at h; cases h

theorem performAccess_fetched {s u : State} {g : Goal} {ps : List PhysPiece} {w : Word}
    (h : performAccess s g ps = .fetched w u) : (∃ pc, g = .instr pc) ∧ u = s := by
  rcases performAccess_cases s g ps with ⟨r, hg, hp⟩ | ⟨pc, _, hg, hp⟩ | hp
  · rw [hp] at h
    rcases performRequest_cases s r ps with hq | ⟨_, hq, _⟩ <;> rw [hq] at h <;> cases h
  · rw [hp] at h; cases h; exact ⟨⟨pc, hg⟩, rfl⟩
  · rw [hp] at h; cases h

theorem failAccess_next (s : State) (g : Goal) (e : Exn) : ∃ t, failAccess s g e = .out (.next t) := by
  cases g <;> exact ⟨_, rfl⟩

theorem beginAccess_act {s u t : State} {g : Goal} (hb : s.Begins g u)
    (h : beginAccess u g = .out (.next t)) : HartAct s t := by
  rcases beginAccess_cases u g with ⟨p, rest, ht, hp, he⟩ | ⟨ps, ht, hc, he⟩ | ⟨e, ht, hc, he⟩ <;>
    rw [he] at h
  · cases h; exact .walkStart hb ht hp
  · obtain ⟨r, rfl, hr⟩ := performAccess_out h
    exact .barePerform hb ht hc hr
  · exact .bareDenied hb ht hc h

theorem beginAccess_fetched {s u : State} {g : Goal} {w : Word}
    (h : beginAccess s g = .fetched w u) : (∃ pc, g = .instr pc) ∧ u = s := by
  rcases beginAccess_cases s g with ⟨p, rest, _, _, he⟩ | ⟨ps, _, _, he⟩ | ⟨e, _, _, he⟩ <;>
    rw [he] at h
  · cases h
  · exact performAccess_fetched h
  · obtain ⟨t, ht⟩ := failAccess_next s g e
    rw [ht] at h; cases h

/-- The hart's turn is one of the acts, or ends in the execution of the instruction it fetched. -/
theorem hartMove_cases (s : State) :
    (∀ t, hartMove s = .out (.next t) → HartAct s t) ∧
    (∀ w u i t, hartMove s = .fetched w u → exec i u = .next t → HartAct s t) := by
  cases ha : s.access with
  | some a =>
    obtain ⟨g, ph⟩ := a
    have hm : hartMove s = advanceAccess s ⟨g, ph⟩ := by simp [hartMove, ha]
    rw [hm]
    cases ph with
    | ready ps =>
      constructor
      · intro t h
        obtain ⟨r, rfl, hr⟩ := performAccess_out (s := { s with access := none }) h
        exact .perform ha hr
      · intro w u i t h hx
        obtain ⟨⟨pc, rfl⟩, rfl⟩ := performAccess_fetched (s := { s with access := none }) h
        exact .run ha hx
    | walking w n rest ready =>
      rcases hw : w.step s with ⟨o, s'⟩
      cases o with
      | more w' =>
        refine ⟨fun t h => ?_, fun _ _ _ _ h _ => ?_⟩ <;> simp only [advanceAccess, hw] at h <;> cases h
        exact .walkMore ha hw
      | raise e =>
        have he : advanceAccess s ⟨g, .walking w n rest ready⟩ =
            failAccess { s' with access := none } g e := by simp only [advanceAccess, hw]
        refine ⟨fun t h => .walkRaise ha hw (he ▸ h), fun _ _ _ _ h _ => ?_⟩
        obtain ⟨t, ht⟩ := failAccess_next { s' with access := none } g e
        rw [he, ht] at h; cases h
      | unwritten =>
        refine ⟨fun t h => ?_, fun _ _ _ _ h _ => ?_⟩ <;> simp only [advanceAccess, hw] at h <;> cases h
      | done pa =>
        have he : advanceAccess s ⟨g, .walking w n rest ready⟩ = pieceDone s' g w n rest ready pa := by
          simp only [advanceAccess, hw]
        rw [he]
        unfold pieceDone
        cases hp : s'.physOk pa n w.acc false w.priv with
        | true =>
          cases rest with
          | nil =>
            refine ⟨fun t h => ?_, fun _ _ _ _ h _ => ?_⟩ <;> cases h
            exact .pieceReady ha hw hp
          | cons p rest =>
            refine ⟨fun t h => ?_, fun _ _ _ _ h _ => ?_⟩ <;> cases h
            exact .pieceNext ha hw hp
        | false =>
          refine ⟨fun t h => .pieceDenied ha hw hp h, fun _ _ _ _ h _ => ?_⟩
          obtain ⟨t, ht⟩ := failAccess_next { s' with access := none } g (w.exn .accessFault)
          simp only [Bool.false_eq_true, if_false] at h
          rw [ht] at h; cases h
  | none =>
    by_cases hb : ∃ g u, s.Begins g u
    · obtain ⟨g, u, hb⟩ := hb
      rw [hartMove_of_begins hb]
      refine ⟨fun t h => beginAccess_act hb h, fun w v i t h hx => ?_⟩
      obtain ⟨⟨pc, rfl⟩, rfl⟩ := beginAccess_fetched h
      rcases hb with ⟨_, _, _, _, _, hg, _⟩ | hb
      · cases hg
      · cases hb.1
        exact .bareRun (.inr hb) hx
    · cases ho : s.ops with
      | nil => exact absurd ⟨_, _, State.AboutToFetch.begins ⟨ha, .inl ⟨ho, rfl⟩⟩⟩ hb
      | cons op rest =>
        have hm : hartMove s = hartOp { s with ops := rest } op := by simp [hartMove, ha, ho]
        have hi : op ≠ .instr := by
          rintro rfl
          exact hb ⟨_, _, State.AboutToFetch.begins ⟨ha, .inr ⟨rest, ho, rfl⟩⟩⟩
        have hr : (∀ r, op ≠ .access r) ∨
            ∃ r v, op = .access r ∧ r.kind = .sc v .failUntranslated := by
          by_contra hr
          simp only [not_or, not_forall, Decidable.not_not, not_exists, not_and] at hr
          obtain ⟨⟨r, rfl⟩, hns⟩ := hr
          exact hb ⟨_, _, .inl ⟨ha, r, rest, ho, fun v => hns r v rfl, rfl, rfl⟩⟩
        rw [hm]
        refine ⟨fun t h => .other ha ho hi hr h, fun w u i t h _ => ?_⟩
        rcases hr with hr | ⟨r, v, rfl, hk⟩
        · cases op <;> first | exact absurd rfl (hr _) | exact absurd rfl hi | cases h
        · simp only [hartOp, beginRequest, hk] at h
          cases h

/-- A hart's turn that answers a next state is one of the acts. -/
theorem hartTurn_act {s t : State} (h : hartTurn s = .next t) : HartAct s t := by
  unfold hartTurn at h
  split at h
  · next o ho => exact (hartMove_cases s).1 t (by rw [ho, h])
  · next w u hw =>
    split at h
    · next i _ => exact (hartMove_cases s).2 w u i t hw h
    · next e _ => cases e <;> cases h

/-- Every step that answers a next state is an act of the hart or an event outside it, in the state without
that event at the head of the schedule. -/
theorem step_cases {s t : State} (h : step s = .next t) :
    (s.env = [] ∧ HartAct s t) ∨
    (∃ rest, s.env = .hart :: rest ∧ HartAct { s with env := rest } t) ∨
    (∃ ev rest, s.env = ev :: rest ∧ ev ≠ .hart ∧ t = { s with env := rest }.envEvent ev) := by
  unfold step at h
  split at h
  · next he => exact .inl ⟨he, hartTurn_act h⟩
  · next rest he => exact .inr (.inl ⟨rest, he, hartTurn_act h⟩)
  · next ev rest hne he =>
    cases h
    exact .inr (.inr ⟨ev, rest, he, hne, rfl⟩)

/-- The acts of the enclosing hart that are no access of memory, each with the state it leads to. -/
theorem hartOp_cases {s t : State} {op : HartOp}
    (hi : op ≠ .instr)
    (hop : (∀ r, op ≠ .access r) ∨ ∃ r v, op = .access r ∧ r.kind = .sc v .failUntranslated)
    (h : hartOp s op = .out (.next t)) :
    (∃ c v, op = .csrWrite c v ∧ t = s.setCsr c v) ∨
    (∃ c, op = .csrRead c ∧ t = s.reply (.csrValue (s.csr c))) ∨
    (∃ r v, op = .setReg r v ∧ t = s.setReg r v) ∨
    (∃ v, op = .setPc v ∧ t = { s with pc := v }) ∨
    (∃ rules, op = .setPhys rules ∧ t = { s with phys := rules }) ∨
    (op = .dropReservation ∧ t = { s with reservation := none }) ∨
    (∃ c v, op = .raise c v ∧ t = s.takeException c v) ∨
    (op = .sret ∧ t = s.sret) ∨ (op = .mret ∧ t = s.mret) ∨
    (∃ r v, op = .access r ∧ r.kind = .sc v .failUntranslated ∧
      t = { s with reservation := none }.reply (.scDone [] false)) := by
  cases op with
  | access r =>
    rcases hop with hop | ⟨r', v, hr, hk⟩
    · exact absurd rfl (hop r)
    · cases hr
      simp only [hartOp, beginRequest, hk] at h
      cases h
      simp only [reduceCtorEq, false_and, exists_false, false_or]
      exact ⟨r, v, rfl, hk, rfl⟩
  | instr => exact absurd rfl hi
  | _ => simp only [hartOp] at h; cases h; simp

/-- What the next event of a speculative walk can do: nothing, the end of the walk, or one memory event of it,
after which it goes on or is over. -/
theorem State.specStep_cases (s : State) (k : Nat) :
    s.specStep k = s ∨ s.specStep k = { s with spec := s.spec.eraseIdx k } ∨
    ∃ w, s.spec[k]? = some w ∧ s.speculates = true ∧
      ((∃ w' s', w.step s = (.more w', s') ∧ s.specStep k = { s' with spec := s.spec.set k w' }) ∨
        (∃ o s', w.step s = (o, s') ∧ (∀ w', o ≠ .more w') ∧
          s.specStep k = { s' with spec := s.spec.eraseIdx k })) := by
  unfold State.specStep
  cases hk : s.spec[k]? with
  | none => exact .inl rfl
  | some w =>
    cases hs : s.speculates with
    | false => exact .inr (.inl rfl)
    | true =>
      refine .inr (.inr ⟨w, rfl, rfl, ?_⟩)
      rcases hw : w.step s with ⟨o, s'⟩
      cases o with
      | more w' => exact .inl ⟨w', s', rfl, by simp only [if_true, hw]⟩
      | _ => exact .inr ⟨_, s', rfl, nofun, by simp only [if_true, hw]⟩

end Sys2Proof.Machine
end

