-- ==== Sys2Proof/Tests/Slice0.lean ====
section
/-! SUPPORT. Tests: ill-formed terms that the checks refuse, words written out from R49, one step or one walk on
vectors of spec/95_test_vectors.md, and, for every statement with hypotheses, a witness that meets them. -/

namespace Sys2Proof.Machine.Tests

/-! ## Well-formedness and decoding -/

theorem test_wf_refuses_rs1_32 : (Instr.sfenceVma 32 0).wf = false := by decide
theorem test_wf_refuses_rs2_32 : (Instr.sfenceVma 0 32).wf = false := by decide
theorem test_wf_refuses_ten_asid_bits :
    Config.wf { adScheme := .fault, pabits := 34, nonleafDauFault := true, asidLen := 10 } = false := by decide

/-- R49, field by field: funct7, rs2 = 6, rs1 = 5, funct3, rd, opcode. -/
theorem test_decode_bit_by_bit :
    decodeWord (0b0001001#7 ++ 0b00110#5 ++ 0b00101#5 ++ 0b000#3 ++ 0b00000#5 ++ 0b1110011#7) =
      .ok (.sfenceVma 5 6) := by decide
/-- spec/95 section 4, the same word in hexadecimal, as the bytes memory holds (R28). -/
theorem test_decode_bytes :
    decode [0x73#8, 0x80#8, 0x62#8, 0x12#8, 0xFF#8] = .ok (.sfenceVma 5 6, [0xFF#8]) := by decide
theorem test_decode_refuses_other : decodeWord 0x00000073#32 = .error .otherEncoding := by decide
theorem test_decode_refuses_short : decode [0x73#8, 0x80#8, 0x62#8] = .error .truncated := by decide
theorem test_decode_table_word : decodeTableWord 32 0x12028073 = some (.sfenceVma 5 0) := by decide
theorem test_encode : encode (.sfenceVma 31 31) = 0x13FF8073#32 := by decide

/-! ## Small states -/

/-- Parameters with the given A/D scheme and answer to D9. -/
def params (ad : AdScheme) (dau : Bool) : Config :=
  { adScheme := ad, pabits := 34, nonleafDauFault := dau, asidLen := 9 }

/-- S-mode under Sv32 with the root table at 0x0_80000000 (spec/95), the cache empty. -/
def base : State :=
  { State.reset with mode := .s, satp := 0x80080000#32, cfg := params .hwUpdate true, atc := [] }

/-- Two table entries in memory: one of the root, one of the table at 0x0_80001000. -/
def tables (a1 : PAddr) (w1 : Word) (a0 : PAddr) (w0 : Word) : Memory :=
  (Memory.writeWord [] a1 w1).writeWord a0 w0

/-- The choices of a walk whose reads all go to memory. -/
def memoryOnly : List Choice := [⟨none, false⟩, ⟨none, false⟩, ⟨none, false⟩, ⟨none, false⟩]

/-- A walk of `va` with two tables in memory. -/
def walkOn (m : Memory) (va : Word) (acc : Acc) (priv : Mode) : WalkOut × State :=
  (Walk.start base va acc priv false).run 3 { base with mem := m, script := memoryOnly }

/-- The seven entries of spec/95 section 9, in ASID 5. -/
def cache : List AtcEntry :=
  [⟨5, false, .l1 0x000, 0x080000000#34, 0x20000401#32⟩, ⟨5, false, .l0 0x00002, 0x080001008#34, 0x200044C7#32⟩,
    ⟨5, true, .l0 0x00006, 0x080001018#34, 0xFFFFFF63#32⟩, ⟨5, false, .l1 0x001, 0x080000004#34, 0x201000CF#32⟩,
    ⟨5, false, .l0 0x00000, 0x080001000#34, 0x00000000#32⟩, ⟨7, false, .l0 0x00002, 0x080001008#34, 0x200044C7#32⟩,
    ⟨5, false, .l1 0x003, 0x08000000C#34, 0xDEADBEE0#32⟩]

/-- The state of spec/95 section 9 with `x5` and `x6`. -/
def fenceState (x5 x6 : Word) : State :=
  { base with satp := 0x81480000#32, atc := cache, regs := (base.regs.set 5 x5).set 6 x6 }

/-- What a fence leaves in the cache. -/
def leftBy (o : Host.Outcome State Fault Refusal) : Option (List AtcEntry) :=
  match o with
  | .next t => some t.atc
  | _ => none

/-! ## Vectors of spec/95 -/

/-- T3: `sfence.vma x5, x0` with x5 = 0x00002ABC removes e2 and e6. -/
theorem test_sfence_T3 :
    leftBy (exec (.sfenceVma 5 0) (fenceState 0x00002ABC#32 0#32)) =
      some ((cache.eraseIdx 5).eraseIdx 1) := by decide
/-- T7d: `sfence.vma x0, x6` with x6 = 0x205 removes all but e3 and e6. -/
theorem test_sfence_T7d :
    leftBy (exec (.sfenceVma 0 6) (fenceState 0#32 0x00000205#32)) =
      some [⟨5, true, .l0 0x00006, 0x080001018#34, 0xFFFFFF63#32⟩,
        ⟨7, false, .l0 0x00002, 0x080001008#34, 0x200044C7#32⟩] := by decide
/-- W1: a fetch. -/
theorem test_walk_W1 :
    (walkOn (tables 0x080000000#34 0x20000401#32 0x080001004#34 0x2000404B#32) 0x00001234#32 .fetch .s).1 =
      .done 0x080010234#34 := by decide
/-- W4: a fetch of U-mode from a page with U=0. -/
theorem test_walk_W4 :
    (walkOn (tables 0x080000000#34 0x20000401#32 0x080001004#34 0x2000404B#32) 0x00001234#32 .fetch .u).1 =
      .raise ⟨.pageFault, .fetch, 0x00001234#32⟩ := by decide
/-- W25: a load; all 22 bits of the PPN are used. -/
theorem test_walk_W25 :
    (walkOn (tables 0x080000000#34 0x20000401#32 0x080001018#34 0xFFFFFF63#32) 0x00006FFC#32 .load .s).1 =
      .done 0x3FFFFFFFC#34 := by decide
/-- AD4 under `HwUpdate`: a load sets A and not D. -/
theorem test_walk_AD4 :
    (fun r => (r.1, r.2.mem.word 0x080001014#34))
        (walkOn (tables 0x080000000#34 0x20000401#32 0x080001014#34 0x20005013#32) 0x00005010#32 .load .u) =
      (.done 0x080014010#34, some 0x20005053#32) := by decide
/-- AD8 under `HwUpdate`: a store to a megapage sets A and D in one write. -/
theorem test_walk_AD8 :
    (fun r => (r.1, r.2.mem.word 0x080000FFC#34))
        (walkOn (tables 0x080000FFC#34 0x20300017#32 0x080001000#34 0#32) 0xFFC12344#32 .store .u) =
      (.done 0x080C12344#34, some 0x203000D7#32) := by decide
/-- W17: a store to a misaligned megapage. -/
theorem test_walk_W17 :
    (walkOn (tables 0x080000008#34 0x201004CF#32 0x080001000#34 0#32) 0x00812345#32 .store .s).1 =
      .raise ⟨.pageFault, .store, 0x00812345#32⟩ := by decide

/-! ## Witnesses: the hypotheses of each statement are met together -/

/-- The hart's turn by an empty schedule, and by one that names it. -/
theorem turn_empty {s : State} (h : s.env = []) : s.HartsTurn s := .inl ⟨h, rfl⟩
theorem turn_named (s : State) : ({ s with env := .hart :: s.env } : State).HartsTurn s :=
  .inr ⟨s.env, rfl, rfl⟩

/-- A walk at either level about to read the first entry of its table. -/
def walkAt (lvl : Level) (acc : Acc) (priv : Mode) : Walk :=
  { Walk.start base 0#32 acc priv false with level := lvl, table := 0x80001#22 }

/-- A cache entry that matches that walk. -/
def entryAt (lvl : Level) (pte : Word) : AtcEntry := ⟨0, false, vaTag 0#32 lvl, 0x080001000#34, pte⟩

/-- A state whose cache answers the read of that walk. -/
def answering (ms : Word) (cfg : Config) (lvl : Level) (pte : Word) : State :=
  { base with mstatus := ms, cfg := cfg, atc := [entryAt lvl pte], script := [⟨some 0, false⟩] }

theorem reads_at (ms : Word) (ad : AdScheme) (dau : Bool) (lvl : Level) (pte : Word) (acc : Acc) (priv : Mode) :
    (walkAt lvl acc priv).Reads (answering ms (params ad dau) lvl pte) (entryAt lvl pte) := by
  refine ⟨rfl, ?_, .inl ?_⟩
  · cases lvl <;>
      simp [State.physOk, answering, base, State.reset, params, walkAt, Walk.pteAddr, Walk.start,
        Machine.pteAddr, vaVpnAt, vaVpn0, vaVpn1]
  cases lvl <;> simp [Walk.cached, answering, walkAt, Walk.matchesEntry, entryAt, State.nextChoice, Walk.start,
    base, satpAsid]

/-- The leaf of page 0x00005 (spec/95: A clear), read and waiting for step 7. -/
def pendingLoad : Walk :=
  { walkAt .l0 .load .u with
    va := 0x00005010#32, leaf := some 0x20005013#32, held := [⟨0, false, .l0 5, 0x080001014#34, 0x20005013#32⟩] }

/-- A state in which that entry of the table holds the given word. -/
def withEntry (w : Word) : State := { base with mode := .u, mem := Memory.writeWord [] 0x080001014#34 w, script := memoryOnly }

/-- S-mode with a translated request in progress. -/
def asking (k : ReqKind) (ph : Phase) : State :=
  { base with access := some ⟨.request ⟨k, 0x00005010#32, .b4⟩, ph⟩ }

/-- A page's bytes 0 to 3 at 0x0_80014010. -/
def dataPiece : List PhysPiece := [⟨0x080014010#34, 4⟩]

/-- The root entry 0 of `base` is a page-table entry with V=0, held by memory. -/
def badRoot : State := { base with mem := Memory.writeWord [] 0x080000000#34 0#32, script := memoryOnly }

theorem witness_DecodeOfEncodeIsTheInstruction : (Instr.sfenceVma 31 31).wf = true := by decide

/-- M-mode, with `sfence.vma x5, x6` at the program counter. -/
def running : State :=
  { base with mode := .m, pc := 0x100#32, mem := Memory.writeWord [] 0x000000100#34 0x12628073#32 }

theorem running_fetches : running.Fetches [0x73, 0x80, 0x62, 0x12] running :=
  .inl ⟨⟨rfl, .inl ⟨rfl, rfl⟩⟩, by decide, by decide, by decide⟩
theorem witness_StepRunsDecodedInstruction_direct :
    running.HartsTurn running ∧ running.Fetches [0x73, 0x80, 0x62, 0x12] running ∧
      decodeWord (wordOfBytes 0x73 0x80 0x62 0x12) = .ok (.sfenceVma 5 6) :=
  ⟨turn_empty rfl, running_fetches, by decide⟩

/-- Spec/95 P3 in small: after its SFENCE.VMA the hart's program asks for a load. -/
def beforeLoad : State := { running with ops := [.instr, .access ⟨.load, 0x100#32, .b4⟩] }
theorem witness_StepRunsDecodedInstruction_program :
    ({ beforeLoad with env := .hart :: beforeLoad.env } : State).HartsTurn beforeLoad ∧
      beforeLoad.Fetches [0x73, 0x80, 0x62, 0x12] { beforeLoad with ops := [.access ⟨.load, 0x100#32, .b4⟩] } :=
  ⟨turn_named _, .inl ⟨⟨rfl, .inr ⟨_, rfl, rfl⟩⟩, by decide, by decide, by decide⟩⟩
/-- R111: the fence is executed between two acts of the program, and the load comes next. -/
theorem test_program_goes_on_after_fence :
    (match step beforeLoad with
      | .next t => decide (t.pc = 0x104#32 ∧ t.ops = [.access ⟨.load, 0x100#32, .b4⟩])
      | _ => false) = true := by decide

/-- S-mode, the same instruction fetched through a translation that is already made. -/
def fetched (w : Word) : State :=
  { base with
    pc := 0x00001234#32, mem := Memory.writeWord [] 0x080010234#34 w
    access := some ⟨.instr 0x00001234#32, .ready [⟨0x080010234#34, 4⟩]⟩ }

theorem witness_StepRunsDecodedInstruction_translated :
    (fetched 0x12628073#32).HartsTurn (fetched 0x12628073#32) ∧
      (fetched 0x12628073#32).Fetches [0x73, 0x80, 0x62, 0x12]
        { fetched 0x12628073#32 with access := none } :=
  ⟨turn_empty rfl, .inr ⟨_, _, rfl, by decide, rfl⟩⟩

theorem witness_OtherWordsAreRefusedByName_rd :
    (fetched 0x120000F3#32).HartsTurn (fetched 0x120000F3#32) ∧
      (fetched 0x120000F3#32).Fetches [0xF3, 0x00, 0x00, 0x12] { fetched 0x120000F3#32 with access := none } ∧
      decodeWord (wordOfBytes 0xF3 0x00 0x00 0x12) = .error .reservedRd :=
  ⟨turn_empty rfl, .inr ⟨_, _, rfl, by decide, rfl⟩, by decide⟩
/-- M-mode, `ecall` at the program counter. -/
def runningOther : State := { running with mem := Memory.writeWord [] 0x000000100#34 0x00000073#32 }
theorem witness_OtherWordsAreRefusedByName_other :
    ({ runningOther with env := .hart :: runningOther.env } : State).HartsTurn runningOther ∧
      runningOther.Fetches [0x73, 0x00, 0x00, 0x00] runningOther ∧
      decodeWord (wordOfBytes 0x73 0x00 0x00 0x00) = .error .otherEncoding :=
  ⟨turn_named _, .inl ⟨⟨rfl, .inl ⟨rfl, rfl⟩⟩, by decide, by decide, by decide⟩, by decide⟩

theorem witness_PlacedWordRunsNext : decodeTableWord 32 0x13FF8073 = some (.sfenceVma 31 31) := by decide

/-- A walk in progress meets the invariant, and its step answers a next state. -/
theorem witness_StepKeepsInvariant :
    ({ badRoot with access := some ⟨.request ⟨.amo 1, 0x10#32, .b4⟩,
        .walking (Walk.start badRoot 0x10#32 .store .s false) 4 [] []⟩ } : State).Inv ∧
      ∃ t, step { badRoot with access := some ⟨.request ⟨.amo 1, 0x10#32, .b4⟩,
        .walking (Walk.start badRoot 0x10#32 .store .s false) 4 [] []⟩ } = .next t := by
  refine ⟨⟨by decide, by decide, by decide, by decide, ?_, ?_, ?_⟩, _, rfl⟩
  · simp [badRoot, base, State.reset]
  · simp [badRoot, base, State.reset]
  intro a ha
  cases ha
  refine ⟨nofun, fun w n rest ready h => ?_⟩
  cases h
  exact ⟨⟨by decide, nofun⟩, rfl, rfl⟩

theorem witness_StepKeepsConfiguration : ∃ t, step running = .next t := ⟨_, rfl⟩

/-- S-mode with TVM clear at the highest register numbers, and M-mode at the lowest. -/
theorem witness_SfenceCompletesRemovingExactlyCovered :
    31 < 32 ∧ (base.mode = .m ∨ (base.mode = .s ∧ msTvm base.mstatus = false)) ∧ 0 < 32 ∧
      (running.mode = .m ∨ (running.mode = .s ∧ msTvm running.mstatus = false)) := by decide
/-- An entry under each clause: e2 of spec/95 is removed by T3, e1 is not. -/
theorem witness_SfenceCompletesRemovingExactlyCovered_clauses :
    (pteIsPointer base.cfg 0x200044C7#32 = false ∧
      (VpnTag.l0 0x00002 = .l0 ((0x00002ABC#32).extractLsb' 12 20))) ∧
    pteIsPointer base.cfg 0x20000401#32 = true := by decide
theorem witness_SfenceFrame :
    (base.mode = .m ∨ (base.mode = .s ∧ msTvm base.mstatus = false)) ∧
      ∃ t, exec (.sfenceVma 5 6) base = .next t := ⟨by decide, _, rfl⟩
theorem witness_SfenceTrapsWhereIllegal_user :
    (fun s : State => (s.mode = .u ∨ (s.mode = .s ∧ msTvm s.mstatus = true)) ∧ s.medeleg.getLsbD 2 = true)
      { base with mode := .u, medeleg := 4#32 } := by decide
theorem witness_SfenceTrapsWhereIllegal_tvm :
    (fun s : State => (s.mode = .u ∨ (s.mode = .s ∧ msTvm s.mstatus = true)) ∧ s.medeleg.getLsbD 2 = false)
      { base with mstatus := 0x00100000#32 } := by decide
theorem witness_FullFenceEmptiesCacheAndWalks :
    running.mode = .m ∨ (running.mode = .s ∧ msTvm running.mstatus = false) := by decide

/-- A speculative walk of ASID 5 that has read nothing yet. -/
def speculating : State :=
  { fenceState 0#32 7#32 with spec := [Walk.start (fenceState 0#32 7#32) 0x00002ABC#32 .load .s true] }

/-- A fence that names another ASID and another page than the walk's. -/
theorem witness_NoWalkOutlivesItsFence :
    (speculating.mode = .m ∨ (speculating.mode = .s ∧ msTvm speculating.mstatus = false)) ∧
      speculating.spec ≠ [] ∧ ∃ t, exec (.sfenceVma 5 6) speculating = .next t := ⟨by decide, by decide, _, rfl⟩
theorem witness_NoWalkOutlivesItsFence_request :
    (asking .load (.ready dataPiece)).mode = .s ∧ msTvm (asking .load (.ready dataPiece)).mstatus = false ∧
      (∃ ph, (asking .load (.ready dataPiece)).access = some ⟨.request ⟨.load, 0x00005010#32, .b4⟩, ph⟩) ∧
      ∃ t, exec (.sfenceVma 5 6) (asking .load (.ready dataPiece)) = .next t :=
  ⟨rfl, by decide, ⟨_, rfl⟩, _, rfl⟩
theorem witness_FencedReadsComeFromMemory_all :
    (fenceState 0x2ABC#32 0#32).mode = .s ∧ msTvm (fenceState 0x2ABC#32 0#32).mstatus = false ∧
      ∃ t, exec (.sfenceVma 0 0) (fenceState 0x2ABC#32 0#32) = .next t := ⟨by decide, by decide, _, rfl⟩
/-- Another address of the page in `x5`; the pointer e1 is left and answers. -/
theorem witness_FencedReadsComeFromMemory_page :
    vaVpn (Walk.start (fenceState 0x2ABC#32 0#32) 0x2000#32 .load .s false).va =
        vaVpn ((fenceState 0x2ABC#32 0#32).reg 5) ∧
      ∃ t, exec (.sfenceVma 5 0) (fenceState 0x2ABC#32 0#32) = .next t ∧
        ∃ e, (Walk.start t 0x2000#32 .load .s false).cached t (some 0) = some e :=
  ⟨by decide, _, rfl, _, rfl⟩
/-- At the root level the upper ten bits are the page number. -/
theorem witness_FencedReadsComeFromMemory_root :
    (Walk.start (fenceState 0x2ABC#32 0#32) 0x3FFFFF#32 .load .s false).level = .l1 ∧
      vaVpn1 (Walk.start (fenceState 0x2ABC#32 0#32) 0x3FFFFF#32 .load .s false).va =
        vaVpn1 ((fenceState 0x2ABC#32 0#32).reg 5) := by decide
/-- The ASID that `x6` names in its low nine bits is that of the walk. -/
theorem witness_FencedReadsComeFromMemory_asid :
    (Walk.start (fenceState 0x2ABC#32 0x205#32) 0x2ABC#32 .load .s false).asid =
        ((fenceState 0x2ABC#32 0x205#32).reg 6).extractLsb' 0 9 &&&
          asidMask (fenceState 0x2ABC#32 0x205#32).cfg.asidLen ∧
      ∃ t, exec (.sfenceVma 5 6) (fenceState 0x2ABC#32 0x205#32) = .next t := ⟨by decide, _, rfl⟩
/-- A read after the full fence, answered by memory. -/
def fencedRead : State :=
  { fenceState 0#32 0#32 with mem := Memory.writeWord [] 0x080000000#34 0x20000401#32, script := memoryOnly }
theorem witness_FencedReadsComeFromMemory_reads :
    ∃ t, exec (.sfenceVma 0 0) fencedRead = .next t ∧
      ∃ e, (Walk.start fencedRead 0x2ABC#32 .load .s false).Reads t e :=
  ⟨_, rfl, _, rfl, by decide, .inr ⟨rfl, _, rfl, rfl⟩⟩
theorem witness_SfenceIgnoresMemoryAndChecks : ∃ t, exec (.sfenceVma 5 6) base = .next t := ⟨_, rfl⟩

theorem witness_PteReadCheckRaisesAccessFault :
    (fun (w : Walk) (s : State) => w.leaf = none ∧ s.physOk w.pteAddr 4 .load true w.priv = false)
      (walkAt .l0 .fetch .s)
      { base with phys := [⟨0x080001000, 0x080002000, none, none, none, none⟩] } := by decide
/-- The translation completes at level 0 by the compare-and-write, and at level 1 on a read. -/
theorem witness_TranslatedAddressComposition :
    (∃ t, pendingLoad.step (withEntry 0x20005013#32) = (.done 0x080014010#34, t)) ∧
      pendingLoad.level = .l0 ∧ (walkAt .l1 .load .s).level = .l1 ∧
      ∃ t, (walkAt .l1 .load .s).step (answering 0 (params .fault true) .l1 0xFFF000C7#32) =
        (.done 0x3FFC00000#34, t) := ⟨⟨_, rfl⟩, by decide, by decide, _, rfl⟩
theorem witness_InvalidPteFaults :
    (walkAt .l1 .load .s).Reads (answering 0 (params .hwUpdate true) .l1 0xDEADBEE0#32)
        (entryAt .l1 0xDEADBEE0#32) ∧
      pteV 0xDEADBEE0#32 = false := ⟨reads_at .., by decide⟩
theorem witness_ReservedEncodingsFault_writeOnly :
    (walkAt .l1 .store .s).Reads (answering 0 (params .hwUpdate true) .l1 0x202000CD#32)
        (entryAt .l1 0x202000CD#32) ∧
      pteR 0x202000CD#32 = false ∧ pteW 0x202000CD#32 = true := ⟨reads_at .., by decide⟩
theorem witness_ReservedEncodingsFault_pointer :
    (walkAt .l1 .load .s).Reads (answering 0 (params .fault true) .l1 0x20000441#32)
        (entryAt .l1 0x20000441#32) ∧
      pteR 0x20000441#32 = false ∧ pteW 0x20000441#32 = false ∧ pteX 0x20000441#32 = false ∧
      pteA 0x20000441#32 = true := ⟨reads_at .., by decide⟩
theorem witness_ReservedEncodingsFault_ignored :
    (walkAt .l1 .load .s).Reads (answering 0 (params .fault false) .l1 0x20000441#32)
        (entryAt .l1 0x20000441#32) ∧
      pteV 0x20000441#32 = true ∧ pteR 0x20000441#32 = false ∧ pteW 0x20000441#32 = false ∧
      pteX 0x20000441#32 = false ∧ (walkAt .l1 .load .s).level = .l1 := ⟨reads_at .., by decide⟩
theorem witness_PointersAreFollowedOnceOnly_root :
    (walkAt .l1 .load .s).Reads (answering 0 (params .fault true) .l1 0x20000421#32)
        (entryAt .l1 0x20000421#32) ∧
      pteReserved (params .fault true) 0x20000421#32 = false ∧ pteR 0x20000421#32 = false ∧
      pteX 0x20000421#32 = false := ⟨reads_at .., by decide⟩
theorem witness_PointersAreFollowedOnceOnly_second :
    (walkAt .l0 .load .s).Reads (answering 0 (params .fault true) .l0 0x20000C01#32)
        (entryAt .l0 0x20000C01#32) ∧
      pteReserved (params .fault true) 0x20000C01#32 = false ∧ pteR 0x20000C01#32 = false ∧
      pteX 0x20000C01#32 = false := ⟨reads_at .., by decide⟩
theorem witness_ForbiddenAccessesPageFault_fetch :
    (walkAt .l0 .fetch .s).Reads (answering 0 (params .fault true) .l0 0x200044C7#32)
        (entryAt .l0 0x200044C7#32) ∧
      pteIsLeaf 0x200044C7#32 = true ∧ pteX 0x200044C7#32 = false := ⟨reads_at .., by decide⟩
theorem witness_ForbiddenAccessesPageFault_store :
    (walkAt .l0 .store .s).Reads (answering 0x000C0000#32 (params .fault true) .l0 0x2000404B#32)
        (entryAt .l0 0x2000404B#32) ∧
      pteIsLeaf 0x2000404B#32 = true ∧ pteW 0x2000404B#32 = false := ⟨reads_at .., by decide⟩
theorem witness_ForbiddenAccessesPageFault_user :
    (walkAt .l0 .load .u).Reads (answering 0 (params .fault true) .l0 0x200044C7#32)
        (entryAt .l0 0x200044C7#32) ∧
      pteIsLeaf 0x200044C7#32 = true ∧ pteU 0x200044C7#32 = false := ⟨reads_at .., by decide⟩
theorem witness_ForbiddenAccessesPageFault_supervisorFetch :
    (walkAt .l0 .fetch .s).Reads (answering 0x00040000#32 (params .fault true) .l0 0x20004C59#32)
        (entryAt .l0 0x20004C59#32) ∧
      pteIsLeaf 0x20004C59#32 = true ∧ pteU 0x20004C59#32 = true := ⟨reads_at .., by decide⟩
theorem witness_UnreadableAndUserPagesPageFault_unreadable :
    (walkAt .l0 .load .s).Reads (answering 0 (params .fault true) .l0 0x20006049#32)
        (entryAt .l0 0x20006049#32) ∧
      pteIsLeaf 0x20006049#32 = true ∧ pteR 0x20006049#32 = false ∧ msMxr 0#32 = false :=
  ⟨reads_at .., by decide⟩
theorem witness_UnreadableAndUserPagesPageFault_user :
    (walkAt .l0 .store .s).Reads (answering 0x00080000#32 (params .fault true) .l0 0x20004857#32)
        (entryAt .l0 0x20004857#32) ∧
      pteIsLeaf 0x20004857#32 = true ∧ pteU 0x20004857#32 = true ∧ msSum 0x00080000#32 = false :=
  ⟨reads_at .., by decide⟩
/-- An S-mode store under SUM to a page with U=1, A=D=1. -/
theorem witness_PermittedAccessTranslates_store :
    (walkAt .l0 .store .s).Reads (answering 0x00040000#32 (params .fault true) .l0 0x200048D7#32)
        (entryAt .l0 0x200048D7#32) ∧
      pteV 0x200048D7#32 = true ∧ pteR 0x200048D7#32 = true ∧ pteW 0x200048D7#32 = true ∧
      pteU 0x200048D7#32 = true ∧ msSum 0x00040000#32 = true ∧ pteA 0x200048D7#32 = true ∧
      pteD 0x200048D7#32 = true := ⟨reads_at .., by decide⟩
/-- A U-mode load under MXR from an execute-only page. -/
theorem witness_PermittedAccessTranslates_load :
    (walkAt .l0 .load .u).Reads (answering 0x00080000#32 (params .fault true) .l0 0x20004C59#32)
        (entryAt .l0 0x20004C59#32) ∧
      pteV 0x20004C59#32 = true ∧ pteW 0x20004C59#32 = false ∧ msMxr 0x00080000#32 = true ∧
      pteX 0x20004C59#32 = true ∧ pteU 0x20004C59#32 = true ∧ pteA 0x20004C59#32 = true :=
  ⟨reads_at .., by decide⟩
/-- An S-mode fetch from an aligned megapage. -/
theorem witness_PermittedAccessTranslates_fetch :
    (walkAt .l1 .fetch .s).Reads (answering 0 (params .fault true) .l1 0x201000CF#32)
        (entryAt .l1 0x201000CF#32) ∧
      pteV 0x201000CF#32 = true ∧ pteR 0x201000CF#32 = true ∧ pteX 0x201000CF#32 = true ∧
      pteU 0x201000CF#32 = false ∧ ptePpn0 0x201000CF#32 = 0#10 ∧ pteA 0x201000CF#32 = true :=
  ⟨reads_at .., by decide⟩
theorem witness_MisalignedSuperpageFaults :
    (walkAt .l1 .load .s).Reads (answering 0 (params .fault true) .l1 0x201004CF#32)
        (entryAt .l1 0x201004CF#32) ∧
      pteIsLeaf 0x201004CF#32 = true ∧ (walkAt .l1 .load .s).level = .l1 ∧
      ptePpn0 0x201004CF#32 ≠ 0#10 := ⟨reads_at .., by decide⟩
theorem witness_FaultSchemeRaisesOnClearBits_accessed :
    (walkAt .l0 .load .u).Reads (answering 0 (params .fault true) .l0 0x20005013#32)
        (entryAt .l0 0x20005013#32) ∧
      (params .fault true).adScheme = .fault ∧ pteIsLeaf 0x20005013#32 = true ∧
      pteA 0x20005013#32 = false := ⟨reads_at .., by decide⟩
theorem witness_FaultSchemeRaisesOnClearBits_dirty :
    (walkAt .l0 .store .u).Reads (answering 0 (params .fault true) .l0 0x20004857#32)
        (entryAt .l0 0x20004857#32) ∧
      (params .fault true).adScheme = .fault ∧ pteIsLeaf 0x20004857#32 = true ∧
      (walkAt .l0 .store .u).acc = .store ∧ pteD 0x20004857#32 = false := ⟨reads_at .., by decide⟩

/-- A load of a page with A=1 and D=0 under `Fault` (AD1). -/
theorem witness_FaultSchemeRaisesOnClearBits_succeeds :
    (walkAt .l0 .load .s).Reads (answering 0x00040000#32 (params .fault true) .l0 0x20004857#32)
        (entryAt .l0 0x20004857#32) ∧
      pteReserved (params .fault true) 0x20004857#32 = false ∧ pteIsLeaf 0x20004857#32 = true ∧
      leafPermits 0x20004857#32 .load .s (msSum 0x00040000#32) (msMxr 0x00040000#32) = true ∧
      pteA 0x20004857#32 = true ∧ pteD 0x20004857#32 = false := ⟨reads_at .., by decide⟩
theorem witness_StepSevenComparesAndWrites_held :
    (walkAt .l0 .store .u).Reads (answering 0 (params .hwUpdate true) .l0 0x20004857#32)
        (entryAt .l0 0x20004857#32) ∧
      (params .hwUpdate true).adScheme = .hwUpdate ∧ (walkAt .l0 .store .u).speculative = false ∧
      pteReserved (params .hwUpdate true) 0x20004857#32 = false ∧ pteIsLeaf 0x20004857#32 = true ∧
      leafPermits 0x20004857#32 .store .u (msSum 0#32) (msMxr 0#32) = true ∧ pteD 0x20004857#32 = false :=
  ⟨reads_at .., by decide⟩
/-- AD12: a store to a page with A=D=1. -/
theorem witness_StepSevenComparesAndWrites_complete :
    (walkAt .l0 .store .s).Reads (answering 0 (params .hwUpdate true) .l0 0x200044C7#32)
        (entryAt .l0 0x200044C7#32) ∧
      pteReserved (params .hwUpdate true) 0x200044C7#32 = false ∧ pteIsLeaf 0x200044C7#32 = true ∧
      leafPermits 0x200044C7#32 .store .s (msSum 0#32) (msMxr 0#32) = true ∧ pteA 0x200044C7#32 = true ∧
      pteD 0x200044C7#32 = true := ⟨reads_at .., by decide⟩
theorem witness_StepSevenComparesAndWrites_denied :
    pendingLoad.leaf = some 0x20005013#32 ∧ pendingLoad.speculative = false ∧
      ({ withEntry 0x20005013#32 with phys := [⟨0, 2 ^ 34, none, some .store, some true, none⟩] } : State).physOk
        pendingLoad.pteAddr 4 .store true pendingLoad.priv = false := by decide
theorem witness_StepSevenComparesAndWrites_differs :
    (withEntry 0x20007013#32).physOk pendingLoad.pteAddr 4 .store true pendingLoad.priv = true ∧
      (withEntry 0x20007013#32).mem.word pendingLoad.pteAddr = some 0x20007013#32 ∧
      0x20007013#32 ≠ 0x20005013#32 := by decide
theorem witness_StepSevenComparesAndWrites_matches :
    (withEntry 0x20005013#32).physOk pendingLoad.pteAddr 4 .store true pendingLoad.priv = true ∧
      (withEntry 0x20005013#32).mem.word pendingLoad.pteAddr = some 0x20005013#32 := by decide
/-- The compare-failure vector of spec/95 section 7. -/
theorem witness_RereadAfterFailedCompareUsesMemory :
    pendingLoad.leaf = some 0x20005013#32 ∧
      ∃ w' t, pendingLoad.step (withEntry 0x20007013#32) = (.more w', t) := ⟨by decide, _, _, rfl⟩
theorem witness_CacheIsNotUsedInStepSeven_differs :
    pendingLoad.leaf = some 0x20005013#32 ∧
      (withEntry 0x20007013#32).physOk pendingLoad.pteAddr 4 .store true pendingLoad.priv = true ∧
      (withEntry 0x20007013#32).mem.pteRead pendingLoad.speculative pendingLoad.pteAddr =
        some 0x20007013#32 := by decide
theorem witness_CacheIsNotUsedInStepSeven_matches :
    pendingLoad.leaf = some 0x20005013#32 ∧
      (withEntry 0x20005013#32).physOk pendingLoad.pteAddr 4 .store true pendingLoad.priv = true ∧
      (withEntry 0x20005013#32).mem.pteRead pendingLoad.speculative pendingLoad.pteAddr =
        some 0x20005013#32 := by decide
theorem witness_CacheIsNotUsedInStepSeven_read :
    (walkAt .l0 .load .s).leaf = none ∧
      (walkAt .l0 .load .s).cached (answering 0 (params .fault true) .l0 0x2000404B#32)
        (answering 0 (params .fault true) .l0 0x2000404B#32).nextChoice.pick =
          some (entryAt .l0 0x2000404B#32) := by decide
theorem witness_ExceptionsHaveOriginalType :
    ∃ e, ((Walk.start badRoot 0x10#32 .fetch .s false).step badRoot).1 = .raise e := ⟨_, rfl⟩
theorem pendingLoad_legal : pendingLoad.Legal (params .hwUpdate true) := by
  refine ⟨by decide, fun pte h => ?_⟩
  cases h
  exact ⟨⟨_, _, rfl, rfl⟩, by decide, by decide, by decide, by decide, by decide⟩
theorem witness_WalkWritesOnlyPteAndCache :
    pendingLoad.Legal (withEntry 0x20005013#32).cfg ∧
      (pendingLoad.step (withEntry 0x20005013#32)).2.mem ≠ (withEntry 0x20005013#32).mem :=
  ⟨pendingLoad_legal, by decide⟩
theorem witness_WalksNeverClearPteBits : (0x080001014#34 : PAddr).toNat % 4 = 0 := by decide

/-- A speculative walk is in flight, and it is its turn. -/
def specTurn : State :=
  { base with
    mem := Memory.writeWord [] 0x080000000#34 0x20000401#32
    spec := [Walk.start base 0x00005010#32 .store .u true], env := [.specStep 0], script := [⟨none, true⟩] }

theorem witness_SpeculationNeverSetsDirtyOrTraps :
    specTurn.Inv ∧ specTurn.env = [.specStep 0] ∧ ∃ t, step specTurn = .next t ∧ t.atc ≠ [] := by
  refine ⟨⟨by decide, by decide, by decide, by decide, ?_, ?_, ?_⟩, by decide, _, rfl, by decide⟩ <;>
    simp only [specTurn, base, State.reset, reduceCtorEq, false_implies, implies_true]
  intro w hw
  have : w = Walk.start base 0x00005010#32 .store .u true := List.mem_singleton.mp hw
  subst this
  exact ⟨⟨by decide, nofun⟩, rfl⟩
/-- A walk that may add no leaf entry: it adds the pointer it reads, and goes on. -/
def pointersOnly : Walk := { Walk.start base 0x00005010#32 .store .u true with leafFill := false }
theorem witness_NoWalkOutlivesItsFence_pointer :
    pointersOnly.leafFill = false ∧
      ∃ w' t, pointersOnly.step specTurn = (.more w', t) ∧ w'.leafFill = false ∧
        t.atc = [⟨0, false, .l1 0, 0x080000000#34, 0x20000401#32⟩] :=
  ⟨rfl, _, _, rfl, by decide, by decide⟩
/-- A leaf that it reads it does not add, although the choice is to keep it. -/
theorem witness_NoWalkOutlivesItsFence_leaf :
    ({ pointersOnly with level := .l0, table := 0x80001#22 } : Walk).leafFill = false ∧
      (({ pointersOnly with level := .l0, table := 0x80001#22 } : Walk).step
        { withEntry 0x200050D7#32 with script := [⟨none, true⟩] }).2.atc = [] := by decide
theorem witness_NoSpeculationWhileSatpInactive_machine :
    ({ specTurn with mode := .m } : State).mode = .m ∧ ∃ t, step { specTurn with mode := .m } = .next t :=
  ⟨rfl, _, rfl⟩
theorem witness_NoSpeculationWhileSatpInactive_bare :
    satpSv32 0x00080000#32 = false ∧
      ∃ t, step { specTurn with satp := 0x00080000#32, env := [.specStart 0#32 .load .u] } = .next t :=
  ⟨by decide, _, rfl⟩
theorem witness_CacheHoldsOnlyWhatMemoryHeld :
    ∃ t e, step specTurn = .next t ∧ e ∈ t.atc := ⟨_, _, rfl, List.mem_cons_self ..⟩
/-- The record of a leaf below a global pointer, in ASID 5 (R68). -/
theorem witness_CacheHoldsOnlyWhatMemoryHeld_record :
    ∃ o t e, ({ walkAt .l0 .load .u with va := 0x00005010#32, asid := 5#9, globalAbove := true } : Walk).step
        { withEntry 0x20005053#32 with script := [⟨none, true⟩] } = (o, t) ∧
      e ∈ t.atc ∧ e = ⟨5, true, .l0 0x00005, 0x080001014#34, 0x20005053#32⟩ :=
  ⟨_, _, _, rfl, List.mem_cons_self .., by decide⟩
theorem witness_CacheAnswersOnlyMatches :
    (walkAt .l0 .load .s).memOnly = false ∧
      (walkAt .l0 .load .s).cached (answering 0 (params .fault true) .l0 0x2000404B#32) (some 0) =
        some (entryAt .l0 0x2000404B#32) := by decide
theorem witness_WalkRefinesProcedure : base.atc = [] := by decide

theorem witness_AccessesAreTranslatedExactlyUnderSv32_bare :
    satpSv32 ({ base with satp := 0x00080000#32 } : State).satp = false := by decide
theorem witness_AccessesAreTranslatedExactlyUnderSv32_machine : running.effectiveMode .fetch = .m := by decide
/-- S-mode under Sv32, the hart at its own instruction, which spans two pages. -/
def spanning : State := { base with pc := 0x00002FFE#32 }
theorem witness_AccessesAreTranslatedExactlyUnderSv32_fetch :
    spanning.HartsTurn spanning ∧ spanning.Begins (.instr 0x00002FFE#32) spanning ∧
      satpSv32 spanning.satp = true ∧ spanning.effectiveMode .fetch ≠ .m :=
  ⟨turn_empty rfl, .inr ⟨rfl, rfl, .inl ⟨rfl, rfl⟩⟩, by decide, by decide⟩
/-- M-mode with MPRV set and MPP naming U-mode: a store is translated. -/
def mprvStore : State :=
  { base with mode := .m, mstatus := 0x00020000#32, ops := [.access ⟨.store 1, 0x00005010#32, .b4⟩] }
theorem witness_AccessesAreTranslatedExactlyUnderSv32_mprv :
    mprvStore.HartsTurn mprvStore ∧
      mprvStore.Begins (.request ⟨.store 1, 0x00005010#32, .b4⟩) { mprvStore with ops := [] } ∧
      satpSv32 mprvStore.satp = true ∧ mprvStore.effectiveMode .store ≠ .m :=
  ⟨turn_empty rfl, .inl ⟨rfl, _, _, rfl, nofun, rfl, rfl⟩, by decide, by decide⟩
/-- MODE Bare in S-mode; the last four bytes of a page. -/
def bare (k : ReqKind) : State :=
  { base with
    satp := 0x00080000#32, ops := [.access ⟨k, 0xFFFFFFFC#32, .b4⟩]
    mem := Memory.writeWord [] 0x0FFFFFFFC#34 0xAABBCCDD#32 }
theorem bare_begins (k : ReqKind) (h : ∀ d, k ≠ .sc d .failUntranslated) :
    (bare k).HartsTurn (bare k) ∧
      (bare k).Begins (.request ⟨k, 0xFFFFFFFC#32, .b4⟩) { bare k with ops := [] } :=
  ⟨turn_empty rfl, .inl ⟨rfl, _, _, rfl, h, rfl, rfl⟩⟩
theorem witness_BareAccessesUseZeroExtendedAddress_load :
    (bare .load).Begins (.request ⟨.load, 0xFFFFFFFC#32, .b4⟩) { bare .load with ops := [] } ∧
      Size.bytes .b4 ≤ 4096 - (vaPgoff 0xFFFFFFFC#32).toNat ∧
      (bare .load).translates ((bare .load).effectiveMode .load) = false ∧
      (bare .load).physOk ((0xFFFFFFFC#32).setWidth 34) 4 .load false ((bare .load).effectiveMode .load) = true ∧
      (bare .load).mem.readAll (byteAddrs ((0xFFFFFFFC#32).setWidth 34) 4) =
        some [0xDD, 0xCC, 0xBB, 0xAA] :=
  ⟨(bare_begins .load nofun).2, by decide, by decide, by decide, by decide⟩
theorem witness_BareAccessesUseZeroExtendedAddress_store :
    (bare (.store 1)).Begins (.request ⟨.store 1, 0xFFFFFFFC#32, .b4⟩) { bare (.store 1) with ops := [] } ∧
      (bare (.store 1)).translates ((bare (.store 1)).effectiveMode .store) = false ∧
      (bare (.store 1)).physOk ((0xFFFFFFFC#32).setWidth 34) 4 .store false
        ((bare (.store 1)).effectiveMode .store) = true :=
  ⟨(bare_begins (.store 1) nofun).2, by decide, by decide⟩
/-- An AMO over the end of the address space: its second piece is at address 0. -/
def bareSpan : State := { bare .load with ops := [.access ⟨.amo 1, 0xFFFFFFFE#32, .b4⟩] }
theorem witness_BareAccessesUseZeroExtendedAddress_spanning :
    bareSpan.Begins (.request ⟨.amo 1, 0xFFFFFFFE#32, .b4⟩) { bareSpan with ops := [] } ∧
      bareSpan.translates (bareSpan.effectiveMode .store) = false ∧
      (∀ p ∈ pieces 0xFFFFFFFE#32 4,
        bareSpan.physOk (p.va.setWidth 34) p.n .store false (bareSpan.effectiveMode .store) = true) ∧
      (pieces 0xFFFFFFFE#32 4).length = 2 :=
  ⟨.inl ⟨rfl, _, _, rfl, nofun, rfl, rfl⟩, by decide, by decide, by decide⟩
/-- The same access before and after it begins, where a rule denies some of it. -/
def bareDenied (rule : DenyRule) : State := { bareSpan with phys := [rule] }
def bareDeniedBegun (rule : DenyRule) : State := { bareDenied rule with ops := [] }
theorem bareDenied_begins (rule : DenyRule) :
    (bareDenied rule).HartsTurn (bareDenied rule) ∧
      (bareDenied rule).Begins (.request ⟨.amo 1, 0xFFFFFFFE#32, .b4⟩) (bareDeniedBegun rule) ∧
      satpSv32 (bareDeniedBegun rule).satp = false :=
  ⟨turn_empty rfl, .inl ⟨rfl, _, _, rfl, nofun, rfl, rfl⟩, show satpSv32 0x00080000#32 = false by decide⟩
/-- Everything denied: the page at the top of the space comes first. -/
theorem witness_AccessesAreTranslatedExactlyUnderSv32_first :
    (bareDenied ⟨0, 2 ^ 34, none, none, none, none⟩).Begins (.request ⟨.amo 1, 0xFFFFFFFE#32, .b4⟩)
        (bareDeniedBegun ⟨0, 2 ^ 34, none, none, none, none⟩) ∧
      (bareDeniedBegun ⟨0, 2 ^ 34, none, none, none, none⟩).FirstDenied
        (.request ⟨.amo 1, 0xFFFFFFFE#32, .b4⟩) ⟨0xFFFFFFFE#32, 2⟩ :=
  ⟨(bareDenied_begins _).2.1, [], [⟨0#32, 2⟩], by decide, by decide, by decide⟩
/-- Page 0 denied: the second piece is the first that fails. -/
theorem witness_AccessesAreTranslatedExactlyUnderSv32_second :
    (bareDenied ⟨0, 4096, none, none, none, none⟩).Begins (.request ⟨.amo 1, 0xFFFFFFFE#32, .b4⟩)
        (bareDeniedBegun ⟨0, 4096, none, none, none, none⟩) ∧
      (bareDeniedBegun ⟨0, 4096, none, none, none, none⟩).FirstDenied
        (.request ⟨.amo 1, 0xFFFFFFFE#32, .b4⟩) ⟨0#32, 2⟩ :=
  ⟨(bareDenied_begins _).2.1, [⟨0xFFFFFFFE#32, 2⟩], [], by decide, by decide, by decide⟩
/-- The hart's own fetch in M-mode, its page out of reach. -/
def runDenied : State := { running with phys := [⟨0, 4096, none, some .fetch, none, none⟩] }
theorem witness_AccessesAreTranslatedExactlyUnderSv32_ownFetch :
    runDenied.HartsTurn runDenied ∧ runDenied.Begins (.instr 0x100#32) runDenied ∧
      runDenied.effectiveMode .fetch = .m ∧ runDenied.FirstDenied (.instr 0x100#32) ⟨0x100#32, 4⟩ :=
  ⟨turn_empty rfl, .inr ⟨rfl, rfl, .inl ⟨rfl, rfl⟩⟩, by decide, [], [], by decide, by decide, by decide⟩
/-- PABITS = 20, an AMO at the first address beyond. -/
def narrow : State :=
  { base with
    mode := .m, cfg := { params .hwUpdate true with pabits := 20 }
    ops := [.access ⟨.amo 1, 0x00100000#32, .b4⟩] }
theorem witness_AddressBeyondPabitsFaults_check : 2 ^ narrow.cfg.pabits ≤ (0x000100000#34 : PAddr).toNat := by decide
/-- A root table at the first address beyond, and a walk that has translated to one. -/
theorem witness_AddressBeyondPabitsFaults_walk :
    2 ^ narrow.cfg.pabits ≤
      (Walk.start { narrow with satp := 0x80000100#32 } 0#32 .load .s false).pteAddr.toNat := by decide
def narrowWalk : State :=
  { answering 0 { params .hwUpdate true with pabits := 32 } .l1 0xFFF000C7#32 with
    access := some ⟨.request ⟨.load, 0#32, .b4⟩, .walking (walkAt .l1 .load .s) 4 [] []⟩ }
theorem witness_AddressBeyondPabitsFaults_translated :
    narrowWalk.HartsTurn narrowWalk ∧
      (∃ u', (walkAt .l1 .load .s).step narrowWalk = (.done 0x3FFC00000#34, u')) ∧
      2 ^ narrowWalk.cfg.pabits ≤ (0x3FFC00000#34 : PAddr).toNat := ⟨turn_empty rfl, ⟨_, rfl⟩, by decide⟩
theorem witness_AddressBeyondPabitsFaults_bare :
    narrow.HartsTurn narrow ∧
      narrow.Begins (.request ⟨.amo 1, 0x00100000#32, .b4⟩) { narrow with ops := [] } ∧
      narrow.translates (narrow.effectiveMode .store) = false ∧
      ⟨0x00100000#32, 4⟩ ∈ pieces 0x00100000#32 4 ∧
      2 ^ narrow.cfg.pabits ≤ (0x00100000#32).toNat :=
  ⟨turn_empty rfl, .inl ⟨rfl, _, _, rfl, nofun, rfl, rfl⟩, by decide, by decide, by decide⟩
/-- The second piece of the hart's own fetch lies beyond. -/
theorem witness_AddressBeyondPabitsFaults_second :
    ({ narrow with ops := [], pc := 0x000FFFFE#32 } : State).Begins (.instr 0x000FFFFE#32)
        { narrow with ops := [], pc := 0x000FFFFE#32 } ∧
      ⟨0x00100000#32, 2⟩ ∈ pieces 0x000FFFFE#32 4 :=
  ⟨.inr ⟨rfl, rfl, .inl ⟨rfl, rfl⟩⟩, by decide⟩
theorem narrow_inv : narrow.Inv := by
  refine ⟨by decide, by decide, by decide, by decide, ?_, ?_, ?_⟩ <;> simp [narrow, base, State.reset]
theorem witness_FaultsHaveOriginalAccessType_asked :
    narrow.Inv ∧ narrow.HartsTurn narrow ∧
      (∃ v, narrow.Begins (.request ⟨.amo 1, 0x00100000#32, .b4⟩) v) ∧
      ∃ t, step narrow = .next t ∧ t.replies = [.faulted ⟨.accessFault, .store, 0x00100000#32⟩] :=
  ⟨narrow_inv, turn_empty rfl, ⟨_, .inl ⟨rfl, _, _, rfl, nofun, rfl, rfl⟩⟩, _, rfl, rfl⟩

/-- A walk of an AMO in progress, about to read a root entry with V=0. -/
def amoWalking : State :=
  { badRoot with access := some ⟨.request ⟨.amo 1, 0x10#32, .b4⟩,
      .walking (Walk.start badRoot 0x10#32 .store .s false) 4 [] []⟩ }
theorem witness_FaultsHaveOriginalAccessType_walking :
    amoWalking.HartsTurn amoWalking ∧ (∃ ph, amoWalking.access = some ⟨.request ⟨.amo 1, 0x10#32, .b4⟩, ph⟩) ∧
      ∃ t, step amoWalking = .next t ∧
        t.replies = amoWalking.replies ++ [.faulted ⟨.pageFault, .store, 0x10#32⟩] :=
  ⟨turn_empty rfl, ⟨_, rfl⟩, _, rfl, rfl⟩
theorem witness_PageFaultingAccessWritesNothing :
    ∃ t, step amoWalking = .next t ∧
      t.replies = amoWalking.replies ++ [.faulted ⟨.pageFault, .store, 0x10#32⟩] := ⟨_, rfl, rfl⟩
/-- The compare-and-write of a load that lies in two pages, its second piece still to come. -/
def updating : State :=
  { withEntry 0x20005013#32 with
    access := some ⟨.request ⟨.load, 0x00005010#32, .b4⟩, .walking pendingLoad 4 [⟨0x00006000#32, 2⟩] []⟩ }
theorem witness_PteUpdateAndAccessAreSeparate_walk :
    updating.HartsTurn updating ∧ ∃ t, step updating = .next t := ⟨turn_empty rfl, _, rfl⟩
theorem witness_PteUpdateAndAccessAreSeparate_interrupt :
    ({ asking .load (.ready dataPiece) with env := [.interrupt] } : State).env = [.interrupt] ∧
      (asking .load (.ready dataPiece)).access =
        some ⟨.request ⟨.load, 0x00005010#32, .b4⟩, .ready dataPiece⟩ := by decide
theorem witness_PteUpdateAndAccessAreSeparate_instr :
    ({ fetched 0x12628073#32 with env := [.interrupt] } : State).env = [.interrupt] ∧
      (fetched 0x12628073#32).access = some ⟨.instr 0x00001234#32, .ready [⟨0x080010234#34, 4⟩]⟩ := by decide

/-- The same walk with every translated page out of reach. -/
def denied : State :=
  { withEntry 0x20005013#32 with phys := [⟨0x080014000, 0x080015000, none, none, some false, none⟩] }
theorem witness_FinalCheckFollowsTranslation_passes :
    ∃ s', pendingLoad.step (withEntry 0x20005013#32) = (.done 0x080014010#34, s') ∧
      s'.physOk 0x080014010#34 4 pendingLoad.acc false pendingLoad.priv = true := ⟨_, rfl, by decide⟩
theorem witness_FinalCheckFollowsTranslation_second :
    updating.HartsTurn updating ∧
      ∃ s', pendingLoad.step updating = (.done 0x080014010#34, s') ∧
        s'.physOk 0x080014010#34 4 pendingLoad.acc false pendingLoad.priv = true :=
  ⟨turn_empty rfl, _, rfl, by decide⟩
/-- A state with the walk in progress for the given goal. -/
def walkingFor (s : State) (g : Goal) (w : Walk) : State := { s with access := some ⟨g, .walking w 4 [] []⟩ }
theorem witness_FinalCheckFollowsTranslation_fails (g : Goal) :
    (walkingFor denied g pendingLoad).HartsTurn (walkingFor denied g pendingLoad) ∧
      ∃ s', pendingLoad.step (walkingFor denied g pendingLoad) = (.done 0x080014010#34, s') ∧
        s'.physOk 0x080014010#34 4 pendingLoad.acc false pendingLoad.priv = false :=
  ⟨turn_empty rfl, _, rfl, show denied.physOk 0x080014010#34 4 .load false .u = false by decide⟩
/-- A root entry with V=0, for a request and for the hart's own fetch. -/
theorem witness_FinalCheckFollowsTranslation_raises :
    amoWalking.HartsTurn amoWalking ∧
      ∃ e s', (Walk.start badRoot 0x10#32 .store .s false).step amoWalking = (.raise e, s') :=
  ⟨turn_empty rfl, _, _, rfl⟩
theorem witness_FinalCheckFollowsTranslation_ownFetch :
    (fun s : State => s.HartsTurn s ∧
        ∃ e s', (Walk.start badRoot 0x10#32 .fetch .s false).step s = (.raise e, s'))
      (walkingFor badRoot (.instr 0x10#32) (Walk.start badRoot 0x10#32 .fetch .s false)) :=
  ⟨turn_empty rfl, _, _, rfl⟩
theorem witness_FinalCheckFollowsTranslation_goesOn :
    ∃ w' s', pendingLoad.step (walkingFor (withEntry 0x20007013#32) (.instr 0x10#32) pendingLoad) =
      (.more w', s') := ⟨_, _, rfl⟩
theorem witness_FinalCheckFollowsTranslation_unwritten :
    ∃ s', (walkAt .l0 .load .s).step (walkingFor badRoot (.instr 0x10#32) (walkAt .l0 .load .s)) =
      (.unwritten, s') := ⟨_, rfl⟩
/-- A translated request of the given kind, with data at its piece. -/
def readyTo (k : ReqKind) : State :=
  { asking k (.ready dataPiece) with mem := Memory.writeWord [] 0x080014010#34 0x44332211#32 }
/-- A fetch, a load, a load-reserved and an AMO meet what is asked of them. -/
theorem witness_ReadyAccessesArePerformed_reads (k : ReqKind) :
    (readyTo k).HartsTurn (readyTo k) ∧
      (readyTo k).access = some ⟨.request ⟨k, 0x00005010#32, .b4⟩, .ready dataPiece⟩ ∧
      (readyTo k).mem.readAll (pieceAddrs dataPiece) = some [0x11, 0x22, 0x33, 0x44] ∧
      dataPiece = ⟨0x080014010#34, 4⟩ :: [] := by
  refine ⟨turn_empty rfl, rfl, ?_, rfl⟩
  show (Memory.writeWord [] 0x080014010#34 0x44332211#32).readAll (pieceAddrs dataPiece) = _
  decide
theorem witness_ReadyAccessesArePerformed_unwritten :
    (asking (.amo 7) (.ready dataPiece)).mem.readAll (pieceAddrs dataPiece) = none := by decide
theorem witness_ReadyAccessesArePerformed_store :
    (asking (.store 7) (.ready dataPiece)).HartsTurn (asking (.store 7) (.ready dataPiece)) ∧
      (asking (.store 7) (.ready dataPiece)).access =
        some ⟨.request ⟨.store 7, 0x00005010#32, .b4⟩, .ready dataPiece⟩ ∧
      (pieceAddrs dataPiece).Nodup ∧ (pieceAddrs dataPiece).length = Size.bytes .b4 :=
  ⟨turn_empty rfl, rfl, by decide, by decide⟩
theorem witness_StoreConditionalUsesReservation_held :
    (asking (.sc 7 .succeed) (.ready dataPiece)).HartsTurn (asking (.sc 7 .succeed) (.ready dataPiece)) ∧
      (asking (.sc 7 .succeed) (.ready dataPiece)).access =
        some ⟨.request ⟨.sc 7 .succeed, 0x00005010#32, .b4⟩, .ready dataPiece⟩ ∧
      ∀ a ∈ pieceAddrs dataPiece, 0x080014010 ≤ a ∧ a < 0x080014014 :=
  ⟨turn_empty rfl, rfl, by decide⟩
/-- A reservation one byte short. -/
theorem witness_StoreConditionalUsesReservation_short :
    ∃ a ∈ pieceAddrs dataPiece, a < 0x080014010 ∨ 0x080014013 ≤ a := by decide
/-- A load-reserved of the last four bytes of a page, asked for a wide reservation. -/
theorem witness_ReservationStaysInOnePage :
    base.reservation = none ∧
      ∃ t r, step { asking (.lr 5000 5000) (.ready [⟨0x080014FFC#34, 4⟩]) with
          mem := Memory.writeWord [] 0x080014FFC#34 1#32 } = .next t ∧
        t.reservation = some r ∧ r.lo = 0x080014000 ∧ r.hi = 0x080015000 :=
  ⟨by decide, _, _, rfl, rfl, by decide, by decide⟩
theorem witness_PiecesStayInsidePages :
    0 < 4096 ∧ 4096 ≤ 4096 ∧ pieces 0x00002FFE#32 4 = [⟨0x00002FFE#32, 2⟩, ⟨0x00003000#32, 2⟩] := by decide

theorem witness_RegisterZeroIsHardwired : 31 < 32 ∧ 31 ≠ 0 := by decide
def satpWrite : State := { base with ops := [.csrWrite .satp 0xFFFFFFFF#32] }
theorem witness_SatpWriteKeepsCache :
    satpWrite.HartsTurn satpWrite ∧ satpWrite.access = none ∧
      satpWrite.ops = [.csrWrite .satp 0xFFFFFFFF#32] := ⟨turn_empty rfl, rfl, rfl⟩
theorem witness_EffectiveModeOfAccesses_mprv :
    (fun s : State => s.mode = .m ∧ msMprv s.mstatus = true ∧ msMpp s.mstatus = Mode.bits .s)
      { running with mstatus := 0x00020800#32 } := by decide
theorem witness_EffectiveModeOfAccesses_current : base.mode ≠ .m := by decide
theorem witness_ExceptionEntry_machine : base.mode ≠ .m ∧ base.medeleg.getLsbD 13 = false := by decide
theorem witness_ExceptionEntry_delegated :
    (fun s : State => s.mode ≠ .m ∧ s.medeleg.getLsbD (Exn.cause ⟨.pageFault, .load, 0#32⟩) = true)
      { base with medeleg := 0x00002000#32 } := by decide
theorem witness_ReturnsUndoTraps : base.mode ≠ .m := by decide

end Sys2Proof.Machine.Tests
end

section
/-! PROOFS. The state and its invariant: what a step may do to the configuration, to memory, to the status word,
to `satp`, to the reservation and to the walks in flight. -/

namespace Sys2Proof.Machine

/-! ## The status word -/

/-- A bit of `mstatus` after a write through `sstatus`: the written one where `sstatus` shows it (R7). -/
theorem getLsbD_setCsr_sstatus (s : State) (v : Word) (i : Nat) :
    (s.setCsr .sstatus v).mstatus.getLsbD i =
      if sstatusMask.getLsbD i then v.getLsbD i else s.mstatus.getLsbD i := by
  simp only [State.setCsr, BitVec.getLsbD_or, BitVec.getLsbD_and, BitVec.getLsbD_not]
  by_cases hi : i < 32
  · cases sstatusMask.getLsbD i <;> simp [hi]
  · simp [BitVec.getLsbD_of_ge _ i (Nat.le_of_not_lt hi)]

/-- A bit outside MPP is written to `mstatus` as it stands. -/
theorem getLsbD_legalMstatus (old w : Word) {i : Nat} (h11 : i ≠ 11) (h12 : i ≠ 12) :
    (legalMstatus old w).getLsbD i = w.getLsbD i := by
  unfold legalMstatus
  split
  · simp [withMpp, h11, h12]
  · rfl

/-- A write of `mstatus` keeps MPP the number of a mode. -/
theorem msMpp_legalMstatus {old : Word} (h : msMpp old ≠ 2#2) (w : Word) :
    msMpp (legalMstatus old w) ≠ 2#2 := by
  unfold legalMstatus
  split
  · simpa using h
  · assumption

/-- `sstatus` does not show MPP (R48). -/
theorem msMpp_setCsr_sstatus (s : State) (v : Word) :
    msMpp (s.setCsr .sstatus v).mstatus = msMpp s.mstatus :=
  msMpp_eq_of_bits (by rw [getLsbD_setCsr_sstatus, if_neg (by decide)])
    (by rw [getLsbD_setCsr_sstatus, if_neg (by decide)])

theorem msMpp_setCsr {s : State} (h : msMpp s.mstatus ≠ 2#2) (c : Csr) (v : Word) :
    msMpp (s.setCsr c v).mstatus ≠ 2#2 := by
  cases c
  case mstatus => exact msMpp_legalMstatus h v
  case sstatus => rwa [msMpp_setCsr_sstatus]
  all_goals exact h

theorem msMpp_sret (s : State) : msMpp s.sret.mstatus = msMpp s.mstatus := by
  simp [msMpp_withBit]

theorem msMpp_mret (s : State) : msMpp s.mret.mstatus = 0#2 := by
  simp [msMpp_withBit]

/-- Settles O56, bit by bit: SUM and MXR are bits `sstatus` shows, and lie outside MPP. -/
theorem sumAndMxrUnderBothNames : Obligations.SumAndMxrUnderBothNames := by
  intro s v
  refine ⟨?_, ?_, ?_, ?_, ?_, ?_⟩
  · simp [State.csr, msSum, sstatusMask]
  · simp [State.csr, msMxr, sstatusMask]
  · rw [msSum, getLsbD_setCsr_sstatus, if_pos (by decide)]
  · rw [msMxr, getLsbD_setCsr_sstatus, if_pos (by decide)]
  · exact getLsbD_legalMstatus _ _ (by decide) (by decide)
  · exact getLsbD_legalMstatus _ _ (by decide) (by decide)

/-- Settles O57, by whether MPRV acts in the current mode. -/
theorem effectiveModeOfAccesses : Obligations.EffectiveModeOfAccesses := by
  intro s
  refine ⟨rfl, fun acc hacc => ⟨fun h => ?_, fun p hm hv hp => ?_⟩⟩
  · have hoff : ¬ ((s.mode = .m && msMprv s.mstatus) = true) := by
      rcases h with h | h <;> simp [h]
    cases acc
    case fetch => rfl
    all_goals exact if_neg hoff
  · have hon : (s.mode = .m && msMprv s.mstatus) = true := by simp [hm, hv]
    have hmode : modeOfBits (msMpp s.mstatus) = p := by rw [hp, modeOfBits_bits]
    cases acc
    case fetch => exact absurd rfl hacc
    all_goals exact (if_pos hon).trans hmode

/-! ## One memory event of a walk -/

/-! The fields a walk does not write, read off the frame (R17). -/

theorem SameButWalk.eq {s t : State} (h : SameButWalk s t) :
    t = { s with mem := t.mem, atc := t.atc, script := t.script, draws := t.draws } := h

theorem SameButWalk.pc {s t : State} (h : SameButWalk s t) : t.pc = s.pc :=
  (congrArg State.pc h.eq).trans rfl
theorem SameButWalk.cfg {s t : State} (h : SameButWalk s t) : t.cfg = s.cfg :=
  (congrArg State.cfg h.eq).trans rfl
theorem SameButWalk.mstatus {s t : State} (h : SameButWalk s t) : t.mstatus = s.mstatus :=
  (congrArg State.mstatus h.eq).trans rfl
theorem SameButWalk.satp {s t : State} (h : SameButWalk s t) : t.satp = s.satp :=
  (congrArg State.satp h.eq).trans rfl
theorem SameButWalk.reservation {s t : State} (h : SameButWalk s t) : t.reservation = s.reservation :=
  (congrArg State.reservation h.eq).trans rfl
theorem SameButWalk.spec {s t : State} (h : SameButWalk s t) : t.spec = s.spec :=
  (congrArg State.spec h.eq).trans rfl
theorem SameButWalk.access {s t : State} (h : SameButWalk s t) : t.access = s.access :=
  (congrArg State.access h.eq).trans rfl

/-- `Walk.step_same` for an event whose outcome is at hand. -/
theorem Walk.same_of_step {w : Walk} {s s' : State} {o : WalkOut} (h : w.step s = (o, s')) :
    SameButWalk s s' := by
  have := w.step_same s
  rwa [h] at this

/-- A leaf that waits for step 7 may be written only where the scheme is to set A and D (R73, R74). -/
theorem Walk.adScheme_of_adStops {w : Walk} {cfg : Config} {pte : Word} (h : w.adStops cfg pte = false) :
    cfg.adScheme = .hwUpdate := by
  cases hs : cfg.adScheme with
  | hwUpdate => rfl
  | fault => simp [Walk.adStops, hs] at h

/-- Settles O35: the frame is `Walk.step_same`; where memory changes, the event is step 7's on a legal leaf. -/
theorem walkWritesOnlyPteAndCache : Obligations.WalkWritesOnlyPteAndCache := by
  intro w s t o hlegal hstep
  refine ⟨Walk.same_of_step hstep, fun hne => ?_⟩
  rcases w.step_mem s with hmem | ⟨pte, hleaf, _, hread, hmem, _⟩ <;> rw [hstep] at hmem
  · exact absurd hmem hne
  · simp only at hmem
    obtain ⟨_, _, _, _, _, hstops⟩ := hlegal.2 pte hleaf
    refine ⟨Walk.adScheme_of_adStops hstops, ?_, fun a ha => ?_⟩
    · rw [hmem, Memory.wordFree_of_word (Memory.word_writeWord_same ..), Memory.wordFree_of_pteRead hread]
    · rw [hmem, Memory.read_writeWord_ne]
      intro hin
      obtain ⟨i, hi, rfl⟩ := mem_byteAddrs_four.mp hin
      exact ha i hi rfl

/-- A walk just started for S or U is legal: no leaf waits for step 7. -/
theorem Walk.start_legal (cfg : Config) (s : State) (va : Word) (acc : Acc) {priv : Mode} (sp : Bool)
    (h : priv ≠ .m) : (Walk.start s va acc priv sp).Legal cfg :=
  ⟨h, nofun⟩

/-- A walk that steps 3 to 8 send on is legal: a pointer leaves no leaf, and a leaf has passed its tests. -/
theorem Walk.legal_of_judge {w w' : Walk} {s : State} {e : AtcEntry} (hw : w.priv ≠ .m)
    (hl : w.leaf = none) (h : w.judge s e = .more w') : w'.Legal s.cfg := by
  rcases w.judge_cases s e with hj | ⟨_, _, hj⟩ | ⟨hres, hleaf, _, hal, ⟨hn, ha, hj⟩ | ⟨_, hj⟩⟩ <;>
    rw [hj] at h <;> cases h
  · refine ⟨hw, fun pte hp => ?_⟩
    rw [hl] at hp
    cases hp
  · refine ⟨hw, fun pte hp => ?_⟩
    cases hp
    exact ⟨⟨e, w.held, rfl, rfl⟩, hres, hleaf, hal, hn, ha⟩

/-- Going on, a legal walk stays legal; after a failed compare no leaf waits (R88). -/
theorem Walk.Legal.step_more {w w' : Walk} {s s' : State} (hw : w.Legal s.cfg)
    (h : w.step s = (.more w', s')) : w'.Legal s.cfg := by
  unfold Walk.step at h
  split at h
  · next hl =>
    rcases w.readStep_cases s with ⟨_, h'⟩ | ⟨_, ⟨e, _, h'⟩ | ⟨_, ⟨_, h'⟩ | ⟨pte, _, h'⟩⟩⟩ <;>
      rw [h'] at h <;> simp only [Prod.mk.injEq] at h
    · cases h.1
    · exact Walk.legal_of_judge hw.1 hl h.1
    · cases h.1
    · exact Walk.legal_of_judge hw.1 hl h.1
  · next pte _ =>
    rcases w.updateStep_cases s pte with ⟨_, h'⟩ | ⟨_, ⟨_, h'⟩ | ⟨_, h'⟩ | ⟨_, _, _, h'⟩⟩ <;>
      rw [h'] at h <;> cases h
    exact ⟨hw.1, nofun⟩

/-! ## What a step keeps of the registers and of memory -/

/-- From `s` to `t` the parameters stand, and each clause of the invariant about memory, the status word, `satp`
and the reservation is kept. -/
structure Keeps (s t : State) : Prop where
  cfg : t.cfg = s.cfg
  mem : s.mem.wf = true → t.mem.wf = true
  mpp : msMpp s.mstatus ≠ 2#2 → msMpp t.mstatus ≠ 2#2
  satp : legalSatp s.cfg.asidLen s.satp = s.satp → legalSatp t.cfg.asidLen t.satp = t.satp
  reservation : (∀ r, s.reservation = some r → r.InOnePage) → ∀ r, t.reservation = some r → r.InOnePage

/-- The same, and no walk joins the speculative ones in flight. -/
structure KeepsFlight (s t : State) : Prop extends Keeps s t where
  flight : t.spec ⊆ s.spec

theorem KeepsFlight.of_eq {s t : State} (hc : t.cfg = s.cfg) (hm : t.mem = s.mem)
    (hs : t.mstatus = s.mstatus) (hp : t.satp = s.satp) (hr : t.reservation = s.reservation)
    (hf : t.spec = s.spec) : KeepsFlight s t where
  cfg := hc
  mem := by rw [hm]; exact id
  mpp := by rw [hs]; exact id
  satp := by rw [hc, hp]; exact id
  reservation := by rw [hr]; exact id
  flight := by rw [hf]; exact List.Subset.refl _

theorem KeepsFlight.trans {s t u : State} (h : KeepsFlight s t) (k : KeepsFlight t u) : KeepsFlight s u where
  cfg := k.cfg.trans h.cfg
  mem := k.mem ∘ h.mem
  mpp := k.mpp ∘ h.mpp
  satp := k.satp ∘ h.satp
  reservation := k.reservation ∘ h.reservation
  flight := List.Subset.trans k.flight h.flight

theorem KeepsFlight.refl (s : State) : KeepsFlight s s := .of_eq rfl rfl rfl rfl rfl rfl

/-- The access in progress is none of these fields. -/
theorem KeepsFlight.withAccess {s t : State} (h : KeepsFlight s t) (a : Option Access) :
    KeepsFlight s { t with access := a } :=
  h.trans (.of_eq rfl rfl rfl rfl rfl rfl)

/-- Nor is the hart's program. -/
theorem KeepsFlight.withOps {s t : State} (h : KeepsFlight s t) (ops : List HartOp) :
    KeepsFlight s { t with ops := ops } :=
  h.trans (.of_eq rfl rfl rfl rfl rfl rfl)

/-- An access begins by taking its act off the program. -/
theorem State.Begins.keeps {s u : State} {g : Goal} (h : s.Begins g u) : KeepsFlight s u := by
  obtain ⟨_, ops, rfl⟩ := h.eq_ops
  exact (KeepsFlight.refl s).withOps ops

theorem setMem_keeps {s : State} {m : Memory} (h : s.mem.wf = true → m.wf = true) :
    KeepsFlight s (s.setMem m) where
  cfg := rfl
  mem := h
  mpp := id
  satp := id
  reservation := id
  flight := List.Subset.refl _

/-- A memory event of a walk writes at most one word of memory. -/
theorem Walk.step_keeps {w : Walk} {s s' : State} {o : WalkOut} (h : w.step s = (o, s')) :
    KeepsFlight s s' := by
  have hsame := Walk.same_of_step h
  have hmem : s.mem.wf = true → s'.mem.wf = true := fun hwf => by
    rcases w.step_mem s with hm | ⟨_, _, _, _, hm, _⟩ <;> rw [h] at hm <;> rw [hm]
    · exact hwf
    · exact Memory.wf_writeWord hwf _ _
  exact (setMem_keeps hmem).trans
    (.of_eq hsame.cfg rfl hsame.mstatus hsame.satp hsame.reservation hsame.spec)

theorem takeException_keeps (s : State) (c : Nat) (v : Word) : KeepsFlight s (s.takeException c v) where
  cfg := by simp
  mem := by simp
  mpp := fun h => State.msMpp_takeException h c v
  satp := by simp
  reservation := by simp
  flight := by simp

theorem takeExn_keeps (s : State) (e : Exn) : KeepsFlight s (s.takeExn e) :=
  takeException_keeps s e.cause e.va

theorem takeIllegal_keeps (s : State) : KeepsFlight s s.takeIllegal :=
  have draw : KeepsFlight s { s with draws := s.draws + 1 } := .of_eq rfl rfl rfl rfl rfl rfl
  draw.trans (takeException_keeps _ _ _)

theorem reply_keeps (s : State) (r : Reply) : KeepsFlight s (s.reply r) := .of_eq rfl rfl rfl rfl rfl rfl

theorem failAccess_keeps {s t : State} {g : Goal} {e : Exn} (h : failAccess s g e = .out (.next t)) :
    KeepsFlight s t := by
  rcases failAccess_cases s g e with ⟨_, _, hf⟩ | ⟨_, _, hf⟩ <;> rw [hf] at h <;> cases h
  · exact takeExn_keeps s e
  · exact (reply_keeps s _).trans (takeExn_keeps _ e)

/-- The fence ends the walks in flight, and starts none (R110). -/
theorem fence_keeps (s : State) (a : AddrSel) (i : AsidSel) : KeepsFlight s (s.fence a i) where
  cfg := by simp
  mem := by simp
  mpp := by simp
  satp := by simp
  reservation := by simp
  flight := by simp

theorem exec_sfenceVma (rs1 rs2 : Nat) (s : State) :
    exec (.sfenceVma rs1 rs2) s = execSfenceVma rs1 rs2 s := rfl

/-- Executing the one instruction either fences and moves the pc, or takes an exception (R110, R115). -/
theorem exec_next {i : Instr} {s t : State} (h : exec i s = .next t) :
    (∃ a asid, t = (s.fence a asid).advancePc 4#32) ∨ t = s.takeIllegal := by
  obtain ⟨rs1, rs2⟩ := i
  rw [exec_sfenceVma] at h
  rcases execSfenceVma_cases rs1 rs2 s with ⟨_, hx⟩ | ⟨_, hx⟩ <;> rw [hx] at h <;> cases h
  · exact .inl ⟨_, _, rfl⟩
  · exact .inr rfl

theorem exec_keeps {i : Instr} {s t : State} (h : exec i s = .next t) : KeepsFlight s t := by
  rcases exec_next h with ⟨a, asid, rfl⟩ | rfl
  · exact (fence_keeps s a asid).trans (.of_eq rfl rfl rfl rfl rfl rfl)
  · exact takeIllegal_keeps s

/-- `performRequest_cases` for a request that is answered. -/
theorem performRequest_next {s t : State} {r : Request} {ps : List PhysPiece}
    (h : performRequest s r ps = .out (.next t)) :
    SameButData s t ∧
      (t.mem = s.mem ∨ ∃ bs, t.mem = s.mem.writeAll ((pieceAddrs ps).zip bs)) ∧
      (t.reservation = s.reservation ∨ t.reservation = none ∨
        ∃ a b, t.reservation = reservationOf ps a b) := by
  rcases performRequest_cases s r ps with hf | ⟨u, hu, hsame, hmem, hres, _⟩
  · rw [hf] at h; cases h
  · rw [hu] at h
    cases h
    exact ⟨hsame, hmem.imp_right fun ⟨_, _, hm⟩ => ⟨_, hm⟩, hres⟩

/-! The fields a request does not write, read off the frame. -/

theorem SameButData.eq {s t : State} (h : SameButData s t) :
    t = { s with mem := t.mem, reservation := t.reservation, replies := t.replies } := h

theorem SameButData.cfg {s t : State} (h : SameButData s t) : t.cfg = s.cfg :=
  (congrArg State.cfg h.eq).trans rfl
theorem SameButData.mstatus {s t : State} (h : SameButData s t) : t.mstatus = s.mstatus :=
  (congrArg State.mstatus h.eq).trans rfl
theorem SameButData.satp {s t : State} (h : SameButData s t) : t.satp = s.satp :=
  (congrArg State.satp h.eq).trans rfl
theorem SameButData.spec {s t : State} (h : SameButData s t) : t.spec = s.spec :=
  (congrArg State.spec h.eq).trans rfl
theorem SameButData.access {s t : State} (h : SameButData s t) : t.access = s.access :=
  (congrArg State.access h.eq).trans rfl

/-- A request stores at its translated bytes only, and a load-reserved reserves inside one page (R16). -/
theorem performRequest_keeps {s t : State} {r : Request} {ps : List PhysPiece}
    (h : performRequest s r ps = .out (.next t)) : KeepsFlight s t := by
  obtain ⟨hsame, hmem, hres⟩ := performRequest_next h
  have hwf : s.mem.wf = true → t.mem.wf = true := fun hwf => by
    rcases hmem with hm | ⟨bs, hm⟩ <;> rw [hm]
    · exact hwf
    · exact Memory.wf_writePieces hwf ps bs
  have hpage : (∀ r, s.reservation = some r → r.InOnePage) → ∀ r, t.reservation = some r → r.InOnePage := by
    intro hs r hr
    rcases hres with ht | ht | ⟨a, b, ht⟩ <;> rw [ht] at hr
    · exact hs r hr
    · cases hr
    · exact reservationOf_inOnePage hr
  have hbase := KeepsFlight.of_eq (s := s) (t := { t with mem := s.mem, reservation := s.reservation })
    hsame.cfg rfl hsame.mstatus hsame.satp rfl hsame.spec
  exact { hbase with mem := hwf, reservation := hpage }

/-! ## Control registers and the enclosing hart's acts -/

/-- No control register is a parameter; `satp` is written in its legal form and MPP stays a mode's number. -/
theorem setCsr_keeps (s : State) (c : Csr) (v : Word) : KeepsFlight s (s.setCsr c v) where
  cfg := by simp
  mem := by simp
  mpp := fun h => msMpp_setCsr h c v
  satp := fun h => by
    cases c
    case satp => exact legalSatp_idem _ v
    all_goals exact h
  reservation := by simp
  flight := by simp

theorem setReg_keeps (s : State) (r : Nat) (v : Word) : KeepsFlight s (s.setReg r v) :=
  .of_eq (by simp) (by simp) (by simp) (by simp) (by simp) (by simp)

theorem sret_keeps (s : State) : KeepsFlight s s.sret where
  cfg := rfl
  mem := id
  mpp := fun h => by rwa [msMpp_sret]
  satp := id
  reservation := id
  flight := List.Subset.refl _

theorem mret_keeps (s : State) : KeepsFlight s s.mret where
  cfg := rfl
  mem := id
  mpp := fun _ => by rw [msMpp_mret]; decide
  satp := id
  reservation := id
  flight := List.Subset.refl _

theorem dropReservation_keeps (s : State) : KeepsFlight s { s with reservation := none } where
  cfg := rfl
  mem := id
  mpp := id
  satp := id
  reservation := fun _ => nofun
  flight := List.Subset.refl _

section
variable {s t : State} {op : HartOp} (hi : op ≠ .instr)
  (hop : (∀ r, op ≠ .access r) ∨ ∃ r v, op = .access r ∧ r.kind = .sc v .failUntranslated)
  (h : hartOp s op = .out (.next t))
include hi hop h

theorem hartOp_keeps : KeepsFlight s t := by
  rcases hartOp_cases hi hop h with ⟨c, v, _, rfl⟩ | ⟨_, _, rfl⟩ | ⟨r, v, _, rfl⟩ | ⟨_, _, rfl⟩ |
    ⟨_, _, rfl⟩ | ⟨_, rfl⟩ | ⟨c, v, _, rfl⟩ | ⟨_, rfl⟩ | ⟨_, rfl⟩ | ⟨_, _, _, _, rfl⟩
  · exact setCsr_keeps s c v
  · exact reply_keeps s _
  · exact setReg_keeps s r v
  · exact .of_eq rfl rfl rfl rfl rfl rfl
  · exact .of_eq rfl rfl rfl rfl rfl rfl
  · exact dropReservation_keeps s
  · exact takeException_keeps s c v
  · exact sret_keeps s
  · exact mret_keeps s
  · exact (dropReservation_keeps s).trans (reply_keeps _ _)

/-- No act of the enclosing hart but an access puts one in progress. -/
theorem hartOp_access : t.access = s.access := by
  rcases hartOp_cases hi hop h with ⟨c, v, _, rfl⟩ | ⟨_, _, rfl⟩ | ⟨r, v, _, rfl⟩ | ⟨_, _, rfl⟩ |
    ⟨_, _, rfl⟩ | ⟨_, rfl⟩ | ⟨c, v, _, rfl⟩ | ⟨_, rfl⟩ | ⟨_, rfl⟩ | ⟨_, _, _, _, rfl⟩ <;> simp

end

/-! ## Every step -/

/-- Whatever the hart does on its turn keeps the clauses, and starts no speculative walk. -/
theorem HartAct.keeps {s t : State} (h : HartAct s t) : KeepsFlight s t := by
  cases h with
  | walkStart hb _ _ => exact hb.keeps.withAccess _
  | bareDenied hb _ _ hf => exact hb.keeps.trans (failAccess_keeps hf)
  | barePerform hb _ _ hr => exact hb.keeps.trans (performRequest_keeps hr)
  | bareRun hb hx => exact hb.keeps.trans (exec_keeps hx)
  | walkMore _ hw => exact (Walk.step_keeps hw).withAccess _
  | walkRaise _ hw hf => exact ((Walk.step_keeps hw).withAccess none).trans (failAccess_keeps hf)
  | pieceReady _ hw _ => exact (Walk.step_keeps hw).withAccess _
  | pieceNext _ hw _ => exact (Walk.step_keeps hw).withAccess _
  | pieceDenied _ hw _ hf => exact ((Walk.step_keeps hw).withAccess none).trans (failAccess_keeps hf)
  | perform _ hr => exact ((KeepsFlight.refl s).withAccess none).trans (performRequest_keeps hr)
  | run _ hx => exact ((KeepsFlight.refl s).withAccess none).trans (exec_keeps hx)
  | other _ _ hi hop hh => exact ((KeepsFlight.refl s).withOps _).trans (hartOp_keeps hi hop hh)

/-- Other walks in flight are none of these fields. -/
theorem Keeps.withSpec {s t : State} (h : Keeps s t) (ws : List Walk) : Keeps s { t with spec := ws } :=
  ⟨h.cfg, h.mem, h.mpp, h.satp, h.reservation⟩

theorem Keeps.refl (s : State) : Keeps s s := ⟨rfl, id, id, id, id⟩

theorem specStart_keeps (s : State) (va : Word) (acc : Acc) (priv : Mode) :
    Keeps s (s.specStart va acc priv) := by
  unfold State.specStart
  split
  · exact (Keeps.refl s).withSpec _
  · exact .refl s

theorem specStep_keeps (s : State) (k : Nat) : Keeps s (s.specStep k) := by
  rcases s.specStep_cases k with h | h | ⟨w, _, _, ⟨w', s', hw, h⟩ | ⟨o, s', hw, _, h⟩⟩ <;> rw [h]
  · exact .refl s
  · exact (Keeps.refl s).withSpec _
  · exact (Walk.step_keeps hw).toKeeps.withSpec _
  · exact (Walk.step_keeps hw).toKeeps.withSpec _

theorem abandonAccess_keeps (s : State) : KeepsFlight s s.abandonAccess :=
  .of_eq (by simp) (by simp) (by simp) (by simp) (by simp) (by simp)

theorem envEvent_keeps (s : State) (ev : EnvEvent) : Keeps s (s.envEvent ev) := by
  cases ev with
  | hart => exact .refl s
  | specStart va acc priv => exact specStart_keeps s va acc priv
  | specStep k => exact specStep_keeps s k
  | specDrop k => exact (Keeps.refl s).withSpec _
  | evict k => exact ⟨rfl, id, id, id, id⟩
  | remoteStore pa size v => exact (setMem_keeps fun h => Memory.wf_writeRun h pa _ _).toKeeps
  | interrupt => exact (abandonAccess_keeps s).toKeeps

/-- Each clause about the parameters, memory, the status word, `satp` and the reservation is kept by a step. -/
theorem step_keeps {s t : State} (h : step s = .next t) : Keeps s t := by
  rcases step_cases h with ⟨_, ha⟩ | ⟨rest, _, ha⟩ | ⟨ev, rest, _, _, rfl⟩
  · exact ha.keeps.toKeeps
  · exact ⟨ha.keeps.cfg, ha.keeps.mem, ha.keeps.mpp, ha.keeps.satp, ha.keeps.reservation⟩
  · have k := envEvent_keeps { s with env := rest } ev
    exact ⟨k.cfg, k.mem, k.mpp, k.satp, k.reservation⟩

/-- Settles O10, as the first of the facts `step_keeps` states. -/
theorem stepKeepsConfiguration : Obligations.StepKeepsConfiguration := fun _ _ h => (step_keeps h).cfg

/-- Settles O51: none is held after reset, and `step_keeps` has the step. -/
theorem reservationStaysInOnePage : Obligations.ReservationStaysInOnePage :=
  ⟨nofun, fun _ _ hs h => (step_keeps h).reservation hs⟩

/-! ## The walks in flight -/

/-- The invariant's clause about the speculative walks. -/
def State.FlightLegal (s : State) : Prop := ∀ w ∈ s.spec, w.Legal s.cfg ∧ w.speculative = true

/-- The invariant's clause about the explicit access in progress. -/
def State.AccessLegal (s : State) : Prop := ∀ a, s.access = some a → a.Legal s

theorem State.ne_m_of_translates {s : State} {p : Mode} (h : s.translates p = true) : p ≠ .m := by
  simp only [State.translates, Bool.and_eq_true, decide_eq_true_eq] at h
  exact h.1

theorem State.FlightLegal.of_subset {s t : State} (h : s.FlightLegal) (hc : t.cfg = s.cfg)
    (hs : t.spec ⊆ s.spec) : t.FlightLegal := by
  intro w hw
  rw [hc]
  exact h w (hs hw)

/-- A speculative walk begins for S or U (R98). -/
theorem State.FlightLegal.specStart {s : State} (h : s.FlightLegal) (va : Word) (acc : Acc) (priv : Mode) :
    (s.specStart va acc priv).FlightLegal := by
  unfold State.specStart
  split
  · next hp =>
    simp only [Bool.and_eq_true, decide_eq_true_eq] at hp
    intro w hw
    rcases List.mem_append.mp hw with hw | hw
    · exact h w hw
    · rw [List.mem_singleton] at hw
      subst hw
      exact ⟨Walk.start_legal _ _ _ _ _ hp.2, rfl⟩
  · exact h

theorem State.FlightLegal.specStep {s : State} (h : s.FlightLegal) (k : Nat) : (s.specStep k).FlightLegal := by
  rcases s.specStep_cases k with hk | hk | ⟨w, hget, _, ⟨w', s', hw, hk⟩ | ⟨o, s', hw, _, hk⟩⟩ <;> rw [hk]
  · exact h
  · exact h.of_subset rfl (List.eraseIdx_subset ..)
  · obtain ⟨hl, hsp⟩ := h w (List.mem_of_getElem? hget)
    obtain ⟨_, _, _, hsp', _⟩ := Walk.step_more hw
    have hc : s'.cfg = s.cfg := (Walk.step_keeps hw).cfg
    intro x hx
    rw [hc]
    rcases List.mem_or_eq_of_mem_set hx with hx | rfl
    · exact h x hx
    · exact ⟨hl.step_more hw, hsp'.trans hsp⟩
  · exact h.of_subset (Walk.step_keeps hw).cfg (List.eraseIdx_subset ..)

theorem State.FlightLegal.envEvent {s : State} (h : s.FlightLegal) (ev : EnvEvent) :
    (s.envEvent ev).FlightLegal := by
  cases ev with
  | hart => exact h
  | specStart va acc priv => exact h.specStart va acc priv
  | specStep k => exact h.specStep k
  | specDrop k => exact h.of_subset rfl (List.eraseIdx_subset ..)
  | evict k => exact h
  | remoteStore pa size v => exact h
  | interrupt => exact h.of_subset (abandonAccess_keeps s).cfg (abandonAccess_keeps s).flight

theorem step_flightLegal {s t : State} (hs : s.FlightLegal) (h : step s = .next t) : t.FlightLegal := by
  rcases step_cases h with ⟨_, ha⟩ | ⟨rest, _, ha⟩ | ⟨ev, rest, _, _, rfl⟩
  · exact hs.of_subset ha.keeps.cfg ha.keeps.flight
  · exact hs.of_subset ha.keeps.cfg ha.keeps.flight
  · exact State.FlightLegal.envEvent (s := { s with env := rest }) hs ev

/-! ## The access in progress -/

theorem State.AccessLegal.of_none {s : State} (h : s.access = none) : s.AccessLegal := by
  intro a ha
  rw [h] at ha
  cases ha

/-- What holds of an access speaks of the pc and the parameters alone. -/
theorem State.AccessLegal.congr {s t : State} (h : s.AccessLegal) (ha : t.access = s.access)
    (hp : t.pc = s.pc) (hc : t.cfg = s.cfg) : t.AccessLegal := by
  intro a hat
  obtain ⟨hpc, hwalk⟩ := h a (ha ▸ hat)
  refine ⟨fun pc hg => (hpc pc hg).trans hp.symm, fun w n rest ready hph => ?_⟩
  rw [hc]
  exact hwalk w n rest ready hph

theorem State.AccessLegal.of_walking {s : State} {g : Goal} {w : Walk} {n : Nat} {rest : List Piece}
    {ready : List PhysPiece} (ha : s.access = some ⟨g, .walking w n rest ready⟩)
    (hpc : ∀ pc, g = .instr pc → pc = s.pc) (hw : w.Legal s.cfg) (hsp : w.speculative = false)
    (hacc : w.acc = g.acc) : s.AccessLegal := by
  intro a h
  rw [ha] at h
  cases h
  refine ⟨hpc, fun w' n' rest' ready' hph => ?_⟩
  cases hph
  exact ⟨hw, hsp, hacc⟩

theorem State.AccessLegal.of_ready {s : State} {g : Goal} {ps : List PhysPiece}
    (ha : s.access = some ⟨g, .ready ps⟩) (hpc : ∀ pc, g = .instr pc → pc = s.pc) : s.AccessLegal := by
  intro a h
  rw [ha] at h
  cases h
  exact ⟨hpc, fun _ _ _ _ hph => Phase.noConfusion hph⟩

theorem State.Begins.access {s u : State} {g : Goal} (h : s.Begins g u) : u.access = none := by
  obtain ⟨ha, ops, rfl⟩ := h.eq_ops
  exact ha

/-- The hart's own fetch begins at its pc. -/
theorem State.Begins.pc_eq {s u : State} {g : Goal} (h : s.Begins g u) : ∀ pc, g = .instr pc → pc = u.pc := by
  rintro pc rfl
  have hu : u.pc = s.pc := by
    obtain ⟨_, ops, rfl⟩ := h.eq_ops
    rfl
  rcases h with ⟨_, _, _, _, _, hg, _⟩ | ⟨hg, _⟩ <;> cases hg
  exact hu.symm

theorem failAccess_access {s t : State} {g : Goal} {e : Exn} (h : failAccess s g e = .out (.next t)) :
    t.access = s.access := by
  rcases failAccess_cases s g e with ⟨_, _, hf⟩ | ⟨_, _, hf⟩ <;> rw [hf] at h <;> cases h <;> simp

theorem exec_access_none {i : Instr} {s t : State} (hs : s.access = none) (h : exec i s = .next t) :
    t.access = none := by
  rcases exec_next h with ⟨a, asid, rfl⟩ | rfl <;> simp [hs]

/-- The hart's turn ends the access in progress, or leaves it with a legal walk or translated. -/
theorem HartAct.accessLegal {s t : State} (hs : s.AccessLegal) (h : HartAct s t) : t.AccessLegal := by
  cases h with
  | walkStart hb ht _ =>
    exact .of_walking rfl hb.pc_eq (Walk.start_legal _ _ _ _ _ (State.ne_m_of_translates ht)) rfl rfl
  | bareDenied hb _ _ hf => exact .of_none ((failAccess_access hf).trans hb.access)
  | barePerform hb _ _ hr => exact .of_none ((performRequest_next hr).1.access.trans hb.access)
  | bareRun hb hx => exact .of_none (exec_access_none hb.access hx)
  | walkMore ha hw =>
    obtain ⟨hpc, hwalk⟩ := hs _ ha
    obtain ⟨hl, hsp, hacc⟩ := hwalk _ _ _ _ rfl
    obtain ⟨_, hacc', _, hsp', _⟩ := Walk.step_more hw
    have hsame := Walk.same_of_step hw
    refine .of_walking rfl (fun pc hg => (hpc pc hg).trans hsame.pc.symm) ?_ (hsp'.trans hsp)
      (hacc'.trans hacc)
    rw [hsame.cfg]
    exact hl.step_more hw
  | walkRaise _ _ hf => exact .of_none (failAccess_access hf)
  | pieceReady ha hw _ =>
    obtain ⟨hpc, _⟩ := hs _ ha
    exact .of_ready rfl fun pc hg => (hpc pc hg).trans (Walk.same_of_step hw).pc.symm
  | pieceNext ha hw _ =>
    obtain ⟨hpc, hwalk⟩ := hs _ ha
    obtain ⟨hl, _, hacc⟩ := hwalk _ _ _ _ rfl
    exact .of_walking rfl (fun pc hg => (hpc pc hg).trans (Walk.same_of_step hw).pc.symm)
      (Walk.start_legal _ _ _ _ _ hl.1) rfl hacc
  | pieceDenied _ _ _ hf => exact .of_none (failAccess_access hf)
  | perform _ hr => exact .of_none (performRequest_next hr).1.access
  | run _ hx => exact .of_none (exec_access_none rfl hx)
  | other ha _ hi hop hh => exact .of_none ((hartOp_access hi hop hh).trans ha)

/-- A speculative walk's event leaves the hart's own access and its pc alone. -/
theorem specStep_access_pc (s : State) (k : Nat) :
    (s.specStep k).access = s.access ∧ (s.specStep k).pc = s.pc := by
  rcases s.specStep_cases k with h | h | ⟨w, _, _, ⟨w', s', hw, h⟩ | ⟨o, s', hw, _, h⟩⟩ <;> rw [h]
  · exact ⟨rfl, rfl⟩
  · exact ⟨rfl, rfl⟩
  · exact ⟨(Walk.same_of_step hw).access, (Walk.same_of_step hw).pc⟩
  · exact ⟨(Walk.same_of_step hw).access, (Walk.same_of_step hw).pc⟩

theorem State.AccessLegal.envEvent {s : State} (h : s.AccessLegal) (ev : EnvEvent) :
    (s.envEvent ev).AccessLegal := by
  have hc := (envEvent_keeps s ev).cfg
  cases ev with
  | hart => exact h
  | specStart va acc priv =>
    refine h.congr ?_ ?_ hc <;> simp only [State.envEvent, State.specStart] <;> split <;> rfl
  | specStep k => exact h.congr (specStep_access_pc s k).1 (specStep_access_pc s k).2 hc
  | specDrop k => exact h.congr rfl rfl hc
  | evict k => exact h.congr rfl rfl hc
  | remoteStore pa size v => exact h.congr rfl rfl hc
  | interrupt => exact .of_none (State.abandonAccess_access s)

theorem step_accessLegal {s t : State} (hs : s.AccessLegal) (h : step s = .next t) : t.AccessLegal := by
  rcases step_cases h with ⟨_, ha⟩ | ⟨rest, _, ha⟩ | ⟨ev, rest, _, _, rfl⟩
  · exact ha.accessLegal hs
  · exact HartAct.accessLegal (s := { s with env := rest }) (hs.congr rfl rfl rfl) ha
  · exact State.AccessLegal.envEvent (s := { s with env := rest }) (hs.congr rfl rfl rfl) ev

/-- Settles O8: the clauses about registers and memory by `step_keeps`, those about walks by `step_flightLegal`
and `step_accessLegal`. -/
theorem stepKeepsInvariant : Obligations.StepKeepsInvariant := by
  intro s t hs h
  obtain ⟨hmem, hmpp, hsatp, hcfg, hres, hflight, haccess⟩ := hs
  have k := step_keeps h
  exact ⟨k.mem hmem, k.mpp hmpp, k.satp hsatp, k.cfg ▸ hcfg, k.reservation hres,
    step_flightLegal hflight h, step_accessLegal haccess h⟩

end Sys2Proof.Machine
end

section
/-! PROOFS. Physical memory and the pieces of an access: the bytes of a word, the addresses of a run of bytes, and
how an access falls into pages. -/

namespace Sys2Proof.Machine

/-- Settles O21: the byte order is `Memory.word_writeWord_same` read off byte by byte, the rest the frame of a word
store. -/
theorem wordsAreLittleEndian : Obligations.WordsAreLittleEndian := by
  intro m pa w
  have h0 : pa.toNat = (pa + 0#34).toNat := by simp
  have byte : ∀ {i j : BitVec 34} (v : Byte) (m' : Memory), i ≠ j →
      (m'.write (pa + j).toNat v).read (pa + i).toNat = m'.read (pa + i).toNat :=
    fun v m' h => m'.read_write_ne v (toNat_add_ne h)
  refine ⟨?_, ?_, ?_, ?_, m.word_writeWord_same pa w, fun a ha => ?_⟩
  · rw [Memory.writeWord_eq, h0, byte _ _ (by decide), byte _ _ (by decide), byte _ _ (by decide),
      Memory.read_write_same]
  · rw [Memory.writeWord_eq, byte _ _ (by decide), byte _ _ (by decide), Memory.read_write_same]
  · rw [Memory.writeWord_eq, byte _ _ (by decide), Memory.read_write_same]
  · rw [Memory.writeWord_eq, Memory.read_write_same]
  · refine Memory.read_writeWord_ne m pa w fun hmem => ?_
    obtain ⟨i, hi, hai⟩ := mem_byteAddrs_four.mp hmem
    exact ha i hi hai

/-! ## Runs of bytes -/

@[simp] theorem length_byteAddrs (pa : PAddr) (n : Nat) : (byteAddrs pa n).length = n := by
  simp [byteAddrs]

@[simp] theorem length_datumBytes (v : Datum) (n : Nat) : (datumBytes v n).length = n := by
  simp [datumBytes]

/-- A run that is no longer than the 34-bit space names no byte twice. -/
theorem byteAddrs_nodup (pa : PAddr) {n : Nat} (h : n ≤ 2 ^ 34) : (byteAddrs pa n).Nodup := by
  refine List.Nodup.map_on (fun i hi j hj hij => ?_) List.nodup_range
  rw [List.mem_range] at hi hj
  have hofNat : BitVec.ofNat 34 i = BitVec.ofNat 34 j := add_left_cancel (BitVec.eq_of_toNat_eq hij)
  have htoNat := congrArg BitVec.toNat hofNat
  rwa [BitVec.toNat_ofNat, BitVec.toNat_ofNat, Nat.mod_eq_of_lt (by omega),
    Nat.mod_eq_of_lt (by omega)] at htoNat

@[simp] theorem pieceAddrs_singleton (p : PhysPiece) : pieceAddrs [p] = byteAddrs p.pa p.n := by
  simp [pieceAddrs]

theorem Size.bytes_le_eight (z : Size) : z.bytes ≤ 8 := by cases z <;> decide

/-! ## The pieces of an access -/

theorem toNat_vaPgoff (va : Word) : (vaPgoff va).toNat = va.toNat % 4096 := by
  simp [vaPgoff]

theorem vaPgoff_lt (va : Word) : (vaPgoff va).toNat < 4096 := (vaPgoff va).isLt

/-- The page after the one that holds `va` begins at a page boundary, also past the top of the space. -/
theorem vaPgoff_nextPage (va : Word) :
    vaPgoff (va + BitVec.ofNat 32 (4096 - (vaPgoff va).toNat)) = 0#12 := by
  apply BitVec.eq_of_toNat_eq
  rw [toNat_vaPgoff, toNat_vaPgoff, BitVec.toNat_add, BitVec.toNat_ofNat]
  simp only [BitVec.toNat_ofNat]
  omega

/-- Settles O53, for one piece and for two. -/
theorem piecesStayInsidePages : Obligations.PiecesStayInsidePages := by
  intro va n hpos hle
  have hoff := vaPgoff_lt va
  rcases pieces_cases va n with ⟨hn, h⟩ | ⟨hn, h⟩ <;> rw [h]
  · refine ⟨by simp, rfl, fun p hp => ?_, nofun⟩
    rw [List.mem_singleton] at hp
    subst hp
    exact ⟨hpos, by simp only; omega⟩
  · refine ⟨by simp only [List.map_cons, List.map_nil, List.sum_cons, List.sum_nil]; omega, rfl,
      fun p hp => ?_, fun p q hpq => ?_⟩
    · rcases List.mem_pair.mp hp with rfl | rfl
      · exact ⟨by simp only; omega, by simp only; omega⟩
      · rw [vaPgoff_nextPage]
        exact ⟨by simp only; omega, by simp only [BitVec.toNat_ofNat]; omega⟩
    · cases hpq
      exact ⟨rfl, vaPgoff_nextPage va⟩

end Sys2Proof.Machine
end

section
/-! PROOFS. The address-translation cache: an entry enters it by a memory event of a walk, and in no other way. -/

namespace Sys2Proof.Machine

/-- What one event of `w` may add is the record of what memory now holds, as `MayAdd` has it (R14, R94). -/
theorem Walk.mayAdd_of_step {w : Walk} {s t : State} {o : WalkOut} (h : w.step s = (o, t)) {e : AtcEntry}
    (he : e ∈ t.atc) : e ∈ s.atc ∨ (t.mem.wordFree e.addr = e.pte ∧ w.MayAdd s.cfg e) := by
  have key := w.step_atc (s := s) (e := e)
  rw [h] at key
  refine (key he).imp_right fun ⟨hrec, hmay, hmem⟩ => ?_
  have haddr : e.addr = w.pteAddr := by rw [hrec]; rfl
  refine ⟨haddr ▸ hmem, ?_, ?_, haddr, ?_, hmay⟩ <;> rw [hrec] <;> rfl

/-! ## Events that make no event of a walk add no entry -/

theorem SameButData.atc {s t : State} (h : SameButData s t) : t.atc = s.atc :=
  (congrArg State.atc h.eq).trans rfl

theorem State.Begins.atc {s u : State} {g : Goal} (h : s.Begins g u) : u.atc = s.atc := by
  obtain ⟨_, ops, rfl⟩ := h.eq_ops
  rfl

/-! A fault that ends an access writes the registers of the trap and the answer; the fields it keeps, one by one. -/

section
variable {s t : State} {g : Goal} {e : Exn} (h : failAccess s g e = .out (.next t))
include h

theorem failAccess_atc : t.atc = s.atc := by
  rcases failAccess_cases s g e with ⟨_, _, hf⟩ | ⟨_, _, hf⟩ <;> rw [hf] at h <;> cases h <;> simp

theorem failAccess_mem : t.mem = s.mem := by
  rcases failAccess_cases s g e with ⟨_, _, hf⟩ | ⟨_, _, hf⟩ <;> rw [hf] at h <;> cases h <;> simp

theorem failAccess_reservation : t.reservation = s.reservation := by
  rcases failAccess_cases s g e with ⟨_, _, hf⟩ | ⟨_, _, hf⟩ <;> rw [hf] at h <;> cases h <;> simp

theorem failAccess_regs : t.regs = s.regs := by
  rcases failAccess_cases s g e with ⟨_, _, hf⟩ | ⟨_, _, hf⟩ <;> rw [hf] at h <;> cases h <;> simp

/-- A request is answered its fault; the hart's own fetch is not answered. -/
theorem failAccess_replies : t.replies = s.replies ∨ t.replies = s.replies ++ [.faulted e] := by
  rcases failAccess_cases s g e with ⟨_, _, hf⟩ | ⟨_, _, hf⟩ <;> rw [hf] at h <;> cases h
  · exact .inl (State.takeExn_replies ..)
  · exact .inr (State.takeExn_replies ..)

end

/-- The fence takes entries out of the cache, and adds none (R110). -/
theorem exec_atc_subset {i : Instr} {s t : State} (h : exec i s = .next t) : t.atc ⊆ s.atc := by
  rcases exec_next h with ⟨a, asid, rfl⟩ | rfl
  · rw [State.advancePc_atc, State.fence_atc]
    exact List.filter_subset_self _
  · simp

theorem hartOp_atc {s t : State} {op : HartOp} (hi : op ≠ .instr)
    (hop : (∀ r, op ≠ .access r) ∨ ∃ r v, op = .access r ∧ r.kind = .sc v .failUntranslated)
    (h : hartOp s op = .out (.next t)) : t.atc = s.atc := by
  rcases hartOp_cases hi hop h with ⟨c, v, _, rfl⟩ | ⟨_, _, rfl⟩ | ⟨r, v, _, rfl⟩ | ⟨_, _, rfl⟩ |
    ⟨_, _, rfl⟩ | ⟨_, rfl⟩ | ⟨c, v, _, rfl⟩ | ⟨_, rfl⟩ | ⟨_, rfl⟩ | ⟨_, _, _, _, rfl⟩ <;> simp

/-! ## Every step -/

/-- The walk is in flight in `s` (R35): the one of the access in progress, or one of the speculative ones. -/
def State.InFlight (s : State) (w : Walk) : Prop :=
  (∃ g n ps rs, s.access = some ⟨g, .walking w n ps rs⟩) ∨ w ∈ s.spec

/-- From `s` to `t` the cache gains no entry but what a walk in flight in `s` may add, of the value that memory
holds in `t`. -/
def State.FillsFromWalks (s t : State) : Prop :=
  ∀ e ∈ t.atc, e ∈ s.atc ∨ (t.mem.wordFree e.addr = e.pte ∧ ∃ w, s.InFlight w ∧ w.MayAdd s.cfg e)

theorem State.FillsFromWalks.of_subset {s t : State} (h : t.atc ⊆ s.atc) : s.FillsFromWalks t :=
  fun _ he => .inl (h he)

theorem State.FillsFromWalks.of_eq {s t : State} (h : t.atc = s.atc) : s.FillsFromWalks t :=
  .of_subset (h ▸ List.Subset.refl _)

/-- A step that is an event of a walk in flight, whatever it does to the rest of the state afterwards. -/
theorem State.FillsFromWalks.of_walk {s s' t : State} {w : Walk} {o : WalkOut} (hw : s.InFlight w)
    (h : w.step s = (o, s')) (ha : t.atc = s'.atc) (hm : t.mem = s'.mem) : s.FillsFromWalks t := by
  intro e he
  rw [ha] at he
  rw [hm]
  exact (Walk.mayAdd_of_step h he).imp_right fun ⟨hmem, hmay⟩ => ⟨hmem, w, hw, hmay⟩

/-- An event of a walk after which the access fails: the fault touches neither the cache nor memory. -/
theorem State.FillsFromWalks.of_failedWalk {s s' t : State} {w : Walk} {o : WalkOut} {g : Goal} {e : Exn}
    (hw : s.InFlight w) (h : w.step s = (o, s'))
    (hf : failAccess { s' with access := none } g e = .out (.next t)) : s.FillsFromWalks t :=
  .of_walk hw h ((failAccess_atc hf).trans rfl) ((failAccess_mem hf).trans rfl)

theorem State.InFlight.of_access {s : State} {g : Goal} {w : Walk} {n : Nat} {ps : List Piece}
    {rs : List PhysPiece} (h : s.access = some ⟨g, .walking w n ps rs⟩) : s.InFlight w :=
  .inl ⟨g, n, ps, rs, h⟩

/-- On the hart's turn only the walk of the access in progress fills the cache. -/
theorem HartAct.fillsFromWalks {s t : State} (h : HartAct s t) : s.FillsFromWalks t := by
  cases h with
  | walkStart hb _ _ => exact .of_eq hb.atc
  | bareDenied hb _ _ hf => exact .of_eq ((failAccess_atc hf).trans hb.atc)
  | barePerform hb _ _ hr => exact .of_eq ((performRequest_next hr).1.atc.trans hb.atc)
  | bareRun hb hx => exact .of_subset (hb.atc ▸ exec_atc_subset hx)
  | walkMore ha hw => exact .of_walk (.of_access ha) hw rfl rfl
  | walkRaise ha hw hf => exact .of_failedWalk (.of_access ha) hw hf
  | pieceReady ha hw _ => exact .of_walk (.of_access ha) hw rfl rfl
  | pieceNext ha hw _ => exact .of_walk (.of_access ha) hw rfl rfl
  | pieceDenied ha hw _ hf => exact .of_failedWalk (.of_access ha) hw hf
  | perform _ hr => exact .of_eq (performRequest_next hr).1.atc
  | run _ hx => exact .of_subset (exec_atc_subset (s := { s with access := none }) hx)
  | other _ _ hi hop hh => exact .of_eq ((hartOp_atc hi hop hh).trans rfl)

/-- Outside the hart's turn only a speculative walk fills the cache (R94, R98). -/
theorem State.FillsFromWalks.envEvent (s : State) (ev : EnvEvent) : s.FillsFromWalks (s.envEvent ev) := by
  cases ev with
  | hart => exact .of_eq rfl
  | specStart va acc priv =>
    refine .of_eq ?_
    simp only [State.envEvent, State.specStart]
    split <;> rfl
  | specStep k =>
    rcases s.specStep_cases k with h | h | ⟨w, hget, _, ⟨w', s', hw, h⟩ | ⟨o, s', hw, _, h⟩⟩ <;>
      rw [State.envEvent, h]
    · exact .of_eq rfl
    · exact .of_eq rfl
    · exact .of_walk (.inr (List.mem_of_getElem? hget)) hw rfl rfl
    · exact .of_walk (.inr (List.mem_of_getElem? hget)) hw rfl rfl
  | specDrop k => exact .of_eq rfl
  | evict k => exact .of_subset (List.eraseIdx_subset ..)
  | remoteStore pa size v => exact .of_eq rfl
  | interrupt => exact .of_eq (State.abandonAccess_atc s)

theorem step_fillsFromWalks {s t : State} (h : step s = .next t) : s.FillsFromWalks t := by
  rcases step_cases h with ⟨_, ha⟩ | ⟨rest, _, ha⟩ | ⟨ev, rest, _, _, rfl⟩
  · exact ha.fillsFromWalks
  · exact HartAct.fillsFromWalks (s := { s with env := rest }) ha
  · exact State.FillsFromWalks.envEvent { s with env := rest } ev

/-- Settles O39: `step_fillsFromWalks` for the step, `Walk.mayAdd_of_step` for one event of a walk. -/
theorem cacheHoldsOnlyWhatMemoryHeld : Obligations.CacheHoldsOnlyWhatMemoryHeld := by
  refine ⟨fun s t h => step_fillsFromWalks h, fun w s t o h e he => ?_⟩
  refine (Walk.mayAdd_of_step h he).imp_right fun ⟨hmem, hasid, htag, haddr, hglobal, _⟩ => ?_
  exact ⟨hmem, hasid, htag, haddr, hglobal⟩

end Sys2Proof.Machine
end

section
/-! PROOFS. Explicit accesses: how a translated access is performed, how an untranslated one is, where either fails,
and what an access that is still being walked leaves alone. -/

namespace Sys2Proof.Machine

/-! ## The access itself -/

theorem performRead_some {s : State} {ps : List PhysPiece} {bs : List Byte} (answer : Datum → State)
    (h : s.mem.readAll (pieceAddrs ps) = some bs) :
    performRead s ps answer = .out (.next (answer (datumOfBytes bs))) := by
  simp only [performRead, h]

theorem performRead_none {s : State} {ps : List PhysPiece} (answer : Datum → State)
    (h : s.mem.readAll (pieceAddrs ps) = none) :
    performRead s ps answer = .out (.fault .unwrittenMemory) := by
  simp only [performRead, h]

section
variable (s : State) (va : Word) (size : Size) (ps : List PhysPiece)

theorem performRequest_fetch : performRequest s ⟨.fetch, va, size⟩ ps =
    performRead s ps fun v => s.reply (.fetched ps v) := rfl

theorem performRequest_load : performRequest s ⟨.load, va, size⟩ ps =
    performRead s ps fun v => s.reply (.loaded ps v) := rfl

theorem performRequest_lr (below above : Nat) : performRequest s ⟨.lr below above, va, size⟩ ps =
    performRead s ps fun v =>
      { s with reservation := reservationOf ps below above }.reply (.loaded ps v) := rfl

theorem performRequest_amo (d : Datum) : performRequest s ⟨.amo d, va, size⟩ ps =
    performRead s ps fun old => (s.storeAt ps size.bytes d).reply (.amoDone ps old) := rfl

theorem performRequest_store (d : Datum) : performRequest s ⟨.store d, va, size⟩ ps =
    .out (.next ((s.storeAt ps size.bytes d).reply (.stored ps))) := rfl

end

/-- A step that stores a value at some pieces and answers: the bytes are there afterwards, and nothing else of the
state has changed. -/
theorem State.storeAt_reply (s : State) (ps : List PhysPiece) (n : Nat) (v : Datum) (x : Reply) :
    ((s.storeAt ps n v).reply x).replies = s.replies ++ [x] ∧
      ((pieceAddrs ps).Nodup → (pieceAddrs ps).length = n →
        ((s.storeAt ps n v).reply x).mem.readAll (pieceAddrs ps) = some (datumBytes v n)) ∧
      (∀ a, a ∉ pieceAddrs ps → ((s.storeAt ps n v).reply x).mem.read a = s.mem.read a) ∧
      (s.storeAt ps n v).reply x =
        { s with
          mem := ((s.storeAt ps n v).reply x).mem
          replies := ((s.storeAt ps n v).reply x).replies } := by
  refine ⟨rfl, fun hnodup hlen => ?_, fun a ha => ?_, rfl⟩ <;> rw [State.reply_mem, State.storeAt_mem]
  · exact Memory.readAll_writeAll _ s.mem _ hnodup (hlen.trans (length_datumBytes v n).symm)
  · exact Memory.read_writeAll_of_notMem _ s.mem fun _ hc hac => ha (hac ▸ (List.of_mem_zip hc).1)

/-- The bytes a load-reserved reserves: those within its reach, inside the base page of the first (R16). -/
theorem reservationOf_cons (p : PhysPiece) (rest : List PhysPiece) (below above : Nat) :
    ∃ r, reservationOf (p :: rest) below above = some r ∧
      ∀ a, (r.lo ≤ a ∧ a < r.hi) ↔
        (a / 4096 = p.pa.toNat / 4096 ∧ p.pa.toNat ≤ a + below ∧ a < p.pa.toNat + p.n + above) := by
  refine ⟨_, rfl, fun a => ?_⟩
  simp only
  omega

theorem step_of_out {s u : State} {o : Host.Outcome State Fault Refusal} (ht : s.HartsTurn u)
    (h : hartMove u = .out o) : step s = o :=
  (step_of_turn ht).trans (hartTurn_of_out h)

/-- The step of a request that stands translated is what performing it comes to. -/
theorem step_of_ready {s u : State} {r : Request} {ps : List PhysPiece}
    {o : Host.Outcome State Fault Refusal} (ht : s.HartsTurn u)
    (ha : u.access = some ⟨.request r, .ready ps⟩)
    (hp : performRequest { u with access := none } r ps = .out o) : step s = o :=
  step_of_out ht ((hartMove_of_ready ha).trans hp)

/-- Settles O50, by the kind of the request: `performRead_some` for the reads, `State.storeAt_reply` for what is
stored. -/
theorem readyAccessesArePerformed : Obligations.ReadyAccessesArePerformed := by
  intro s u va size ps ht
  refine ⟨fun bs hbs => ⟨fun ha => ?fetch, fun ha => ?load, fun below above p rest ha hps => ?lr,
    fun d ha => ?amo⟩, fun d ha => ?store, fun kind hnone hkind ha => ?unwritten⟩
  case fetch => exact step_of_ready ht ha ((performRequest_fetch ..).trans (performRead_some _ hbs))
  case load => exact step_of_ready ht ha ((performRequest_load ..).trans (performRead_some _ hbs))
  case lr =>
    subst hps
    obtain ⟨r, hr, hbytes⟩ := reservationOf_cons p rest below above
    have hstep := step_of_ready ht ha ((performRequest_lr ..).trans (performRead_some _ hbs))
    rw [hr] at hstep
    exact ⟨r, hstep, reservationOf_inOnePage hr, hbytes⟩
  case amo =>
    exact ⟨_, step_of_ready ht ha ((performRequest_amo ..).trans (performRead_some _ hbs)),
      State.storeAt_reply ..⟩
  case store => exact ⟨_, step_of_ready ht ha (performRequest_store ..), State.storeAt_reply ..⟩
  case unwritten =>
    refine step_of_ready ht ha ?_
    rcases hkind with rfl | rfl | ⟨b, a, rfl⟩ | ⟨d, rfl⟩
    · exact (performRequest_fetch ..).trans (performRead_none _ hnone)
    · exact (performRequest_load ..).trans (performRead_none _ hnone)
    · exact (performRequest_lr ..).trans (performRead_none _ hnone)
    · exact (performRequest_amo ..).trans (performRead_none _ hnone)

/-! ## Untranslated accesses -/

theorem pieces_of_one_page {va : Word} {n : Nat} (h : n ≤ 4096 - (vaPgoff va).toNat) :
    pieces va n = [⟨va, n⟩] := by
  rcases pieces_cases va n with ⟨_, hp⟩ | ⟨hn, _⟩
  · exact hp
  · omega

theorem hartTurn_congr {s t : State} (h : hartMove s = hartMove t) : hartTurn s = hartTurn t := by
  simp only [hartTurn, h]

/-- The step of an untranslated request in one page whose check passes is what performing it at its zero-extended
address comes to (R23, R24). -/
theorem step_of_bare_one_page {s u v : State} {r : Request} {o : Host.Outcome State Fault Refusal}
    (ht : s.HartsTurn u) (hb : u.Begins (.request r) v) (hpage : r.size.bytes ≤ 4096 - (vaPgoff r.va).toNat)
    (htr : v.translates (v.effectiveMode r.kind.acc) = false)
    (hok : v.physOk (r.va.setWidth 34) r.size.bytes r.kind.acc false (v.effectiveMode r.kind.acc) = true)
    (hp : performRequest v r [⟨r.va.setWidth 34, r.size.bytes⟩] = .out o) : step s = o := by
  refine step_of_out ht ?_
  have hpieces : pieces (Goal.request r).va (Goal.request r).bytes = [⟨r.va, r.size.bytes⟩] :=
    pieces_of_one_page hpage
  rw [hartMove_of_begins hb, beginAccess_bare htr, hpieces]
  · exact hp
  · intro p hmem
    rw [hpieces, List.mem_singleton] at hmem
    subst hmem
    exact hok

/-- Settles O44: by `beginAccess_bare` the untranslated access is the one that stands translated at its zero-extended
addresses, and a load or store in one page is performed as any translated one. -/
theorem bareAccessesUseZeroExtendedAddress : Obligations.BareAccessesUseZeroExtendedAddress := by
  intro s u v ht
  refine ⟨fun g hb htr hok => ?same, fun va size bs hb hpage htr hok hbs => ?load,
    fun d va size hb hpage htr hok => ?store⟩
  case same =>
    refine (step_of_turn ht).trans (Eq.trans (hartTurn_congr ?_) (step_of_turn (.inr ⟨v.env, rfl, rfl⟩)).symm)
    have hnone : { v with access := none } = v := by rw [← hb.access]
    rw [hartMove_of_begins hb, beginAccess_bare htr hok, hartMove_of_ready rfl, hnone]
  case load =>
    rw [← pieceAddrs_singleton ⟨va.setWidth 34, size.bytes⟩] at hbs
    exact step_of_bare_one_page ht hb hpage htr hok ((performRequest_load ..).trans (performRead_some _ hbs))
  case store =>
    have hstep := step_of_bare_one_page ht hb hpage htr hok (performRequest_store ..)
    obtain ⟨hreplies, hbytes, hframe, hrest⟩ :=
      v.storeAt_reply [⟨va.setWidth 34, size.bytes⟩] size.bytes d (.stored [⟨va.setWidth 34, size.bytes⟩])
    rw [pieceAddrs_singleton] at hbytes hframe
    have hsize : size.bytes ≤ 2 ^ 34 := size.bytes_le_eight.trans (by decide)
    exact ⟨_, hstep, hreplies, hbytes (byteAddrs_nodup _ hsize) (length_byteAddrs _ _), hframe, hrest⟩

/-! ## Accesses that fail -/

/-- What the step answers where an access fails in the state `x` (R127). -/
theorem step_of_failAccess {s u x : State} {g : Goal} {e : Exn} (ht : s.HartsTurn u)
    (h : hartMove u = failAccess x g e) :
    (∀ r, g = .request r → step s = .next ((x.reply (.faulted e)).takeExn e)) ∧
      ∀ pc, g = .instr pc → step s = .next (x.takeExn e) := by
  refine ⟨?_, ?_⟩ <;> rintro _ rfl <;> exact step_of_out ht h

/-- Where some piece of an untranslated access fails its check, one is the first to. -/
theorem State.exists_firstDenied {s : State} {g : Goal} {p : Piece} (hp : p ∈ pieces g.va g.bytes)
    (hno : s.physOk (p.va.setWidth 34) p.n g.acc false (s.effectiveMode g.acc) = false) :
    ∃ q, s.FirstDenied g q := by
  have hsome : ((pieces g.va g.bytes).find?
      fun q => !s.physOk (q.va.setWidth 34) q.n g.acc false (s.effectiveMode g.acc)).isSome := by
    rw [List.find?_isSome]
    exact ⟨p, hp, by simp [hno]⟩
  obtain ⟨q, hq⟩ := Option.isSome_iff_exists.mp hsome
  obtain ⟨hdenied, pre, post, hsplit, hpre⟩ := List.find?_eq_some_iff_append.mp hq
  exact ⟨q, pre, post, hsplit, by simpa using hpre, by simpa using hdenied⟩

/-- An untranslated access fails at the piece that is the first to fail its check (R122, R123). -/
theorem beginAccess_firstDenied {s : State} {g : Goal} {p : Piece}
    (htr : s.translates (s.effectiveMode g.acc) = false) (h : s.FirstDenied g p) :
    beginAccess s g = failAccess s g ⟨.accessFault, g.acc, p.va⟩ := by
  obtain ⟨pre, post, hsplit, hpre, hp⟩ := h
  simp only [beginAccess, htr, hsplit, checkBare_first hpre hp, Bool.false_eq_true, if_false]

/-- A piece that begins where the access does is its first (R38). -/
theorem eq_head_of_va_eq {va : Word} {n : Nat} {p q : Piece} {rest : List Piece}
    (h : pieces va n = q :: rest) (hp : p ∈ pieces va n) (hva : p.va = va) : p = q := by
  have hoff := vaPgoff_lt va
  rcases pieces_cases va n with ⟨_, hl⟩ | ⟨_, hl⟩ <;> rw [hl] at h hp <;> cases h
  · exact List.mem_singleton.mp hp
  · rcases List.mem_pair.mp hp with rfl | rfl
    · rfl
    · exfalso
      have hsum := congrArg BitVec.toNat hva
      rw [BitVec.toNat_add, BitVec.toNat_ofNat] at hsum
      have := va.isLt
      omega

/-- A denied piece that begins where the access does is the first that is denied. -/
theorem State.FirstDenied.eq_of_va_eq {s : State} {g : Goal} {p q : Piece} (h : s.FirstDenied g q)
    (hp : p ∈ pieces g.va g.bytes)
    (hno : s.physOk (p.va.setWidth 34) p.n g.acc false (s.effectiveMode g.acc) = false)
    (hva : p.va = g.va) : q = p := by
  obtain ⟨pre, post, hsplit, hpre, _⟩ := h
  cases pre with
  | nil => exact (eq_head_of_va_eq hsplit hp hva).symm
  | cons x pre =>
    have hx := hpre x (List.mem_cons_self ..)
    rw [← eq_head_of_va_eq hsplit hp hva, hno] at hx
    cases hx

theorem State.FirstDenied.mem {s : State} {g : Goal} {p : Piece} (h : s.FirstDenied g p) :
    p ∈ pieces g.va g.bytes := by
  obtain ⟨pre, post, hsplit, _⟩ := h
  rw [hsplit]
  exact List.mem_append_right _ (List.mem_cons_self ..)

/-- A walk whose PTE is at or above 2^PABITS takes an access-fault, to read it and to update it (R82, R88). -/
theorem Walk.step_of_ge {w : Walk} {s : State} (h : 2 ^ s.cfg.pabits ≤ w.pteAddr.toNat) :
    w.step s = (.raise (w.exn .accessFault), s) := by
  unfold Walk.step
  split
  · rcases w.readStep_cases s with ⟨_, hs⟩ | ⟨hok, _⟩
    · exact hs
    · rw [State.physOk_of_ge _ _ _ _ _ h] at hok
      cases hok
  · next pte _ =>
    rcases w.updateStep_cases s pte with ⟨_, hs⟩ | ⟨hok, _⟩
    · exact hs
    · rw [State.physOk_of_ge _ _ _ _ _ h] at hok
      cases hok

section
variable {u u' : State} {g : Goal} {w : Walk} {n : Nat} {ps : List Piece} {rs : List PhysPiece}

/-- The hart's turn where a walk of an access has translated its piece. -/
theorem hartMove_of_done {pa : PAddr} (ha : u.access = some ⟨g, .walking w n ps rs⟩)
    (hw : w.step u = (.done pa, u')) : hartMove u = pieceDone u' g w n ps rs pa := by
  simp only [hartMove, ha, advanceAccess, hw]

/-- A translated piece that fails the final check ends the access (R80, R22). -/
theorem pieceDone_denied {pa : PAddr} (h : u'.physOk pa n w.acc false w.priv = false) :
    pieceDone u' g w n ps rs pa = failAccess { u' with access := none } g (w.exn .accessFault) := by
  simp only [pieceDone, h, Bool.false_eq_true, if_false]

end

/-- Settles O45: no check passes at such an address, so each of the three comes to its access-fault. -/
theorem addressBeyondPabitsFaults : Obligations.AddressBeyondPabitsFaults := by
  refine ⟨fun s pa n acc implicit priv h => s.physOk_of_ge n acc implicit priv h,
    fun w s h => Walk.step_of_ge h, ?translated, ?bare⟩
  case translated =>
    intro s u u' g w n ps rs pa ht ha hw hge
    rw [← (Walk.same_of_step hw).cfg] at hge
    have hmove := (hartMove_of_done ha hw).trans (pieceDone_denied (State.physOk_of_ge u' n _ _ _ hge))
    obtain ⟨t, hfail⟩ := failAccess_next { u' with access := none } g (w.exn .accessFault)
    have hstep := step_of_out ht (hmove.trans hfail)
    obtain ⟨hrequest, hinstr⟩ := step_of_failAccess ht hmove
    exact ⟨t, hstep, failAccess_access hfail, (failAccess_mem hfail).trans rfl,
      fun r hg => Host.Outcome.next.inj (hstep.symm.trans (hrequest r hg)),
      fun pc hg => Host.Outcome.next.inj (hstep.symm.trans (hinstr pc hg))⟩
  case bare =>
    intro s u v g p ht hb htr hp hge
    rw [← BitVec.toNat_setWidth_of_le (by decide : 32 ≤ 34)] at hge
    have hno := State.physOk_of_ge v p.n g.acc false (v.effectiveMode g.acc) hge
    obtain ⟨q, hq⟩ := State.exists_firstDenied hp hno
    have hmove := (hartMove_of_begins hb).trans (beginAccess_firstDenied htr hq)
    exact ⟨q, hq.mem, hq.eq_of_va_eq hp hno, step_of_failAccess ht hmove⟩

/-! ## An access that is still being walked -/

theorem SameButWalk.replies {s t : State} (h : SameButWalk s t) : t.replies = s.replies :=
  (congrArg State.replies h.eq).trans rfl
theorem SameButWalk.regs {s t : State} (h : SameButWalk s t) : t.regs = s.regs :=
  (congrArg State.regs h.eq).trans rfl

/-- An event of a walk writes no byte outside the PTE the walk is at. -/
theorem Walk.read_step_ne {w : Walk} {s s' : State} {o : WalkOut} (h : w.step s = (o, s')) {a : Nat}
    (ha : a ∉ byteAddrs w.pteAddr 4) : s'.mem.read a = s.mem.read a := by
  have hmem := w.step_mem s
  rw [h] at hmem
  rcases hmem with hsame | ⟨pte, _, _, _, hwritten, _⟩
  · exact congrArg (·.read a) hsame
  · exact (congrArg (·.read a) hwritten).trans (Memory.read_writeWord_ne _ _ _ ha)

/-- From `s` to `t` no explicit access has been performed: nothing but a fault is answered, and no byte is written
outside the PTE that the walk `w` is at (R34). -/
structure WalksOnly (w : Walk) (s t : State) : Prop where
  replies : t.replies = s.replies ∨ ∃ e, t.replies = s.replies ++ [.faulted e]
  reservation : t.reservation = s.reservation
  regs : t.regs = s.regs
  bytes : ∀ a, a ∉ byteAddrs w.pteAddr 4 → t.mem.read a = s.mem.read a

theorem Walk.walksOnly {w : Walk} {s s' : State} {o : WalkOut} (h : w.step s = (o, s')) :
    WalksOnly w s s' :=
  have hsame := Walk.same_of_step h
  ⟨.inl hsame.replies, hsame.reservation, hsame.regs, fun _ ha => Walk.read_step_ne h ha⟩

theorem WalksOnly.withAccess {w : Walk} {s t : State} (h : WalksOnly w s t) (a : Option Access) :
    WalksOnly w s { t with access := a } :=
  ⟨h.replies, h.reservation, h.regs, h.bytes⟩

/-- A fault at the end of such an event answers itself and no more. -/
theorem Walk.walksOnly_failAccess {w : Walk} {s s' t : State} {o : WalkOut} {g : Goal} {e : Exn}
    (h : w.step s = (o, s')) (hf : failAccess { s' with access := none } g e = .out (.next t)) :
    WalksOnly w s t := by
  have hsame := Walk.same_of_step h
  refine ⟨?_, (failAccess_reservation hf).trans hsame.reservation, (failAccess_regs hf).trans hsame.regs,
    fun a ha => ?_⟩
  · rw [← hsame.replies]
    exact (failAccess_replies hf).imp_right fun hr => ⟨e, hr⟩
  · rw [failAccess_mem hf]
    exact Walk.read_step_ne h ha

/-- The hart's turn while an access is being walked is an event of that walk, with a fault or without. -/
theorem HartAct.walksOnly {s t : State} {g : Goal} {w : Walk} {n : Nat} {ps : List Piece}
    {rs : List PhysPiece} (h : HartAct s t) (ha : s.access = some ⟨g, .walking w n ps rs⟩) :
    WalksOnly w s t := by
  have hbegins : ∀ {g u}, ¬ s.Begins g u := fun hb => by
    have := hb.eq_ops.1
    rw [ha] at this
    cases this
  cases h with
  | walkStart hb _ _ => exact absurd hb hbegins
  | bareDenied hb _ _ _ => exact absurd hb hbegins
  | barePerform hb _ _ _ => exact absurd hb hbegins
  | bareRun hb _ => exact absurd hb hbegins
  | walkMore ha' hw => cases ha.symm.trans ha'; exact (Walk.walksOnly hw).withAccess _
  | walkRaise ha' hw hf => cases ha.symm.trans ha'; exact Walk.walksOnly_failAccess hw hf
  | pieceReady ha' hw _ => cases ha.symm.trans ha'; exact (Walk.walksOnly hw).withAccess _
  | pieceNext ha' hw _ => cases ha.symm.trans ha'; exact (Walk.walksOnly hw).withAccess _
  | pieceDenied ha' hw _ hf => cases ha.symm.trans ha'; exact Walk.walksOnly_failAccess hw hf
  | perform ha' _ => cases ha.symm.trans ha'
  | run ha' _ => cases ha.symm.trans ha'
  | other ha' _ _ _ _ => cases ha.symm.trans ha'

/-- A step that begins with an interrupt gives up the access in progress, which is to be made again (R34, R129). -/
theorem step_of_interrupt {s : State} {rest : List EnvEvent} {a : Access} (he : s.env = .interrupt :: rest)
    (ha : s.access = some a) :
    step s = .next { s with env := rest, access := none, ops := a.goal.op :: s.ops } := by
  have h : step s = .next { s with env := rest }.abandonAccess := by
    unfold step
    rw [he]
    rfl
  rw [h, State.abandonAccess_of_some (s := { s with env := rest }) ha]

/-- Settles O48: `HartAct.walksOnly` for the walk's event, `step_of_interrupt` for the interrupt. -/
theorem pteUpdateAndAccessAreSeparate : Obligations.PteUpdateAndAccessAreSeparate := by
  refine ⟨fun s u t g w n ps rs ht ha hstep => ?_, fun s rest ph he => ⟨fun r ha => ?_, fun pc ha => ?_⟩⟩
  · obtain ⟨hreplies, hreservation, hregs, hbytes⟩ :=
      (hartTurn_act ((step_of_turn ht).symm.trans hstep)).walksOnly ha
    refine ⟨hreplies, hreservation, hregs, fun a hne => hbytes a fun hmem => ?_⟩
    obtain ⟨i, hi, hai⟩ := mem_byteAddrs_four.mp hmem
    exact hne i hi hai
  · exact step_of_interrupt he ha
  · exact step_of_interrupt he ha

end Sys2Proof.Machine
end

section
/-! PROOFS. The encoding and the formats: the fields of an instruction word, what the decoder answers by them, the
decoder against the encoder; the fields of an address; the reserved encodings of a PTE; the refusal of a word; the
write of `satp`. -/

namespace Sys2Proof

/-! ## The fields of an instruction word -/

/-- The word of an instruction with these fields (R49), its width written as the sum of theirs. -/
def wordOfFields (funct7 : BitVec 7) (rs2 rs1 : BitVec 5) (funct3 : BitVec 3) (rd : BitVec 5)
    (opcode : BitVec 7) : BitVec (7 + 5 + 5 + 3 + 5 + 7) :=
  funct7 ++ rs2 ++ rs1 ++ funct3 ++ rd ++ opcode

/-- The fields partition the word. -/
theorem wordOfFields_extract (w : Word) :
    wordOfFields (w.extractLsb' 25 7) (w.extractLsb' 20 5) (w.extractLsb' 15 5) (w.extractLsb' 12 3)
      (w.extractLsb' 7 5) (w.extractLsb' 0 7) = w := by
  simp only [wordOfFields, BitVec.extractLsb'_append_extractLsb'_eq_extractLsb']
  exact BitVec.extractLsb'_eq_self

theorem encode_eq_wordOfFields (rs1 rs2 : Nat) :
    encode (.sfenceVma rs1 rs2) = wordOfFields 9#7 (BitVec.ofNat 5 rs2) (BitVec.ofNat 5 rs1) 0#3 0#5 0x73#7 :=
  rfl

theorem sfenceMatch_eq_wordOfFields : sfenceMatch = wordOfFields 9#7 0#5 0#5 0#3 0#5 0x73#7 := rfl

theorem sfenceMask_eq_wordOfFields :
    sfenceMask = wordOfFields (.allOnes 7) 0#5 0#5 (.allOnes 3) (.allOnes 5) (.allOnes 7) := rfl

theorem sfenceMaskButRd_eq_wordOfFields :
    sfenceMaskButRd = wordOfFields (.allOnes 7) 0#5 0#5 (.allOnes 3) 0#5 (.allOnes 7) := rfl

/-- SFENCE.VMA's opcode, funct3 and funct7 (R49). -/
def HasSfenceCode (w : Word) : Prop :=
  w.extractLsb' 0 7 = 0x73#7 ∧ w.extractLsb' 12 3 = 0#3 ∧ w.extractLsb' 25 7 = 0x09#7

section
variable (funct7 : BitVec 7) (rs2 rs1 : BitVec 5) (funct3 : BitVec 3) (rd : BitVec 5) (opcode : BitVec 7)

@[simp] theorem opcode_wordOfFields :
    (wordOfFields funct7 rs2 rs1 funct3 rd opcode).extractLsb' 0 7 = opcode := by
  simp [wordOfFields, BitVec.extractLsb'_append_eq_ite, -Nat.reduceAdd]
@[simp] theorem rd_wordOfFields : (wordOfFields funct7 rs2 rs1 funct3 rd opcode).extractLsb' 7 5 = rd := by
  simp [wordOfFields, BitVec.extractLsb'_append_eq_ite, -Nat.reduceAdd]
@[simp] theorem funct3_wordOfFields :
    (wordOfFields funct7 rs2 rs1 funct3 rd opcode).extractLsb' 12 3 = funct3 := by
  simp [wordOfFields, BitVec.extractLsb'_append_eq_ite, -Nat.reduceAdd]
@[simp] theorem rs1_wordOfFields : (wordOfFields funct7 rs2 rs1 funct3 rd opcode).extractLsb' 15 5 = rs1 := by
  simp [wordOfFields, BitVec.extractLsb'_append_eq_ite, -Nat.reduceAdd]
@[simp] theorem rs2_wordOfFields : (wordOfFields funct7 rs2 rs1 funct3 rd opcode).extractLsb' 20 5 = rs2 := by
  simp [wordOfFields, BitVec.extractLsb'_append_eq_ite, -Nat.reduceAdd]
@[simp] theorem funct7_wordOfFields :
    (wordOfFields funct7 rs2 rs1 funct3 rd opcode).extractLsb' 25 7 = funct7 := by
  simp [wordOfFields, BitVec.extractLsb'_append_eq_ite, -Nat.reduceAdd]

/-- A mask of the shape of the decoder's two drops the register operands, and of rd what `m` does not keep. -/
theorem wordOfFields_and_mask (m : BitVec 5) :
    wordOfFields funct7 rs2 rs1 funct3 rd opcode &&&
        wordOfFields (.allOnes 7) 0#5 0#5 (.allOnes 3) m (.allOnes 7) =
      wordOfFields funct7 0#5 0#5 funct3 (rd &&& m) opcode := by
  simp only [wordOfFields, BitVec.and_append, BitVec.and_allOnes, BitVec.and_zero, -Nat.reduceAdd]

@[simp] theorem hasSfenceCode_wordOfFields :
    HasSfenceCode (wordOfFields funct7 rs2 rs1 funct3 rd opcode) ↔
      opcode = 0x73#7 ∧ funct3 = 0#3 ∧ funct7 = 9#7 := by
  simp [HasSfenceCode]

theorem wordOfFields_eq_sfenceMatch_iff :
    wordOfFields funct7 0#5 0#5 funct3 rd opcode = sfenceMatch ↔
      (opcode = 0x73#7 ∧ funct3 = 0#3 ∧ funct7 = 9#7) ∧ rd = 0#5 := by
  rw [sfenceMatch_eq_wordOfFields]
  constructor
  · intro h
    have hcode := (hasSfenceCode_wordOfFields funct7 0#5 0#5 funct3 rd opcode).mp (by rw [h]; simp)
    have hrd := rd_wordOfFields funct7 0#5 0#5 funct3 rd opcode
    rw [h, rd_wordOfFields] at hrd
    exact ⟨hcode, hrd.symm⟩
  · rintro ⟨⟨rfl, rfl, rfl⟩, rfl⟩
    rfl

end

/-! ## What the decoder answers -/

/-- `wordOfFields_and_mask` for a word that is at hand. -/
theorem and_mask_eq_wordOfFields (w : Word) (m : BitVec 5) :
    w &&& wordOfFields (.allOnes 7) 0#5 0#5 (.allOnes 3) m (.allOnes 7) =
      wordOfFields (w.extractLsb' 25 7) 0#5 0#5 (w.extractLsb' 12 3) (w.extractLsb' 7 5 &&& m)
        (w.extractLsb' 0 7) := by
  have h := wordOfFields_and_mask (w.extractLsb' 25 7) (w.extractLsb' 20 5) (w.extractLsb' 15 5)
    (w.extractLsb' 12 3) (w.extractLsb' 7 5) (w.extractLsb' 0 7) m
  rwa [wordOfFields_extract] at h

theorem and_sfenceMask_iff (w : Word) :
    w &&& sfenceMask = sfenceMatch ↔ HasSfenceCode w ∧ w.extractLsb' 7 5 = 0#5 := by
  rw [sfenceMask_eq_wordOfFields, and_mask_eq_wordOfFields, BitVec.and_allOnes,
    wordOfFields_eq_sfenceMatch_iff, HasSfenceCode]

theorem and_sfenceMaskButRd_iff (w : Word) : w &&& sfenceMaskButRd = sfenceMatch ↔ HasSfenceCode w := by
  rw [sfenceMaskButRd_eq_wordOfFields, and_mask_eq_wordOfFields, BitVec.and_zero,
    wordOfFields_eq_sfenceMatch_iff, HasSfenceCode, and_iff_left rfl]

/-- The three answers of the decoder, by the fields of the word (R49, R50). -/
theorem decodeWord_cases (w : Word) :
    (HasSfenceCode w ∧ w.extractLsb' 7 5 = 0#5 ∧
      decodeWord w = .ok (.sfenceVma (w.extractLsb' 15 5).toNat (w.extractLsb' 20 5).toNat)) ∨
    (HasSfenceCode w ∧ w.extractLsb' 7 5 ≠ 0#5 ∧ decodeWord w = .error .reservedRd) ∨
    (¬ HasSfenceCode w ∧ decodeWord w = .error .otherEncoding) := by
  have hmask := and_sfenceMask_iff w
  have hbutRd := and_sfenceMaskButRd_iff w
  unfold decodeWord
  by_cases hcode : HasSfenceCode w
  · by_cases hrd : w.extractLsb' 7 5 = 0#5
    · exact .inl ⟨hcode, hrd, if_pos (hmask.mpr ⟨hcode, hrd⟩)⟩
    · exact .inr (.inl ⟨hcode, hrd, (if_neg fun h => hrd (hmask.mp h).2).trans (if_pos (hbutRd.mpr hcode))⟩)
  · exact .inr (.inr ⟨hcode,
      (if_neg fun h => hcode (hmask.mp h).1).trans (if_neg fun h => hcode (hbutRd.mp h))⟩)

theorem Instr.wf_sfenceVma_iff (rs1 rs2 : Nat) : (Instr.sfenceVma rs1 rs2).wf = true ↔ rs1 < 32 ∧ rs2 < 32 := by
  simp [Instr.wf, regNumberOk]

/-! ## The decoder and the encoder -/

/-- An encoding decodes to its instruction, when that is well-formed (R49). -/
theorem decodeWord_encode {i : Instr} (h : i.wf = true) : decodeWord (encode i) = .ok i := by
  obtain ⟨rs1, rs2⟩ := i
  obtain ⟨h1, h2⟩ := (Instr.wf_sfenceVma_iff rs1 rs2).mp h
  have hcode : HasSfenceCode (encode (.sfenceVma rs1 rs2)) := by
    simp [HasSfenceCode, encode_eq_wordOfFields]
  have hrd : (encode (.sfenceVma rs1 rs2)).extractLsb' 7 5 = 0#5 := by simp [encode_eq_wordOfFields]
  rcases decodeWord_cases (encode (.sfenceVma rs1 rs2)) with ⟨_, _, h⟩ | ⟨_, hne, _⟩ | ⟨hne, _⟩
  · rw [h]
    simp [encode_eq_wordOfFields, Nat.mod_eq_of_lt h1, Nat.mod_eq_of_lt h2]
  · exact absurd hrd hne
  · exact absurd hcode hne

/-- A word that decodes is the encoding of what it decodes to, and that is well-formed (R49). -/
theorem encode_of_decodeWord {w : Word} {i : Instr} (h : decodeWord w = .ok i) : i.wf = true ∧ encode i = w := by
  rcases decodeWord_cases w with ⟨⟨hop, hf3, hf7⟩, hrd, hd⟩ | ⟨_, _, hd⟩ | ⟨_, hd⟩ <;> rw [hd] at h <;> cases h
  refine ⟨(Instr.wf_sfenceVma_iff ..).mpr ⟨BitVec.isLt _, BitVec.isLt _⟩, ?_⟩
  rw [encode_eq_wordOfFields, BitVec.ofNat_toNat, BitVec.ofNat_toNat]
  conv_rhs => rw [← wordOfFields_extract w, hop, hf3, hf7, hrd]
  simp

/-- The decoder's answer on the bytes of a word, whatever follows them (R28). -/
theorem decode_bytesOfWord {w : Word} {i : Instr} (h : decodeWord w = .ok i) (rest : List Byte) :
    decode (bytesOfWord w ++ rest) = .ok (i, rest) := by
  simp [bytesOfWord, decode, Machine.wordOfBytes_bytes, h]

/-- Settles O2: `decodeWord_encode` for the word, `decode_bytesOfWord` for its bytes. -/
theorem decodeOfEncodeIsTheInstruction : Obligations.DecodeOfEncodeIsTheInstruction := fun _ h =>
  ⟨decodeWord_encode h, decode_bytesOfWord (decodeWord_encode h)⟩

/-- Settles O3: the two directions of decoding, and the second of the decoder's three answers. -/
theorem decodeAcceptsExactlyEncodings : Obligations.DecodeAcceptsExactlyEncodings := by
  refine ⟨fun w i => ⟨encode_of_decodeWord, ?_⟩, fun w => ?_⟩
  · rintro ⟨hwf, rfl⟩
    exact decodeWord_encode hwf
  · rcases decodeWord_cases w with ⟨_, hrd, hd⟩ | ⟨⟨hop, hf3, hf7⟩, hrd, hd⟩ | ⟨hcode, hd⟩
    · simp [hd, hrd]
    · simp [hd, hrd, hop, hf3, hf7]
    · rw [hd]
      exact ⟨nofun, fun ⟨hop, hf3, hf7, _⟩ => absurd ⟨hop, hf3, hf7⟩ hcode⟩

/-- Settles O1: the decoder evaluates on each of the six words. -/
theorem writtenWordsDecode : Obligations.WrittenWordsDecode := by
  unfold Obligations.WrittenWordsDecode
  decide

end Sys2Proof

namespace Sys2Proof.Machine

/-! ## The fields of a virtual address -/

theorem toNat_vaVpn1 (va : Word) : (vaVpn1 va).toNat = va.toNat / 2 ^ 22 := by
  simp only [vaVpn1, BitVec.extractLsb'_toNat, Nat.shiftRight_eq_div_pow]
  omega

theorem toNat_vaVpn0 (va : Word) : (vaVpn0 va).toNat = va.toNat / 2 ^ 12 % 2 ^ 10 := by
  simp only [vaVpn0, BitVec.extractLsb'_toNat, Nat.shiftRight_eq_div_pow]

theorem toNat_vaVpn (va : Word) : (vaVpn va).toNat = va.toNat / 2 ^ 12 := by
  simp only [vaVpn, BitVec.extractLsb'_toNat, Nat.shiftRight_eq_div_pow]
  omega

/-- Settles O19: each field is a quotient, a remainder or both of the address. -/
theorem virtualAddressPartition : Obligations.VirtualAddressPartition := by
  intro va
  rw [toNat_vaVpn1, toNat_vaVpn0, toNat_vaVpn, toNat_vaPgoff]
  omega

/-! ## The reserved encodings of a PTE -/

/-- Step 3's test (R84): invalid, W without R, or a non-leaf with D, A or U set where the parameter says so. -/
theorem pteReserved_iff (cfg : Config) (pte : Word) :
    pteReserved cfg pte = true ↔
      pteV pte = false ∨ (pteR pte = false ∧ pteW pte = true) ∨
        (cfg.nonleafDauFault = true ∧ pteR pte = false ∧ pteW pte = false ∧ pteX pte = false ∧
          (pteD pte = true ∨ pteA pte = true ∨ pteU pte = true)) := by
  simp [pteReserved, or_assoc, and_assoc]

/-- A read that returns a reserved PTE stops the walk with a page-fault of the original access's type (R84). -/
theorem Walk.Reads.step_of_reserved {w : Walk} {s : State} {e : AtcEntry} (h : w.Reads s e)
    (hres : pteReserved s.cfg e.pte = true) :
    (w.step s).1 = .raise ⟨.pageFault, w.acc, w.va⟩ ∧ (w.step s).2.mem = s.mem := by
  refine ⟨h.step.1.trans ?_, h.step.2⟩
  simp [Walk.judge, hres, Walk.exn]

/-- A read at the root that returns a pointer is followed to the table it names (R85). -/
theorem Walk.Reads.step_of_pointer {w : Walk} {s : State} {e : AtcEntry} (h : w.Reads s e)
    (hres : pteReserved s.cfg e.pte = false) (hleaf : pteIsLeaf e.pte = false) (hl : w.level = .l1) :
    (w.step s).1 = .more { w with
      table := ptePpn e.pte
      level := .l0
      globalAbove := w.globalAbove || pteG e.pte
      memOnly := false
      held := e :: w.held } := by
  rw [h.step.1]
  simp [Walk.judge, hres, hleaf, hl]

/-- Settles O24: the first two clauses are cases of `pteReserved_iff`; in the third none of its cases holds. -/
theorem reservedEncodingsFault : Obligations.ReservedEncodingsFault := by
  refine fun w s e h => ⟨fun hr hw => ?_, fun hr hw hx hdau hbits => ?_, fun hv hr hw hx hdau hl => ?_⟩
  · exact h.step_of_reserved ((pteReserved_iff ..).mpr (.inr (.inl ⟨hr, hw⟩)))
  · exact h.step_of_reserved ((pteReserved_iff ..).mpr (.inr (.inr ⟨hdau, hr, hw, hx, hbits⟩)))
  · have hres : pteReserved s.cfg e.pte = false := by
      rw [← Bool.not_eq_true, pteReserved_iff]
      simp [hv, hw, hdau]
    have hleaf : pteIsLeaf e.pte = false := by simp [pteIsLeaf, hr, hx]
    exact ⟨_, h.step_of_pointer hres hleaf hl, rfl, rfl⟩

/-! ## A word that is no instruction -/

/-- The step on a fetched word that the decoder rejects is its refusal (R50, U14). -/
theorem step_of_rejected {s u v : State} {b0 b1 b2 b3 : Byte} {e : DecodeError} (ht : s.HartsTurn u)
    (hf : u.Fetches [b0, b1, b2, b3] v) (he : decodeWord (wordOfBytes b0 b1 b2 b3) = .error e) :
    step s = refuseWord e (wordOfBytes b0 b1 b2 b3) := by
  rw [step_of_turn ht]
  simp only [hartTurn, hartMove_of_fetches hf, he]

/-- Settles O5: what `refuseWord` answers for each of the two reasons. -/
theorem otherWordsAreRefusedByName : Obligations.OtherWordsAreRefusedByName := fun _ _ _ _ _ _ _ ht hf =>
  ⟨fun he => step_of_rejected ht hf he, fun he => step_of_rejected ht hf he⟩

/-! ## The write of `satp` -/

/-- The step of the hart's next listed act, with no access in progress. -/
theorem step_of_op {s u : State} {op : HartOp} {rest : List HartOp} {o : Host.Outcome State Fault Refusal}
    (ht : s.HartsTurn u) (ha : u.access = none) (ho : u.ops = op :: rest)
    (h : hartOp { u with ops := rest } op = .out o) : step s = o :=
  step_of_out ht (by simpa only [hartMove, ha, ho] using h)

/-- Settles O55: what `satp` keeps of the word by the laws of `legalSatp`, the other fields by the frame of
`State.setCsr`. -/
theorem satpWriteKeepsCache : Obligations.SatpWriteKeepsCache := by
  intro s u v rest ht ha ho
  refine ⟨{ u with ops := rest }.setCsr .satp v, step_of_op ht ha ho rfl, ?mode, ?ppn, ?asid, ?frame⟩
  case mode => exact satpSv32_legalSatp ..
  case ppn => exact satpPpn_legalSatp ..
  case asid => exact satpAsid_legalSatp ..
  case frame =>
    exact ⟨State.setCsr_atc .., State.setCsr_spec .., State.setCsr_mem .., State.setCsr_pc ..,
      State.setCsr_regs .., rfl⟩

end Sys2Proof.Machine
end

section
/-! PROOFS. Protection: the PTEs that stop a walk, what a leaf permits, and the A and D bits, from the read that finds
them clear to the compare-and-write that sets them. -/

namespace Sys2Proof.Machine

/-- Settles O23: V=0 is the first of the reserved encodings. -/
theorem invalidPteFaults : Obligations.InvalidPteFaults := fun _ _ _ h hv =>
  h.step_of_reserved ((pteReserved_iff ..).mpr (.inl hv))

/-! ## What a leaf permits -/

/-- Step 5's predicate, condition by condition (R66): the privilege mode against U (R62 to R64), then the access type
against X, R and W (R58 to R60, R65). -/
theorem leafPermits_iff (pte : Word) (acc : Acc) (priv : Mode) (sum mxr : Bool) :
    leafPermits pte acc priv sum mxr = true ↔
      ((priv = .u → pteU pte = true) ∧ (priv ≠ .u → pteU pte = true → acc ≠ .fetch ∧ sum = true)) ∧
      (acc = .fetch → pteX pte = true) ∧
      (acc = .load → pteR pte = true ∨ (mxr = true ∧ pteX pte = true)) ∧
      (acc = .store → pteW pte = true) := by
  simp only [leafPermits, Bool.and_eq_true]
  refine and_congr ?privilege ?type
  case privilege =>
    by_cases hu : priv = .u
    · simp [hu]
    · cases hU : pteU pte <;> simp [hu]
  case type => cases acc <;> simp

section
variable {w : Walk} {s : State} {e : AtcEntry} (h : w.Reads s e) (hleaf : pteIsLeaf e.pte = true)
include h hleaf

/-- A leaf that does not permit the access stops the walk with a page-fault (R86). -/
theorem Walk.Reads.step_of_denied
    (hperm : leafPermits e.pte w.acc w.priv (msSum s.mstatus) (msMxr s.mstatus) = false) :
    (w.step s).1 = .raise ⟨.pageFault, w.acc, w.va⟩ ∧ (w.step s).2.mem = s.mem := by
  refine ⟨h.step.1.trans ?_, h.step.2⟩
  rcases w.judge_cases s e with hraise | ⟨_, hptr, _⟩ | ⟨_, _, hperm', _⟩
  · exact hraise
  · simp [pteIsPointer, hleaf] at hptr
  · exact absurd hperm' (by simp [hperm])

/-- A leaf in which step 7 would have to set a bit and may not stops the walk with a page-fault (R73, R99). -/
theorem Walk.Reads.step_of_adStops (hn : needsAD e.pte w.acc = true) (hstops : w.adStops s.cfg e.pte = true) :
    (w.step s).1 = .raise ⟨.pageFault, w.acc, w.va⟩ ∧ (w.step s).2.mem = s.mem := by
  refine ⟨h.step.1.trans ?_, h.step.2⟩
  rcases w.judge_cases s e with hraise | ⟨_, hptr, _⟩ | ⟨_, _, _, _, ⟨_, hgoes, _⟩ | ⟨hset, _⟩⟩
  · exact hraise
  · simp [pteIsPointer, hleaf] at hptr
  · exact absurd hgoes (by simp [hstops])
  · exact absurd hset (by simp [hn])

end

/-- Settles O26: each of the four cases contradicts one condition of `leafPermits_iff`. -/
theorem forbiddenAccessesPageFault : Obligations.ForbiddenAccessesPageFault := by
  intro w s e h hleaf hforbidden
  refine h.step_of_denied hleaf (Bool.eq_false_iff.mpr fun hperm => ?_)
  obtain ⟨⟨huser, hsuper⟩, hfetch, _, hstore⟩ := (leafPermits_iff ..).mp hperm
  rcases hforbidden with ⟨hacc, hx⟩ | ⟨hacc, hw⟩ | ⟨hp, hU⟩ | ⟨hp, hU, hacc⟩
  · simp [hfetch hacc] at hx
  · simp [hstore hacc] at hw
  · simp [huser hp] at hU
  · exact (hsuper (by simp [hp]) hU).1 hacc

/-- Settles O27: each of the two cases contradicts one condition of `leafPermits_iff`. -/
theorem unreadableAndUserPagesPageFault : Obligations.UnreadableAndUserPagesPageFault := by
  intro w s e h hleaf hforbidden
  refine h.step_of_denied hleaf (Bool.eq_false_iff.mpr fun hperm => ?_)
  obtain ⟨⟨_, hsuper⟩, _, hload, _⟩ := (leafPermits_iff ..).mp hperm
  rcases hforbidden with ⟨hacc, hr, hexec⟩ | ⟨hp, hU, _, hsum⟩
  · rcases hload hacc with hr' | ⟨hmxr, hx⟩
    · simp [hr'] at hr
    · simp [hmxr, hx] at hexec
  · simp [(hsuper (by simp [hp]) hU).2] at hsum

/-! ## A permitted leaf -/

/-- The PTE passes steps 3 to 6 as a leaf (R84 to R87): no reserved encoding, permitting, and no misaligned
superpage. -/
structure Walk.Accepts (w : Walk) (s : State) (pte : Word) : Prop where
  valid : pteReserved s.cfg pte = false
  leaf : pteIsLeaf pte = true
  permits : leafPermits pte w.acc w.priv (msSum s.mstatus) (msMxr s.mstatus) = true
  aligned : w.level = .l1 → ptePpn0 pte = 0#10

/-- On an accepted leaf only the A and D bits are left to decide what becomes of the walk (R88, R89). -/
theorem Walk.Accepts.judge {w : Walk} {s : State} {e : AtcEntry} (h : w.Accepts s e.pte) :
    w.judge s e =
      if needsAD e.pte w.acc then
        if w.adStops s.cfg e.pte then .raise (w.exn .pageFault)
        else .more { w with memOnly := false, held := e :: w.held, leaf := some e.pte }
      else .done (leafAddr e.pte w.va w.level) := by
  have hal : (decide (w.level = .l1) && decide (ptePpn0 e.pte ≠ 0#10)) = false := by simpa using h.aligned
  simp only [Walk.judge, h.valid, h.leaf, h.permits, hal, Bool.not_true, Bool.false_eq_true, if_false]

/-- `needsAD` is false exactly where the bits the access needs are set. -/
theorem needsAD_eq_false {pte : Word} {acc : Acc} (ha : pteA pte = true)
    (hd : acc = .store → pteD pte = true) : needsAD pte acc = false := by
  simpa [needsAD, ha] using hd

section
variable {w : Walk} {s : State} {e : AtcEntry} (h : w.Reads s e) (hacc : w.Accepts s e.pte)
include h hacc

/-- An accepted leaf with the bits the access needs translates it, and no memory is written (R89). -/
theorem Walk.Reads.step_of_accepts (ha : pteA e.pte = true) (hd : w.acc = .store → pteD e.pte = true) :
    (w.step s).1 = .done (leafAddr e.pte w.va w.level) ∧ (w.step s).2.mem = s.mem := by
  refine ⟨h.step.1.trans ?_, h.step.2⟩
  simp [hacc.judge, needsAD_eq_false ha hd]

/-- An accepted leaf that lacks a bit which the walk may set is held for the compare-and-write (R88). -/
theorem Walk.Reads.step_of_held (hn : needsAD e.pte w.acc = true) (hgoes : w.adStops s.cfg e.pte = false) :
    (w.step s).1 = .more { w with memOnly := false, held := e :: w.held, leaf := some e.pte } := by
  rw [h.step.1]
  simp [hacc.judge, hn, hgoes]

end

/-- Settles O28: the hypotheses are those of `Walk.Accepts`; that the PTE is a leaf follows from the bit the access
type needs. -/
theorem permittedAccessTranslates : Obligations.PermittedAccessTranslates := by
  intro w s e h hm hv hrw hfetch hload hstore huser hsuper hal ha hd
  have hleaf : pteR e.pte = true ∨ pteX e.pte = true := by
    cases hacc : w.acc with
    | fetch => exact .inr (hfetch hacc)
    | load => exact (hload hacc).imp_right And.right
    | store => exact hrw.imp_right fun hw => by simp [hstore hacc] at hw
  have hvalid : pteReserved s.cfg e.pte = false := by
    rw [← Bool.not_eq_true, pteReserved_iff]
    rintro (hv' | ⟨hr, hw⟩ | ⟨_, hr, _, hx, _⟩)
    · simp [hv] at hv'
    · simp [hr, hw] at hrw
    · simp [hr, hx] at hleaf
  have hpriv (hu : w.priv ≠ .u) : w.priv = .s := by
    cases hp : w.priv with
    | u => exact absurd hp hu
    | s => rfl
    | m => exact absurd hp hm
  refine h.step_of_accepts ⟨hvalid, by simpa [pteIsLeaf] using hleaf, ?_, hal⟩ ha hd
  exact (leafPermits_iff ..).mpr ⟨⟨huser, fun hu hU => hsuper (hpriv hu) hU⟩, hfetch, hload, hstore⟩

/-! ## The A and D bits -/

/-- Settles O30: under `Fault` step 7 always stops; a leaf that needs no bit does not come to it. -/
theorem faultSchemeRaisesOnClearBits : Obligations.FaultSchemeRaisesOnClearBits := fun _ _ _ h hscheme =>
  ⟨fun hleaf hclear => h.step_of_adStops hleaf ((needsAD_iff ..).mpr hclear) (by simp [Walk.adStops, hscheme]),
    fun hvalid hleaf hperm hal ha hd => h.step_of_accepts ⟨hvalid, hleaf, hperm, hal⟩ ha hd⟩

/-- With a leaf held, the next event is step 7's. -/
theorem Walk.step_of_leaf {w : Walk} {pte : Word} (h : w.leaf = some pte) (s : State) :
    w.step s = w.updateStep s pte := by
  simp [Walk.step, h]

section
variable {w : Walk} {s : State} {pte : Word} (hl : w.leaf = some pte)
include hl

/-- A store to the PTE that fails its check is an access-fault (R88, R22). -/
theorem Walk.step_of_storeDenied (hp : s.physOk w.pteAddr 4 .store true w.priv = false) :
    w.step s = (.raise (w.exn .accessFault), s) := by
  rw [Walk.step_of_leaf hl]
  rcases w.updateStep_cases s pte with ⟨_, hs⟩ | ⟨hp', _⟩
  · exact hs
  · exact absurd hp' (by simp [hp])

/-- Where memory holds another value than the leaf, the walk goes back to step 2 (R88). -/
theorem Walk.step_of_differs {other : Word} (hp : s.physOk w.pteAddr 4 .store true w.priv = true)
    (hr : s.mem.pteRead w.speculative w.pteAddr = some other) (hne : other ≠ pte) :
    w.step s = (.more { w with memOnly := true, held := w.held.tail, leaf := none }, s) := by
  rw [Walk.step_of_leaf hl]
  rcases w.updateStep_cases s pte with ⟨hp', _⟩ | ⟨_, ⟨hr', _⟩ | ⟨hr', _⟩ | ⟨_, _, _, hs⟩⟩
  · exact absurd hp' (by simp [hp])
  · exact absurd hr' (by simp [hr])
  · exact absurd hr' (by simp [hr, hne])
  · exact hs

/-- Where memory holds the leaf, the walk is done, and A, with D for a store, is written to it (R88, R30). -/
theorem Walk.step_of_matches (hp : s.physOk w.pteAddr 4 .store true w.priv = true)
    (hr : s.mem.pteRead w.speculative w.pteAddr = some pte) :
    ∃ t, w.step s = (.done (leafAddr pte w.va w.level), t) ∧
      t.mem = s.mem.writeWord w.pteAddr (pteWithAD pte w.acc) := by
  rw [Walk.step_of_leaf hl]
  rcases w.updateStep_cases s pte with ⟨hp', _⟩ | ⟨_, ⟨hr', _⟩ | ⟨_, hs⟩ | ⟨_, hr', hne, _⟩⟩
  · exact absurd hp' (by simp [hp])
  · exact absurd hr' (by simp [hr])
  · exact ⟨_, hs, by simp⟩
  · exact absurd (Option.some.inj (hr'.symm.trans hr)) hne

end

/-- Under `HwUpdate` nothing keeps a walk of the program from step 7's write (R74). -/
theorem Walk.adStops_eq_false {w : Walk} {cfg : Config} (hscheme : cfg.adScheme = .hwUpdate)
    (hsp : w.speculative = false) (pte : Word) : w.adStops cfg pte = false := by
  simp [Walk.adStops, hscheme, hsp]

/-- Settles O31: the read of an accepted leaf, then the three outcomes of the compare-and-write. -/
theorem stepSevenComparesAndWrites : Obligations.StepSevenComparesAndWrites := by
  refine ⟨fun w s e h hscheme hsp hvalid hleaf hperm hal => ?read, fun w s pte hl hsp => ?update⟩
  case read =>
    have hacc : w.Accepts s e.pte := ⟨hvalid, hleaf, hperm, hal⟩
    refine ⟨h.step_of_accepts hacc, fun hclear => ?_⟩
    have hheld := h.step_of_held hacc ((needsAD_iff ..).mpr hclear) (Walk.adStops_eq_false hscheme hsp _)
    exact ⟨_, hheld, rfl, rfl, rfl, h.step.2⟩
  case update =>
    have hread : s.mem.pteRead w.speculative w.pteAddr = s.mem.word w.pteAddr := by simp [Memory.pteRead, hsp]
    refine ⟨Walk.step_of_storeDenied hl, fun hp => ⟨fun other hr hne => ?differs, fun hr => ?same⟩⟩
    case differs => exact ⟨_, Walk.step_of_differs hl hp (hread.trans hr) hne, rfl, rfl, rfl⟩
    case same =>
      obtain ⟨t, hstep, hmem⟩ := Walk.step_of_matches hl hp (hread.trans hr)
      refine ⟨t, pteWithAD pte w.acc, hstep, ?_, getLsbD_pteWithAD pte w.acc, fun a ha => ?_⟩
      · rw [hmem, Memory.word_writeWord_same]
      · refine Walk.read_step_ne hstep fun hin => ?_
        obtain ⟨i, hi, hai⟩ := mem_byteAddrs_four.mp hin
        exact ha i hi hai

/-! ## What a walk writes -/

/-- A PTE's address is a multiple of four (R29, R83). -/
theorem pteAddr_aligned (table : Ppn) (vpn : BitVec 10) : (pteAddr table vpn).toNat % 4 = 0 := by
  rw [pteAddr, BitVec.toNat_append, Nat.shiftLeft_eq]
  simp

/-- An event of a walk leaves an aligned word as it was or sets A, and D for a store, in it (R71, R75). -/
theorem Walk.wordFree_step (w : Walk) (s : State) {pa : PAddr} (h : pa.toNat % 4 = 0) :
    (w.step s).2.mem.wordFree pa = s.mem.wordFree pa ∨
      (w.step s).2.mem.wordFree pa = pteWithAD (s.mem.wordFree pa) w.acc := by
  rcases w.step_mem s with hsame | ⟨pte, _, _, hread, hwritten, _⟩
  · exact .inl (congrArg (·.wordFree pa) hsame)
  · rw [hwritten]
    by_cases hpa : pa = w.pteAddr
    · right
      rw [hpa, Memory.wordFree_of_word (Memory.word_writeWord_same ..), Memory.wordFree_of_pteRead hread]
    · exact .inl (Memory.wordFree_writeWord_ne _ (pteAddr_aligned ..) h hpa)

/-- Settles O36: by `Walk.wordFree_step`, and the bits that setting A and D changes. -/
theorem walksNeverClearPteBits : Obligations.WalksNeverClearPteBits := by
  intro w s pa hpa j
  rcases w.wordFree_step s hpa with hsame | hset
  · simp [hsame]
  · rw [hset, getLsbD_pteWithAD]
    exact ⟨fun hj => by simp [hj], fun h6 h7 => by simp [h6, h7]⟩

end Sys2Proof.Machine
end

section
/-! PROOFS. The translation process: the addresses it forms, what one event of a walk comes to, which events the cache
has a part in, and that a walk ends. -/

namespace Sys2Proof.Machine

/-! ## Addresses -/

/-- Fields side by side: the upper one counts in units of the lower one's range. -/
theorem toNat_append_eq_add {m n : Nat} (x : BitVec m) (y : BitVec n) :
    (x ++ y).toNat = x.toNat * 2 ^ n + y.toNat := by
  rw [BitVec.toNat_append, ← Nat.shiftLeft_add_eq_or_of_lt y.isLt, Nat.shiftLeft_eq]

/-- Settles O18: below the table's page number stand 12 bits, the index and two zeros. -/
theorem pteAddressNeverCarries : Obligations.PteAddressNeverCarries := by
  intro table vpn
  have hvpn := vpn.isLt
  have haddr : (pteAddr table vpn).toNat = table.toNat * 4096 + vpn.toNat * 4 := by
    rw [pteAddr, toNat_append_eq_add, toNat_append_eq_add, BitVec.toNat_ofNat]
    omega
  exact ⟨haddr, pteAddr_aligned table vpn, by omega⟩

theorem toNat_ptePpn (p : Word) : (ptePpn p).toNat = (ptePpn1 p).toNat * 2 ^ 10 + (ptePpn0 p).toNat := by
  simp only [ptePpn, ptePpn1, ptePpn0, BitVec.extractLsb'_toNat, Nat.shiftRight_eq_div_pow]
  omega

/-- Step 8's address for a page: the leaf's PPN and the page offset (R89). -/
theorem toNat_leafAddr_page (p va : Word) :
    (leafAddr p va .l0).toNat = (ptePpn p).toNat * 4096 + (vaPgoff va).toNat := by
  rw [leafAddr, toNat_append_eq_add, toNat_append_eq_add, toNat_ptePpn]
  omega

/-- Step 8's address for a superpage: `va.vpn[0]` stands for PPN[0] (R89). -/
theorem toNat_leafAddr_superpage (p va : Word) :
    (leafAddr p va .l1).toNat =
      (ptePpn1 p).toNat * 2 ^ 22 + (vaVpn0 va).toNat * 2 ^ 12 + (vaPgoff va).toNat := by
  rw [leafAddr, toNat_append_eq_add, toNat_append_eq_add]
  omega

/-! ## One event of a walk -/

/-- With no leaf held, the next event is a step-2 read. -/
theorem Walk.step_of_noLeaf {w : Walk} (h : w.leaf = none) (s : State) : w.step s = w.readStep s := by
  simp [Walk.step, h]

/-- Settles O22: the first case of a step-2 read. -/
theorem pteReadCheckRaisesAccessFault : Obligations.PteReadCheckRaisesAccessFault := by
  intro w s hl hdenied
  rw [Walk.step_of_noLeaf hl]
  rcases w.readStep_cases s with ⟨_, hstep⟩ | ⟨hok, _⟩
  · exact hstep
  · exact absurd hok (by simp [hdenied])

/-- An event with no leaf held is denied, stops on bytes that nothing has written, or reads an entry. -/
theorem Walk.step_read_cases {w : Walk} (hl : w.leaf = none) (s : State) :
    w.step s = (.raise (w.exn .accessFault), s) ∨ w.step s = (.unwritten, s) ∨ ∃ e, w.Reads s e := by
  rw [Walk.step_of_noLeaf hl]
  rcases w.readStep_cases s with ⟨_, hstep⟩ | ⟨hok, ⟨e, hc, _⟩ | ⟨hc, ⟨_, hstep⟩ | ⟨pte, hr, _⟩⟩⟩
  · exact .inl hstep
  · exact .inr (.inr ⟨e, hl, hok, .inl hc⟩)
  · exact .inr (.inl hstep)
  · exact .inr (.inr ⟨w.record pte, hl, hok, .inr ⟨hc, pte, hr, rfl⟩⟩)

/-- A walk is done on a leaf that it has just read or has held for step 7 (R89). -/
theorem Walk.step_done {w : Walk} {s t : State} {pa : PAddr} (h : w.step s = (.done pa, t)) :
    ∃ pte, (w.leaf = some pte ∨ ∃ e, w.Reads s e ∧ e.pte = pte) ∧ pa = leafAddr pte w.va w.level := by
  cases hl : w.leaf with
  | none =>
    rcases Walk.step_read_cases hl s with hstep | hstep | ⟨e, hr⟩
    · rw [hstep] at h; cases h
    · rw [hstep] at h; cases h
    · have hj := hr.step.1
      rw [h] at hj
      rcases w.judge_cases s e with hj' | ⟨_, _, hj'⟩ | ⟨_, _, _, _, ⟨_, _, hj'⟩ | ⟨_, hj'⟩⟩ <;>
        rw [hj'] at hj <;> cases hj
      exact ⟨e.pte, .inr ⟨e, hr, rfl⟩, rfl⟩
  | some pte =>
    rw [Walk.step_of_leaf hl] at h
    rcases w.updateStep_cases s pte with ⟨_, h'⟩ | ⟨_, ⟨_, h'⟩ | ⟨_, h'⟩ | ⟨_, _, _, h'⟩⟩ <;>
      rw [h'] at h <;> cases h
    exact ⟨pte, .inl rfl, rfl⟩

/-- Settles O20: `Walk.step_done`, and the address of step 8 for each level. -/
theorem translatedAddressComposition : Obligations.TranslatedAddressComposition := by
  intro w s t pa h
  obtain ⟨pte, hpte, rfl⟩ := Walk.step_done h
  refine ⟨pte, hpte, fun hlevel => ?_, fun hlevel => ?_⟩ <;> rw [hlevel]
  · exact toNat_leafAddr_page pte w.va
  · exact toNat_leafAddr_superpage pte w.va

/-- A pointer at level 0 is a page-fault: no case of steps 3 to 8 but that is left to it (R85). -/
theorem Walk.Reads.step_of_pointer_below {w : Walk} {s : State} {e : AtcEntry} (h : w.Reads s e)
    (hleaf : pteIsLeaf e.pte = false) (hl : w.level = .l0) : (w.step s).1 = .raise ⟨.pageFault, w.acc, w.va⟩ := by
  rw [h.step.1]
  rcases w.judge_cases s e with hraise | ⟨hroot, _, _⟩ | ⟨_, hleaf', _⟩
  · exact hraise
  · exact absurd hroot (by simp [hl])
  · exact absurd hleaf' (by simp [hleaf])

/-- Settles O25: `Walk.Reads.step_of_pointer` at the root, `Walk.Reads.step_of_pointer_below` at level 0. -/
theorem pointersAreFollowedOnceOnly : Obligations.PointersAreFollowedOnceOnly := by
  intro w s e h hvalid hr hx
  have hleaf : pteIsLeaf e.pte = false := by simp [pteIsLeaf, hr, hx]
  exact ⟨h.step_of_pointer_below hleaf, fun hlevel =>
    ⟨_, h.step_of_pointer hvalid hleaf hlevel, h.1, rfl, rfl, rfl, rfl, rfl, rfl, rfl⟩⟩

/-- Settles O29: past the test of R87 a leaf at level 1 has PPN[0] clear. -/
theorem misalignedSuperpageFaults : Obligations.MisalignedSuperpageFaults := by
  intro w s e h hleaf hlevel hppn
  refine ⟨h.step.1.trans ?_, h.step.2⟩
  rcases w.judge_cases s e with hraise | ⟨_, hptr, _⟩ | ⟨_, _, _, haligned, _⟩
  · exact hraise
  · simp [pteIsPointer, hleaf] at hptr
  · exact absurd (haligned hlevel) hppn

/-! ## Going on -/

/-- The walk that goes on from a pointer read at the root (R85). -/
def Walk.follow (w : Walk) (e : AtcEntry) : Walk :=
  { w with
    table := ptePpn e.pte
    level := .l0
    globalAbove := w.globalAbove || pteG e.pte
    memOnly := false
    held := e :: w.held }

/-- The walk that holds the leaf it has read for step 7 (R88). -/
def Walk.hold (w : Walk) (e : AtcEntry) : Walk :=
  { w with memOnly := false, held := e :: w.held, leaf := some e.pte }

/-- The walk that goes back to step 2 after a failed compare (R88). -/
def Walk.retry (w : Walk) : Walk := { w with memOnly := true, held := w.held.tail, leaf := none }

/-- A walk goes on in one of three ways: it follows a pointer, it holds a leaf, or its compare has failed. -/
theorem Walk.step_more_cases {w w' : Walk} {s s' : State} (h : w.step s = (.more w', s')) :
    (∃ e, w.Reads s e ∧ w.level = .l1 ∧ w' = w.follow e) ∨
    (∃ e, w.Reads s e ∧ w' = w.hold e) ∨
    (∃ pte, w.leaf = some pte ∧ s.mem.pteRead w.speculative w.pteAddr ≠ some pte ∧ w' = w.retry ∧ s' = s) := by
  cases hl : w.leaf with
  | none =>
    rcases Walk.step_read_cases hl s with hstep | hstep | ⟨e, hr⟩
    · rw [hstep] at h; cases h
    · rw [hstep] at h; cases h
    · have hj := hr.step.1
      rw [h] at hj
      rcases w.judge_cases s e with hj' | ⟨hlevel, _, hj'⟩ | ⟨_, _, _, _, ⟨_, _, hj'⟩ | ⟨_, hj'⟩⟩ <;>
        rw [hj'] at hj <;> cases hj
      · exact .inl ⟨e, hr, hlevel, rfl⟩
      · exact .inr (.inl ⟨e, hr, rfl⟩)
  | some pte =>
    rw [Walk.step_of_leaf hl] at h
    rcases w.updateStep_cases s pte with ⟨_, h'⟩ | ⟨_, ⟨_, h'⟩ | ⟨_, h'⟩ | ⟨other, hread, hne, h'⟩⟩ <;>
      rw [h'] at h <;> cases h
    exact .inr (.inr ⟨pte, rfl, by simp [hread, hne], rfl, rfl⟩)

/-- Settles O32: from a held leaf a walk goes on only by the failed compare, and then the next read is bound to
memory. -/
theorem rereadAfterFailedCompareUsesMemory : Obligations.RereadAfterFailedCompareUsesMemory := by
  intro w w' s t u pte pick hl h
  rcases Walk.step_more_cases h with ⟨_, ⟨hnone, _⟩, _⟩ | ⟨_, ⟨hnone, _⟩, _⟩ | ⟨_, _, _, rfl, _⟩
  · rw [hl] at hnone; cases hnone
  · rw [hl] at hnone; cases hnone
  · simp [Walk.cached, Walk.retry]

/-! ## Step 7 and the cache -/

/-- A byte of the leaf that nothing has written stops step 7 (R135). -/
theorem Walk.step_of_leafUnwritten {w : Walk} {s : State} {pte : Word} (hl : w.leaf = some pte)
    (hp : s.physOk w.pteAddr 4 .store true w.priv = true)
    (hr : s.mem.pteRead w.speculative w.pteAddr = none) : w.step s = (.unwritten, s) := by
  rw [Walk.step_of_leaf hl]
  rcases w.updateStep_cases s pte with ⟨hp', _⟩ | ⟨_, ⟨_, hs⟩ | ⟨hr', _⟩ | ⟨_, hr', _⟩⟩
  · exact absurd hp' (by simp [hp])
  · exact hs
  · exact absurd hr' (by simp [hr])
  · exact absurd hr' (by simp [hr])

/-- The compare-and-write has the same outcome and leaves the same memory from every two states with the same
parameters, checks and memory (R96): no other field plays a part. -/
theorem Walk.step_leaf_congr {w : Walk} {s t : State} {pte : Word} (hl : w.leaf = some pte)
    (hcfg : t.cfg = s.cfg) (hphys : t.phys = s.phys) (hmem : t.mem = s.mem) :
    (w.step t).1 = (w.step s).1 ∧ (w.step t).2.mem = (w.step s).2.mem := by
  have hok := State.physOk_congr hcfg hphys w.pteAddr 4 .store true w.priv
  cases hp : s.physOk w.pteAddr 4 .store true w.priv with
  | false => simp [Walk.step_of_storeDenied hl hp, Walk.step_of_storeDenied hl (hok.trans hp), hmem]
  | true =>
    have hp' := hok.trans hp
    cases hr : s.mem.pteRead w.speculative w.pteAddr with
    | none =>
      have hr' := hmem ▸ hr
      simp [Walk.step_of_leafUnwritten hl hp hr, Walk.step_of_leafUnwritten hl hp' hr', hmem]
    | some other =>
      have hr' := hmem ▸ hr
      by_cases hne : other = pte
      · subst hne
        obtain ⟨s', hs, hsm⟩ := Walk.step_of_matches hl hp hr
        obtain ⟨t', ht, htm⟩ := Walk.step_of_matches hl hp' hr'
        simp [hs, ht, hsm, htm, hmem]
      · simp [Walk.step_of_differs hl hp hr hne, Walk.step_of_differs hl hp' hr' hne, hmem]

/-- A read that a cache entry answers has the outcome and leaves the memory that its check and the entry decide
(R95). -/
theorem Walk.step_of_cached {w : Walk} {s : State} {e : AtcEntry} (hl : w.leaf = none)
    (hc : w.cached s s.nextChoice.pick = some e) :
    w.step s =
      if s.physOk w.pteAddr 4 .load true w.priv then (w.judge s e, s.afterChoice)
      else (.raise (w.exn .accessFault), s) := by
  rw [Walk.step_of_noLeaf hl]
  rcases w.readStep_cases s with ⟨hp, hstep⟩ | ⟨hp, ⟨e', hc', hstep⟩ | ⟨hc', _⟩⟩
  · simp [hp, hstep]
  · cases hc.symm.trans hc'
    simp [hp, hstep]
  · cases hc.symm.trans hc'

/-- Settles O33: `Walk.step_leaf_congr` for another cache, the outcomes of the compare by what memory holds, and
`Walk.step_of_cached` for a read in which memory has no part. -/
theorem cacheIsNotUsedInStepSeven : Obligations.CacheIsNotUsedInStepSeven := by
  refine ⟨fun w s pte atc hl => Walk.step_leaf_congr hl rfl rfl rfl,
    fun w s pte other hl hp hr hne => ⟨_, Walk.step_of_differs hl hp hr hne, rfl, rfl⟩,
    fun w s pte hl hp hr => ?update, fun w s e m hl hc => ?cached⟩
  case update =>
    obtain ⟨t, hstep, hmem⟩ := Walk.step_of_matches hl hp hr
    exact ⟨t, pteWithAD pte w.acc, hstep, by rw [hmem, Memory.word_writeWord_same],
      getLsbD_pteWithAD pte w.acc⟩
  case cached =>
    have hc' : w.cached { s with mem := m } { s with mem := m }.nextChoice.pick = some e := hc
    rw [Walk.step_of_cached hl hc, Walk.step_of_cached hl hc']
    have hok : { s with mem := m }.physOk w.pteAddr 4 .load true w.priv =
      s.physOk w.pteAddr 4 .load true w.priv := rfl
    rw [hok]
    split
    · exact ⟨rfl, State.afterChoice_mem _⟩
    · exact ⟨rfl, rfl⟩

/-- Settles O40: the entries that match, in the order of the cache, are those a choice can name. -/
theorem cacheAnswersOnlyMatches : Obligations.CacheAnswersOnlyMatches := by
  intro w s e hm
  have hmatch : w.matchesEntry e = true ↔ e.tag = vaTag w.va w.level ∧ (e.asid = w.asid ∨ e.global = true) := by
    simp [Walk.matchesEntry]
  rw [← hmatch]
  refine ⟨fun ⟨_, h⟩ => Walk.cached_mem h, fun h => ?_⟩
  obtain ⟨k, hk⟩ := List.mem_iff_getElem?.mp (List.mem_filter.mpr h)
  exact ⟨some k, by simpa [Walk.cached, hm] using hk⟩

/-! ## A walk ends -/

/-- How many events a walk may still make, `m` being the memory, with nothing between them: the compare of a leaf that
memory holds is the last; one that fails is followed by a read bound to memory, whose leaf memory holds; and below the
root the same once more. -/
def Walk.eventsLeft (w : Walk) (m : Memory) : Nat :=
  match w.leaf, w.level, w.memOnly with
  | some pte, .l1, _ => if m.pteRead w.speculative w.pteAddr = some pte then 1 else 6
  | some pte, .l0, _ => if m.pteRead w.speculative w.pteAddr = some pte then 1 else 3
  | none, .l1, false => 7
  | none, .l1, true => 5
  | none, .l0, false => 4
  | none, .l0, true => 2

theorem Walk.eventsLeft_pos (w : Walk) (m : Memory) : 0 < w.eventsLeft m := by
  unfold Walk.eventsLeft
  repeat' split
  all_goals decide

/-- A read bound to memory is answered by memory (R88). -/
theorem Walk.Reads.eq_memory {w : Walk} {s : State} {e : AtcEntry} (h : w.Reads s e) (hm : w.memOnly = true) :
    s.mem.pteRead w.speculative w.pteAddr = some e.pte := by
  obtain ⟨_, _, hc | ⟨_, pte, hr, rfl⟩⟩ := h
  · simp [Walk.cached, hm] at hc
  · exact hr

/-- Every event after which the walk goes on uses up one of them. -/
theorem Walk.eventsLeft_step {w w' : Walk} {s s' : State} (h : w.step s = (.more w', s')) :
    w'.eventsLeft s'.mem < w.eventsLeft s.mem := by
  have hmem : ∀ {e}, w.Reads s e → s'.mem = s.mem := fun hr => by simpa [h] using hr.step.2
  rcases Walk.step_more_cases h with ⟨e, hr, hlevel, rfl⟩ | ⟨e, hr, rfl⟩ | ⟨pte, hl, hread, rfl, rfl⟩
  · rw [hmem hr]
    cases hm : w.memOnly <;> simp [Walk.eventsLeft, Walk.follow, hr.1, hlevel, hm]
  · rw [hmem hr]
    cases hm : w.memOnly with
    | false =>
      cases hlevel : w.level <;> simp only [Walk.eventsLeft, Walk.hold, hr.1, hlevel, hm] <;> split <;> decide
    | true =>
      have hread : s.mem.pteRead w.speculative (w.hold e).pteAddr = some e.pte := hr.eq_memory hm
      have hone : (w.hold e).eventsLeft s.mem = 1 := by
        cases hlevel : w.level <;> simp_all [Walk.eventsLeft, Walk.hold]
      rw [hone]
      cases hlevel : w.level <;> simp [Walk.eventsLeft, hr.1, hlevel, hm]
  · cases hlevel : w.level <;> simp [Walk.eventsLeft, Walk.retry, hl, hlevel, hread]

theorem Walk.run_succ_of_more {w w' : Walk} {s s' : State} (h : w.step s = (.more w', s')) (n : Nat) :
    w.run (n + 1) s = w'.run n s' := by
  simp only [Walk.run, h]

theorem Walk.run_succ_of_end {w : Walk} {s : State} (h : ∀ w', (w.step s).1 ≠ .more w') (n : Nat) :
    w.run (n + 1) s = w.step s := by
  rw [Walk.run]
  split
  · next w' s' hstep => exact absurd (congrArg Prod.fst hstep) (h w')
  · rfl

/-- A run as long as what is left of the walk ends it. -/
theorem Walk.run_ends (n : Nat) :
    ∀ (w : Walk) (s : State), w.eventsLeft s.mem ≤ n → ∀ x, (w.run n s).1 ≠ .more x := by
  induction n with
  | zero => intro w s h; exact absurd h (by have := w.eventsLeft_pos s.mem; omega)
  | succ n ih =>
    intro w s h
    by_cases hmore : ∃ w', (w.step s).1 = .more w'
    · obtain ⟨w', hw'⟩ := hmore
      have hstep : w.step s = (.more w', (w.step s).2) := Prod.ext hw' rfl
      rw [Walk.run_succ_of_more hstep]
      exact ih w' _ (by have := Walk.eventsLeft_step hstep; omega)
    · have hend := not_exists.mp hmore
      rw [Walk.run_succ_of_end hend]
      exact hend

/-- Settles O41: seven is what is left of a walk that begins. -/
theorem walkEndsWithinSevenEvents : Obligations.WalkEndsWithinSevenEvents := fun s va acc priv sp =>
  Walk.run_ends 7 (Walk.start s va acc priv sp) s (Nat.le_refl 7)

end Sys2Proof.Machine
end

section
/-! PROOFS. The walk as the procedure of R90: with an empty cache, the events of a walk in a row are `refWalk`. -/

namespace Sys2Proof.Machine

/-! ## The procedure, read by read -/

/-- One read of the procedure with what follows from it, `pointer` being what it does with a pointer (R82 to R89). -/
def refRead (s : State) (va : Word) (acc : Acc) (priv : Mode) (level : Level) (addr : PAddr)
    (pointer : Word → RefResult) : RefResult :=
  if !s.physOk addr 4 .load true priv then ⟨.raise ⟨.accessFault, acc, va⟩, s.mem⟩
  else
    match s.mem.word addr with
    | none => ⟨.unwritten, s.mem⟩
    | some pte =>
      if pteReserved s.cfg pte then ⟨.raise ⟨.pageFault, acc, va⟩, s.mem⟩
      else if pteIsLeaf pte then refLeaf s va acc priv level addr pte
      else pointer pte

/-- The procedure below the root: a pointer there is a page-fault (R85). -/
def refBelow (s : State) (va : Word) (acc : Acc) (priv : Mode) (table : Ppn) : RefResult :=
  refRead s va acc priv .l0 (pteAddr table (vaVpn0 va)) fun _ => ⟨.raise ⟨.pageFault, acc, va⟩, s.mem⟩

/-- The procedure is a read at the root, and one below it where that finds a pointer (R90). -/
theorem refWalk_eq (s : State) (va : Word) (acc : Acc) (priv : Mode) :
    refWalk s va acc priv =
      refRead s va acc priv .l1 (pteAddr (satpPpn s.satp) (vaVpn1 va)) fun pte =>
        refBelow s va acc priv (ptePpn pte) := rfl

/-- Where memory is the same, what a walk may write otherwise has no part in the procedure. -/
theorem refBelow_congr {s t : State} (h : SameButWalk s t) (hm : t.mem = s.mem) :
    refBelow t = refBelow s := by
  rw [h.eq, hm]
  rfl

/-! ## Runs and the procedure -/

/-- The outcome and the memory are those of the procedure. -/
def RefResult.Agrees (r : RefResult) (x : WalkOut × State) : Prop := x.1 = r.out ∧ x.2.mem = r.mem

/-- An event that ends the walk ends the run. -/
theorem RefResult.Agrees.of_end {w : Walk} {s : State} {o : WalkOut} {m : Memory} (ho : (w.step s).1 = o)
    (hm : (w.step s).2.mem = m) (hend : ∀ w', o ≠ .more w') (n : Nat) :
    (RefResult.mk o m).Agrees (w.run (n + 1) s) := by
  rw [Walk.run_succ_of_end (by rwa [ho])]
  exact ⟨ho, hm⟩

/-- A page-fault ends it, memory being as it was. -/
theorem RefResult.Agrees.of_pageFault {w : Walk} {s : State}
    (h : (w.step s).1 = .raise ⟨.pageFault, w.acc, w.va⟩ ∧ (w.step s).2.mem = s.mem) (n : Nat) :
    (RefResult.mk (.raise ⟨.pageFault, w.acc, w.va⟩) s.mem).Agrees (w.run (n + 1) s) :=
  .of_end h.1 h.2 nofun n

theorem SameButWalk.phys {s t : State} (h : SameButWalk s t) : t.phys = s.phys :=
  (congrArg State.phys h.eq).trans rfl

section
variable {w : Walk} {s : State} {pte : Word}

/-- Step 7 and step 8 of the procedure, for a leaf that it accepts (R88, R89). -/
theorem Walk.Accepts.refLeaf_eq (h : w.Accepts s pte) (addr : PAddr) :
    refLeaf s w.va w.acc w.priv w.level addr pte =
      if needsAD pte w.acc then
        if s.cfg.adScheme = .fault then ⟨.raise ⟨.pageFault, w.acc, w.va⟩, s.mem⟩
        else if s.physOk addr 4 .store true w.priv then
          ⟨.done (leafAddr pte w.va w.level), s.mem.writeWord addr (pteWithAD pte w.acc)⟩
        else ⟨.raise ⟨.accessFault, w.acc, w.va⟩, s.mem⟩
      else ⟨.done (leafAddr pte w.va w.level), s.mem⟩ := by
  have hal : (decide (w.level = .l1) && decide (ptePpn0 pte ≠ 0#10)) = false := by simpa using h.aligned
  simp only [refLeaf, h.permits, hal, Bool.not_true, Bool.false_eq_true, if_false]
  cases s.cfg.adScheme <;> rfl

/-- Step 7 of the run, right after the read that found the leaf: memory still holds it (R88). -/
theorem Walk.run_held {t : State} (hl : w.leaf = some pte) (hsp : w.speculative = false)
    (hread : t.mem.word w.pteAddr = some pte) (n : Nat) :
    RefResult.Agrees
      (if t.physOk w.pteAddr 4 .store true w.priv then
        ⟨.done (leafAddr pte w.va w.level), t.mem.writeWord w.pteAddr (pteWithAD pte w.acc)⟩
      else ⟨.raise ⟨.accessFault, w.acc, w.va⟩, t.mem⟩) (w.run (n + 1) t) := by
  have hread' : t.mem.pteRead w.speculative w.pteAddr = some pte := by simp [Memory.pteRead, hsp, hread]
  split
  · next hp =>
    obtain ⟨t', hstep, hmem⟩ := Walk.step_of_matches hl hp hread'
    exact .of_end (congrArg Prod.fst hstep) (by rw [hstep, hmem]) nofun n
  · next hp =>
    have hstep := Walk.step_of_storeDenied hl (Bool.eq_false_iff.mpr hp)
    exact .of_end (congrArg Prod.fst hstep) (by rw [hstep]) nofun n

/-- A run that reads an accepted leaf from memory comes to what the procedure does with it (R88, R89). -/
theorem Walk.run_accepted (hr : w.Reads s (w.record pte)) (hsp : w.speculative = false)
    (hread : s.mem.word w.pteAddr = some pte) (hacc : w.Accepts s pte) (n : Nat) :
    (refLeaf s w.va w.acc w.priv w.level w.pteAddr pte).Agrees (w.run (n + 2) s) := by
  rw [hacc.refLeaf_eq]
  split
  · next hneeds =>
    split
    · next hscheme =>
      exact .of_pageFault (hr.step_of_adStops hacc.leaf hneeds (by simp [Walk.adStops, hscheme])) _
    · next hscheme =>
      have hupdate : s.cfg.adScheme = .hwUpdate := by cases h : s.cfg.adScheme <;> simp_all
      have hheld : w.step s = (.more (w.hold (w.record pte)), (w.step s).2) :=
        Prod.ext (hr.step_of_held hacc hneeds (Walk.adStops_eq_false hupdate hsp _)) rfl
      have hsame := Walk.same_of_step hheld
      have hrun := Walk.run_held (w := w.hold (w.record pte)) rfl hsp (hr.step.2.symm ▸ hread) n
      rw [State.physOk_congr hsame.cfg hsame.phys, hr.step.2] at hrun
      rw [Walk.run_succ_of_more hheld]
      exact hrun
  · next hneeds => exact .of_end (hr.step.1.trans (hacc.judge.trans (if_neg hneeds))) hr.step.2 nofun _

/-- A run that reads a leaf from memory comes to what the procedure does with it (R86 to R89). -/
theorem Walk.run_leaf (hr : w.Reads s (w.record pte)) (hsp : w.speculative = false)
    (hread : s.mem.word w.pteAddr = some pte) (hvalid : pteReserved s.cfg pte = false)
    (hleaf : pteIsLeaf pte = true) (n : Nat) :
    (refLeaf s w.va w.acc w.priv w.level w.pteAddr pte).Agrees (w.run (n + 2) s) := by
  cases hperm : leafPermits pte w.acc w.priv (msSum s.mstatus) (msMxr s.mstatus) with
  | false =>
    simp only [refLeaf, hperm, Bool.not_false, if_true]
    exact .of_pageFault (hr.step_of_denied hleaf hperm) _
  | true =>
    by_cases hal : w.level = .l1 → ptePpn0 pte = 0#10
    · exact Walk.run_accepted hr hsp hread ⟨hvalid, hleaf, hperm, hal⟩ n
    · obtain ⟨hlevel, hppn⟩ := Classical.not_imp.mp hal
      have href : refLeaf s w.va w.acc w.priv w.level w.pteAddr pte =
          ⟨.raise ⟨.pageFault, w.acc, w.va⟩, s.mem⟩ := by simp [refLeaf, hperm, hlevel, hppn]
      rw [href]
      exact .of_pageFault (misalignedSuperpageFaults w s _ hr hleaf hlevel hppn) _

/-- A run whose next read no cache entry answers comes to what the procedure does with that read, if it does so where
the read finds a pointer. -/
theorem Walk.run_read {pointer : Word → RefResult} {n : Nat} (hl : w.leaf = none) (hsp : w.speculative = false)
    (hmiss : ∀ pick, w.cached s pick = none)
    (hpointer : ∀ pte, w.Reads s (w.record pte) → pteReserved s.cfg pte = false → pteIsLeaf pte = false →
      (pointer pte).Agrees (w.run (n + 2) s)) :
    (refRead s w.va w.acc w.priv w.level w.pteAddr pointer).Agrees (w.run (n + 2) s) := by
  have hword : s.mem.pteRead w.speculative w.pteAddr = s.mem.word w.pteAddr := by simp [Memory.pteRead, hsp]
  cases hp : s.physOk w.pteAddr 4 .load true w.priv with
  | false =>
    simp only [refRead, hp, Bool.not_false, if_true]
    have hstep := pteReadCheckRaisesAccessFault w s hl hp
    exact .of_end (congrArg Prod.fst hstep) (by rw [hstep]) nofun _
  | true =>
    cases hread : s.mem.word w.pteAddr with
    | none =>
      simp only [refRead, hp, hread, Bool.not_true, Bool.false_eq_true, if_false]
      have hstep : w.step s = (.unwritten, s) := by
        rw [Walk.step_of_noLeaf hl]
        simp [Walk.readStep, hp, hmiss, hword, hread]
      exact .of_end (congrArg Prod.fst hstep) (by rw [hstep]) nofun _
    | some pte =>
      have hr : w.Reads s (w.record pte) := ⟨hl, hp, .inr ⟨hmiss _, pte, hword.trans hread, rfl⟩⟩
      simp only [refRead, hp, hread, Bool.not_true, Bool.false_eq_true, if_false]
      cases hres : pteReserved s.cfg pte with
      | true => simpa using RefResult.Agrees.of_pageFault (hr.step_of_reserved hres) (n + 1)
      | false =>
        cases hleaf : pteIsLeaf pte with
        | true => simpa using Walk.run_leaf hr hsp hread hres hleaf n
        | false => simpa using hpointer pte hr hres hleaf

end

/-- Below the root a run is the procedure's second read (R90). -/
theorem Walk.run_below {w : Walk} {s : State} (hl : w.leaf = none) (hsp : w.speculative = false)
    (hlevel : w.level = .l0) (hmiss : ∀ pick, w.cached s pick = none) :
    (refBelow s w.va w.acc w.priv w.table).Agrees (w.run 2 s) := by
  have hrun := Walk.run_read (n := 0) hl hsp hmiss fun pte hr _ hleaf =>
    .of_pageFault ⟨hr.step_of_pointer_below hleaf hlevel, hr.step.2⟩ 1
  rwa [Walk.pteAddr, hlevel] at hrun

/-- What a walk reads at the root answers no read below it (R95): it is filed under the other level. -/
theorem Walk.follow_cached {w : Walk} {s s' : State} {o : WalkOut} (h : w.step s = (o, s')) (hatc : s.atc = [])
    (hlevel : w.level = .l1) (e : AtcEntry) (pick : Option Nat) : (w.follow e).cached s' pick = none := by
  by_contra hne
  obtain ⟨x, hx⟩ := Option.ne_none_iff_exists'.mp hne
  obtain ⟨hmem, hmatch⟩ := Walk.cached_mem hx
  have htag : x.tag = vaTag w.va .l0 := by
    simp only [Walk.matchesEntry, Bool.and_eq_true, decide_eq_true_eq] at hmatch
    exact hmatch.1
  rcases Walk.mayAdd_of_step h hmem with hold | ⟨_, _, hroot, _⟩
  · simp [hatc] at hold
  · rw [htag, hlevel] at hroot
    cases hroot

/-- From the root a run is the procedure: the entry that the first read may leave in the cache does not answer the
second (R90). -/
theorem Walk.run_root {w : Walk} {s : State} (hl : w.leaf = none) (hsp : w.speculative = false)
    (hlevel : w.level = .l1) (hatc : s.atc = []) :
    (refRead s w.va w.acc w.priv .l1 (Machine.pteAddr w.table (vaVpn1 w.va)) fun pte =>
      refBelow s w.va w.acc w.priv (ptePpn pte)).Agrees (w.run 3 s) := by
  have hmiss : ∀ pick, w.cached s pick = none := fun pick =>
    Option.eq_none_iff_forall_not_mem.mpr fun e he => by simpa [hatc] using (Walk.cached_mem he).1
  have hrun := Walk.run_read (n := 1) (pointer := fun pte => refBelow s w.va w.acc w.priv (ptePpn pte)) hl hsp hmiss
    fun pte hr hvalid hleaf => by
      have hstep : w.step s = (.more (w.follow (w.record pte)), (w.step s).2) :=
        Prod.ext (hr.step_of_pointer hvalid hleaf hlevel) rfl
      rw [Walk.run_succ_of_more hstep, ← refBelow_congr (Walk.same_of_step hstep) hr.step.2]
      exact Walk.run_below (w := w.follow (w.record pte)) hl hsp rfl (Walk.follow_cached hstep hatc hlevel _)
  rwa [Walk.pteAddr, hlevel] at hrun

/-- Settles O42: a walk that begins is at the root table of `satp`, with no leaf held. -/
theorem walkRefinesProcedure : Obligations.WalkRefinesProcedure := by
  intro s va acc priv hatc
  rw [refWalk_eq]
  exact Walk.run_root (w := Walk.start s va acc priv false) rfl rfl rfl hatc

end Sys2Proof.Machine
end

section
/-! PROOFS. Speculation, how an access begins, the step that runs an instruction, and the full fence. -/

namespace Sys2Proof.Machine

/-! ## Speculation -/

/-- The step of an event outside the hart's program. -/
theorem step_of_event {s : State} {ev : EnvEvent} {rest : List EnvEvent} (he : s.env = ev :: rest)
    (hne : ev ≠ .hart) : step s = .next ({ s with env := rest }.envEvent ev) := by
  cases ev with
  | hart => exact absurd rfl hne
  | _ => simp only [step, he]

/-- What two states have in common once the fields an event of a speculative walk may write are set apart (R99). -/
def SameButSpeculation (s t : State) : Prop :=
  t = { s with mem := t.mem, atc := t.atc, script := t.script, draws := t.draws, spec := t.spec }

/-- An event of a walk, whatever becomes of the walks in flight after it. -/
theorem SameButWalk.withSpec {s t : State} (h : SameButWalk s t) (ws : List Walk) :
    SameButSpeculation s { t with spec := ws } := by
  unfold SameButSpeculation
  rw [h.eq]

/-- The hart's registers, its program, its answers and its reservation are none of those fields. -/
theorem SameButSpeculation.hart {s t : State} (h : SameButSpeculation s t) :
    t.pc = s.pc ∧ t.mode = s.mode ∧ t.regs = s.regs ∧ (∀ c, t.csr c = s.csr c) ∧ t.ops = s.ops ∧
      t.access = s.access ∧ t.replies = s.replies ∧ t.reservation = s.reservation := by
  unfold SameButSpeculation at h
  rw [h]
  exact ⟨rfl, rfl, rfl, fun c => by cases c <;> rfl, rfl, rfl, rfl, rfl⟩

theorem specStep_same (s : State) (k : Nat) : SameButSpeculation s (s.specStep k) := by
  rcases s.specStep_cases k with h | h | ⟨w, _, _, ⟨w', s', hw, h⟩ | ⟨o, s', hw, _, h⟩⟩ <;> rw [h]
  · exact rfl
  · exact rfl
  · exact (Walk.same_of_step hw).withSpec _
  · exact (Walk.same_of_step hw).withSpec _

/-- An event of a speculative walk leaves memory alone, or is an event of a walk in flight. -/
theorem specStep_mem (s : State) (k : Nat) :
    (s.specStep k).mem = s.mem ∨ ∃ w ∈ s.spec, (s.specStep k).mem = (w.step s).2.mem := by
  rcases s.specStep_cases k with h | h | ⟨w, hget, _, ⟨w', s', hw, h⟩ | ⟨o, s', hw, _, h⟩⟩ <;> rw [h]
  · exact .inl rfl
  · exact .inl rfl
  · exact .inr ⟨w, List.mem_of_getElem? hget, by rw [hw]⟩
  · exact .inr ⟨w, List.mem_of_getElem? hget, by rw [hw]⟩

theorem pteD_pteWithAD (p : Word) (acc : Acc) : pteD (pteWithAD p acc) = (pteD p || decide (acc = .store)) := by
  simp only [pteD, getLsbD_pteWithAD]
  simp

/-- A leaf that a legal speculative walk may update has the D bit that a store needs (R99). -/
theorem Walk.Legal.pteD_of_leaf {w : Walk} {cfg : Config} {pte : Word} (h : w.Legal cfg)
    (hsp : w.speculative = true) (hl : w.leaf = some pte) (hacc : w.acc = .store) : pteD pte = true := by
  obtain ⟨_, _, _, _, _, hgoes⟩ := h.2 pte hl
  simp only [Walk.adStops, hsp, hacc, decide_true, Bool.true_and, Bool.or_eq_false_iff, Bool.not_eq_false'] at hgoes
  exact hgoes.2

/-- An event of a legal speculative walk leaves every D bit as it was (R31, R99). -/
theorem Walk.Legal.pteD_step {w : Walk} {s : State} (h : w.Legal s.cfg) (hsp : w.speculative = true) {pa : PAddr}
    (hpa : pa.toNat % 4 = 0) : pteD ((w.step s).2.mem.wordFree pa) = pteD (s.mem.wordFree pa) := by
  rcases w.step_mem s with hsame | ⟨pte, hl, _, hread, hwritten, _⟩
  · rw [hsame]
  · rw [hwritten]
    by_cases hat : pa = w.pteAddr
    · subst hat
      rw [Memory.wordFree_of_word (Memory.word_writeWord_same ..), Memory.wordFree_of_pteRead hread,
        pteD_pteWithAD]
      by_cases hacc : w.acc = .store
      · simp [h.pteD_of_leaf hsp hl hacc]
      · simp [hacc]
    · exact congrArg pteD (Memory.wordFree_writeWord_ne _ (pteAddr_aligned ..) hpa hat)

/-- Settles O37: the frame is `specStep_same`, the D bits are `Walk.Legal.pteD_step` for a walk in flight. -/
theorem speculationNeverSetsDirtyOrTraps : Obligations.SpeculationNeverSetsDirtyOrTraps := by
  intro s t k rest hinv he hstep
  obtain ⟨_, _, _, _, _, hflight, _⟩ := hinv
  rw [step_of_event he nofun] at hstep
  cases hstep
  obtain ⟨hpc, hmode, hregs, hcsr, hops, haccess, hreplies, hreservation⟩ :=
    (specStep_same { s with env := rest } k).hart
  refine ⟨hpc, hmode, hregs, fun c => (hcsr c).trans (by cases c <;> rfl), hops, haccess, hreplies, hreservation,
    fun pa hpa => ?_⟩
  rcases specStep_mem { s with env := rest } k with hmem | ⟨w, hw, hmem⟩ <;> rw [State.envEvent, hmem]
  · obtain ⟨hlegal, hsp⟩ := hflight w hw
    exact hlegal.pteD_step (s := { s with env := rest }) hsp hpa

theorem State.speculates_eq_false {s : State} (h : s.mode = .m ∨ satpSv32 s.satp = false) :
    s.speculates = false := by
  rcases h with h | h <;> simp [State.speculates, State.translates, h]

/-- Settles O38: where the hart may not speculate, a walk does not begin, and one in flight ends at its event. -/
theorem noSpeculationWhileSatpInactive : Obligations.NoSpeculationWhileSatpInactive := by
  intro s t rest ev hinactive he hev hstep
  have hoff : { s with env := rest }.speculates = false := State.speculates_eq_false hinactive
  rcases hev with ⟨va, acc, priv, rfl⟩ | ⟨k, rfl⟩ <;> rw [step_of_event he nofun] at hstep <;> cases hstep
  · have hnone : { s with env := rest }.specStart va acc priv = { s with env := rest } := by
      simp [State.specStart, hoff]
    rw [State.envEvent, hnone]
    exact ⟨rfl, rfl, fun _ => id⟩
  · rcases State.specStep_cases { s with env := rest } k with h | h | ⟨_, _, hon, _⟩
    · rw [State.envEvent, h]
      exact ⟨rfl, rfl, fun _ => id⟩
    · rw [State.envEvent, h]
      exact ⟨rfl, rfl, fun _ => List.mem_of_mem_eraseIdx⟩
    · rw [hoff] at hon; cases hon

/-! ## How an access begins -/

theorem State.translates_eq_false {s : State} {p : Mode} (h : satpSv32 s.satp = false ∨ p = .m) :
    s.translates p = false := by
  rcases h with h | h <;> simp [State.translates, h]

/-- An untranslated access is performed at its zero-extended addresses, or fails at its first piece that fails its
check (R23, R122). -/
theorem beginAccess_bare_cases {s : State} {g : Goal} (ht : s.translates (s.effectiveMode g.acc) = false) :
    ((∀ p ∈ pieces g.va g.bytes,
        s.physOk (p.va.setWidth 34) p.n g.acc false (s.effectiveMode g.acc) = true) ∧
      beginAccess s g = performAccess s g ((pieces g.va g.bytes).map fun p => ⟨p.va.setWidth 34, p.n⟩)) ∨
    ∃ p, s.FirstDenied g p ∧ beginAccess s g = failAccess s g ⟨.accessFault, g.acc, p.va⟩ := by
  by_cases hall : ∀ p ∈ pieces g.va g.bytes,
      s.physOk (p.va.setWidth 34) p.n g.acc false (s.effectiveMode g.acc) = true
  · exact .inl ⟨hall, beginAccess_bare ht hall⟩
  · simp only [not_forall, Bool.not_eq_true] at hall
    obtain ⟨p, hp, hdenied⟩ := hall
    obtain ⟨q, hq⟩ := State.exists_firstDenied hp hdenied
    exact .inr ⟨q, hq, beginAccess_firstDenied ht hq⟩

/-- The first piece of an access begins where the access does (R38). -/
theorem pieces_head (va : Word) (n : Nat) : ∃ m rest, pieces va n = ⟨va, m⟩ :: rest := by
  rcases pieces_cases va n with ⟨_, h⟩ | ⟨_, h⟩ <;> exact ⟨_, _, h⟩

/-- A translated access begins with the walk of its first piece (R80, R81). -/
theorem beginAccess_translated {s : State} {g : Goal} {p : Piece} {rest : List Piece}
    (ht : s.translates (s.effectiveMode g.acc) = true) (hp : pieces g.va g.bytes = p :: rest) :
    beginAccess s g = .out (.next { s with
      access := some ⟨g, .walking (Walk.start s p.va g.acc (s.effectiveMode g.acc) false) p.n rest []⟩ }) := by
  simp only [beginAccess, ht, hp, if_true]

/-- Settles O43: untranslated by `beginAccess_bare_cases`, with its fault in the step by `step_of_failAccess`;
translated by `beginAccess_translated`. -/
theorem accessesAreTranslatedExactlyUnderSv32 : Obligations.AccessesAreTranslatedExactlyUnderSv32 := by
  refine ⟨fun s g hbare => beginAccess_bare_cases (State.translates_eq_false hbare),
    fun s u v g p ht hb hbare hp => ?denied, fun s u v g ht hb hsv hm => ?walked⟩
  case denied =>
    exact step_of_failAccess ht
      ((hartMove_of_begins hb).trans (beginAccess_firstDenied (State.translates_eq_false hbare) hp))
  case walked =>
    have htr : v.translates (v.effectiveMode g.acc) = true := by simp [State.translates, hsv, hm]
    obtain ⟨n, rest, hp⟩ := pieces_head g.va g.bytes
    exact ⟨Walk.start v g.va g.acc (v.effectiveMode g.acc) false, n, rest,
      step_of_out ht ((hartMove_of_begins hb).trans (beginAccess_translated htr hp)), hp,
      rfl, rfl, rfl, rfl, rfl, rfl, rfl, rfl, rfl, rfl, rfl, rfl⟩

/-! ## The instruction -/

/-- Settles O4: the hart's turn fetches the word, and the word decodes. -/
theorem stepRunsDecodedInstruction : Obligations.StepRunsDecodedInstruction := by
  intro s u v b0 b1 b2 b3 i ht hf hi
  rw [step_of_turn ht]
  simp only [hartTurn, hartMove_of_fetches hf, hi]

/-- Every entry is covered where neither an address nor an ASID is selected (R112). -/
theorem covered_all (cfg : Config) (e : AtcEntry) : covered cfg .all .all e = true :=
  (covered_iff ..).mpr ⟨AsidSel.covers_all e, AddrSel.covers_all cfg e⟩

/-- Settles O14: with `x0` twice the fence selects everything, so that it covers every entry. -/
theorem fullFenceEmptiesCacheAndWalks : Obligations.FullFenceEmptiesCacheAndWalks := by
  intro s hmode
  rcases execSfenceVma_cases 0 0 s with ⟨_, hx⟩ | ⟨hno, _⟩
  · refine ⟨(s.fence .all .all).advancePc 4#32, hx, ?_, rfl, State.fence_access s .all .all⟩
    simp [covered_all]
  · exact absurd ((mayFence_iff s).mpr hmode) (by simp [hno])

end Sys2Proof.Machine
end

section
/-! PROOFS. SFENCE.VMA: where it completes and where it traps, which entries it covers by its operands, what it leaves
unchanged, and that no walk in flight, no entry it selects and no byte of memory has a part in it. -/

namespace Sys2Proof.Machine

/-! ## Where it completes and where it traps -/

/-- In a mode that may execute it the instruction fences and moves the pc (R110). -/
theorem exec_sfenceVma_of_mayFence {s : State} (rs1 rs2 : Nat)
    (h : s.mode = .m ∨ (s.mode = .s ∧ msTvm s.mstatus = false)) :
    exec (.sfenceVma rs1 rs2) s = .next ((s.fence (s.addrSel rs1) (s.asidSel rs2)).advancePc 4#32) := by
  rcases execSfenceVma_cases rs1 rs2 s with ⟨_, hx⟩ | ⟨hno, _⟩
  · exact hx
  · exact absurd ((mayFence_iff s).mpr h) (by simp [hno])

/-- The state after an instruction that completed. -/
theorem eq_of_exec_sfenceVma {s t : State} {rs1 rs2 : Nat}
    (h : s.mode = .m ∨ (s.mode = .s ∧ msTvm s.mstatus = false)) (ht : exec (.sfenceVma rs1 rs2) s = .next t) :
    t = (s.fence (s.addrSel rs1) (s.asidSel rs2)).advancePc 4#32 := by
  rw [exec_sfenceVma_of_mayFence rs1 rs2 h] at ht
  cases ht
  rfl

theorem mayFence_eq_false_iff (s : State) :
    s.mayFence = false ↔ s.mode = .u ∨ (s.mode = .s ∧ msTvm s.mstatus = true) := by
  unfold State.mayFence
  cases s.mode <;> simp

/-- In every other mode it takes the illegal-instruction exception (R115). -/
theorem exec_sfenceVma_of_not_mayFence {s : State} (rs1 rs2 : Nat)
    (h : s.mode = .u ∨ (s.mode = .s ∧ msTvm s.mstatus = true)) :
    exec (.sfenceVma rs1 rs2) s = .next s.takeIllegal := by
  rcases execSfenceVma_cases rs1 rs2 s with ⟨hyes, _⟩ | ⟨_, hx⟩
  · exact absurd hyes (by simp [(mayFence_eq_false_iff s).mpr h])
  · exact hx

/-! ## The illegal-instruction exception -/

theorem State.takeIllegal_of_delegated {s : State} (hm : s.mode ≠ .m) (hd : s.medeleg.getLsbD 2 = true) :
    s.takeIllegal = { s with draws := s.draws + 1 }.trapToS 2 (Config.freeTval s.draws) := by
  rcases State.takeException_cases { s with draws := s.draws + 1 } 2 (Config.freeTval s.draws) with
    ⟨_, _, h⟩ | ⟨hno | hno, _⟩
  · exact h
  · exact absurd hno hm
  · exact absurd (hd.symm.trans hno) (by decide)

theorem State.takeIllegal_of_not_delegated {s : State} (hd : s.medeleg.getLsbD 2 = false) :
    s.takeIllegal = { s with draws := s.draws + 1 }.trapToM 2 (Config.freeTval s.draws) := by
  rcases State.takeException_cases { s with draws := s.draws + 1 } 2 (Config.freeTval s.draws) with
    ⟨_, hyes, _⟩ | ⟨_, h⟩
  · exact absurd (hd.symm.trans hyes) (by decide)
  · exact h

/-- The status word after a trap to M-mode: the mode in MPP, the interrupt enable in MPIE, MIE clear (R127). -/
theorem State.trapToM_status (s : State) (c : Nat) (v : Word) :
    msMpp (s.trapToM c v).mstatus = s.mode.bits ∧ msMpie (s.trapToM c v).mstatus = msMie s.mstatus ∧
      msMie (s.trapToM c v).mstatus = false := by
  simp [msMpp_withBit]

/-- The status word after a trap to S-mode from below M-mode: SPP names the mode, the interrupt enable is in SPIE, SIE
is clear (R127). -/
theorem State.trapToS_status {s : State} (hm : s.mode ≠ .m) (c : Nat) (v : Word) :
    msSpp (s.trapToS c v).mstatus = decide (s.mode = .s) ∧ msSpie (s.trapToS c v).mstatus = msSie s.mstatus ∧
      msSie (s.trapToS c v).mstatus = false := by
  have hmode : decide (s.mode ≠ .u) = decide (s.mode = .s) := by
    cases h : s.mode
    case m => exact absurd h hm
    all_goals rfl
  simp [← hmode]

/-- Settles O13, by whether the exception is delegated. -/
theorem sfenceTrapsWhereIllegal : Obligations.SfenceTrapsWhereIllegal := by
  intro rs1 rs2 s hmode
  have hm : s.mode ≠ .m := by rcases hmode with h | ⟨h, _⟩ <;> simp [h]
  refine ⟨s.takeIllegal, exec_sfenceVma_of_not_mayFence rs1 rs2 hmode, s.takeIllegal_regs, s.takeIllegal_mem,
    s.takeIllegal_atc, s.takeIllegal_spec, s.takeIllegal_satp, fun hd => ?machine, fun hd => ?supervisor⟩
  case machine =>
    obtain ⟨hmpp, hmpie, hmie⟩ := State.trapToM_status { s with draws := s.draws + 1 } 2 (Config.freeTval s.draws)
    rw [State.takeIllegal_of_not_delegated hd]
    exact ⟨rfl, rfl, rfl, rfl, hmpp, hmpie, hmie, rfl, rfl, rfl⟩
  case supervisor =>
    obtain ⟨hspp, hspie, hsie⟩ :=
      State.trapToS_status (s := { s with draws := s.draws + 1 }) hm 2 (Config.freeTval s.draws)
    rw [State.takeIllegal_of_delegated hm hd]
    exact ⟨rfl, rfl, rfl, rfl, hspp, hspie, hsie, rfl, rfl, rfl⟩

/-! ## What it covers -/

/-- The ASID condition of R112, by the operand. -/
theorem State.asidSel_covers_iff (s : State) (rs2 : Nat) (e : AtcEntry) :
    (s.asidSel rs2).covers e = true ↔
      rs2 = 0 ∨ (e.asid = (s.reg rs2).extractLsb' 0 9 &&& asidMask s.cfg.asidLen ∧ e.global = false) := by
  by_cases h : rs2 = 0
  · simp [State.asidSel, h]
  · simp [State.asidSel, h, AsidSel.covers_one, asidOfWord]

/-- The address condition of R112, by the operand. -/
theorem State.addrSel_covers_iff (s : State) (rs1 : Nat) (e : AtcEntry) :
    (s.addrSel rs1).covers s.cfg e = true ↔
      rs1 = 0 ∨ (pteIsPointer s.cfg e.pte = false ∧
        (e.tag = .l1 (vaVpn1 (s.reg rs1)) ∨ e.tag = .l0 (vaVpn (s.reg rs1)))) := by
  by_cases h : rs1 = 0
  · simp [State.addrSel, h]
  · simp [State.addrSel, h, AddrSel.covers_page, VpnTag.eq_vaTag_iff]

theorem State.mem_fence_atc (s : State) (a : AddrSel) (i : AsidSel) (e : AtcEntry) :
    e ∈ (s.fence a i).atc ↔ e ∈ s.atc ∧ ¬ covered s.cfg a i e = true := by
  simp

/-- An entry that is not covered keeps every copy (R112, D18). -/
theorem State.count_fence_atc {s : State} {a : AddrSel} {i : AsidSel} {e : AtcEntry}
    (h : ¬ covered s.cfg a i e = true) : (s.fence a i).atc.count e = s.atc.count e :=
  List.count_filter (by simpa using h)

/-- Settles O11: the two conditions are those of `covered`, and the fence filters the cache by it. -/
theorem sfenceCompletesRemovingExactlyCovered : Obligations.SfenceCompletesRemovingExactlyCovered := by
  intro rs1 rs2 s _ _ hmode
  refine ⟨_, exec_sfenceVma_of_mayFence rs1 rs2 hmode, by simp, fun e => ?_⟩
  have hcov := covered_iff s.cfg (s.addrSel rs1) (s.asidSel rs2) e
  rw [s.asidSel_covers_iff, s.addrSel_covers_iff] at hcov
  refine ⟨fun h hmem => ?_, fun h => State.count_fence_atc (mt hcov.mp h)⟩
  exact ((s.mem_fence_atc _ _ e).mp hmem).2 (hcov.mpr h)

/-! ## What it leaves unchanged -/

/-- The fence as an update: the cache, the walks in flight, the access in progress and, where there is one, the hart's
program (R110). -/
theorem State.fence_eq (s : State) (a : AddrSel) (i : AsidSel) :
    s.fence a i = { s with
      atc := s.atc.filter fun e => !covered s.cfg a i e
      spec := []
      access := none
      ops := s.abandonAccess.ops } := by
  cases h : s.access with
  | none => simp only [State.fence, State.abandonAccess_of_none h, h]
  | some x => simp only [State.fence, State.abandonAccess_of_some h]

/-- Settles O12: none of these fields is among those that `State.fence_eq` names. -/
theorem sfenceFrame : Obligations.SfenceFrame := by
  intro rs1 rs2 s t hmode ht
  rw [eq_of_exec_sfenceVma hmode ht, State.fence_eq]
  refine ⟨fun _ => rfl, rfl, rfl, fun c => ?csr, fun _ => rfl, rfl, rfl, rfl, rfl, rfl, rfl, rfl, rfl,
    fun hno => ⟨rfl, ?ops⟩⟩
  case csr => cases c <;> rfl
  case ops => rw [State.advancePc_ops, State.abandonAccess_of_none hno]

/-! ## The walks in flight -/

/-- The hart's program after the fence: what the access in progress was made for comes first (R100). -/
theorem State.fence_ops_of_some {s : State} {x : Access} (h : s.access = some x) (a : AddrSel) (i : AsidSel) :
    (s.fence a i).ops = x.goal.op :: s.ops := by
  rw [State.fence_ops, State.abandonAccess_of_some h]

/-- Settles O15: the fence ends every walk; what a walk adds is what `Walk.step_atc` says it may. -/
theorem noWalkOutlivesItsFence : Obligations.NoWalkOutlivesItsFence := by
  refine ⟨fun rs1 rs2 s t hmode ht => ?fence,
    fun w s t o hfill hstep => ⟨fun e he => ?adds, fun w' ho => ?goesOn⟩⟩
  case fence =>
    obtain ⟨a, i, rfl⟩ : ∃ a i, t = (s.fence a i).advancePc 4#32 := ⟨_, _, eq_of_exec_sfenceVma hmode ht⟩
    exact ⟨rfl, State.fence_access s a i, fun _ _ h => State.fence_ops_of_some h a i,
      fun _ _ h => State.fence_ops_of_some h a i⟩
  case adds =>
    rw [show t = (w.step s).2 by rw [hstep]] at he
    rcases Walk.step_atc he with hold | ⟨_, hleaf | hpointer, _⟩
    · exact .inl hold
    · exact absurd (hfill.symm.trans hleaf) (by decide)
    · exact .inr hpointer
  case goesOn =>
    subst ho
    exact (Walk.step_more_leafFill hstep).trans hfill

/-! ## Reads after it -/

theorem Walk.matchesEntry_iff (w : Walk) (e : AtcEntry) :
    w.matchesEntry e = true ↔ e.tag = vaTag w.va w.level ∧ (e.asid = w.asid ∨ e.global = true) := by
  simp [Walk.matchesEntry]

/-- Addresses of one page have one root index. -/
theorem vaVpn1_eq_of_vaVpn_eq {va va' : Word} (h : vaVpn va = vaVpn va') : vaVpn1 va = vaVpn1 va' := by
  have hn := congrArg BitVec.toNat h
  rw [toNat_vaVpn, toNat_vaVpn] at hn
  apply BitVec.eq_of_toNat_eq
  rw [toNat_vaVpn1, toNat_vaVpn1]
  omega

/-- A read for an address of the page selected, or at the root for one of its superpage, looks under a tag that the
address condition of R112 names. -/
theorem vaTag_eq_of_selected {va sel : Word} {l : Level}
    (h : vaVpn va = vaVpn sel ∨ (l = .l1 ∧ vaVpn1 va = vaVpn1 sel)) :
    vaTag va l = .l1 (vaVpn1 sel) ∨ vaTag va l = .l0 (vaVpn sel) := by
  rcases h with h | ⟨rfl, h⟩
  · cases l with
    | l1 => exact .inl (congrArg VpnTag.l1 (vaVpn1_eq_of_vaVpn_eq h))
    | l0 => exact .inr (congrArg VpnTag.l0 h)
  · exact .inl (congrArg VpnTag.l1 h)

/-- An entry that matches a selected read is covered, unless it is a pointer and an address is selected, or is global
and an ASID is (R112). -/
theorem Walk.covered_of_matchesEntry {w : Walk} {s : State} {rs1 rs2 : Nat} {e : AtcEntry}
    (haddr : rs1 = 0 ∨ vaVpn w.va = vaVpn (s.reg rs1) ∨ (w.level = .l1 ∧ vaVpn1 w.va = vaVpn1 (s.reg rs1)))
    (hasid : rs2 = 0 ∨ w.asid = (s.reg rs2).extractLsb' 0 9 &&& asidMask s.cfg.asidLen)
    (hmatch : w.matchesEntry e = true) (hpointer : rs1 = 0 ∨ pteIsPointer s.cfg e.pte = false)
    (hglobal : rs2 = 0 ∨ e.global = false) : covered s.cfg (s.addrSel rs1) (s.asidSel rs2) e = true := by
  obtain ⟨htag, hspace⟩ := (w.matchesEntry_iff e).mp hmatch
  refine (covered_iff ..).mpr ⟨(s.asidSel_covers_iff rs2 e).mpr ?asid, (s.addrSel_covers_iff rs1 e).mpr ?addr⟩
  case asid =>
    rcases hglobal with h0 | hglobal
    · exact .inl h0
    · have hown : e.asid = w.asid := hspace.resolve_right (by simp [hglobal])
      exact hasid.imp_right fun h => ⟨hown.trans h, hglobal⟩
  case addr =>
    rcases hpointer with h0 | hpointer
    · exact .inl h0
    · refine haddr.imp_right fun h => ⟨hpointer, ?_⟩
      rw [htag]
      exact vaTag_eq_of_selected h

/-- Settles O16: the cache answers with an entry that the fence left, and a selected one that it left is a pointer or
global; any other answer is memory's. -/
theorem fencedReadsComeFromMemory : Obligations.FencedReadsComeFromMemory := by
  intro rs1 rs2 s t w hmode ht haddr hasid
  have ht' := eq_of_exec_sfenceVma hmode ht
  have hcached : ∀ pick e, w.cached t pick = some e →
      (rs1 ≠ 0 ∧ pteIsPointer s.cfg e.pte = true) ∨ (rs2 ≠ 0 ∧ e.global = true) := by
    intro pick e he
    obtain ⟨hmem, hmatch⟩ := Walk.cached_mem he
    rw [ht', State.advancePc_atc, State.mem_fence_atc] at hmem
    by_contra hneither
    obtain ⟨hpointer, hglobal⟩ := not_or.mp hneither
    exact hmem.2 (Walk.covered_of_matchesEntry haddr hasid hmatch (by simpa [or_iff_not_imp_left] using hpointer)
      (by simpa [or_iff_not_imp_left] using hglobal))
  refine ⟨hcached, fun e hreads => ?_⟩
  obtain ⟨_, _, hc | ⟨_, pte, hread, rfl⟩⟩ := hreads
  · exact .inr (hcached _ e hc)
  · exact .inl hread

/-! ## Memory and the checks -/

/-- The fence selects by registers and by the cache alone (R114). -/
theorem State.fence_of_mem_phys (s : State) (m : Memory) (rules : List DenyRule) (a : AddrSel) (i : AsidSel) :
    { s with mem := m, phys := rules }.fence a i = { s.fence a i with mem := m, phys := rules } := by
  cases h : s.access with
  | none => simp [State.fence, State.abandonAccess, h]
  | some x => simp [State.fence, State.abandonAccess, h]

/-- An exception is taken by the mode, `medeleg` and the trap registers alone (R127). -/
theorem State.takeException_of_mem_phys (s : State) (m : Memory) (rules : List DenyRule) (c : Nat) (v : Word) :
    { s with mem := m, phys := rules }.takeException c v =
      { s.takeException c v with mem := m, phys := rules } := by
  have hsame : { s with mem := m, phys := rules }.delegated c = s.delegated c := rfl
  unfold State.takeException
  rw [hsame]
  cases s.delegated c <;> rfl

/-- Settles O17, by whether the mode may execute the instruction. -/
theorem sfenceIgnoresMemoryAndChecks : Obligations.SfenceIgnoresMemoryAndChecks := by
  intro rs1 rs2 s t m rules ht
  cases hmay : s.mayFence with
  | true =>
    have hmode := (mayFence_iff s).mp hmay
    rw [eq_of_exec_sfenceVma hmode ht,
      exec_sfenceVma_of_mayFence (s := { s with mem := m, phys := rules }) rs1 rs2 hmode,
      State.fence_of_mem_phys]
    rfl
  | false =>
    have hmode := (mayFence_eq_false_iff s).mp hmay
    rw [exec_sfenceVma_of_not_mayFence rs1 rs2 hmode] at ht
    cases ht
    rw [exec_sfenceVma_of_not_mayFence (s := { s with mem := m, phys := rules }) rs1 rs2 hmode]
    exact congrArg _ (State.takeException_of_mem_phys { s with draws := s.draws + 1 } m rules _ _)

end Sys2Proof.Machine
end

section
/-! PROOFS. Exceptions: the codes, taking one and returning from it; what each event of an access's walk comes to in the
step; and which steps answer a fault, of what type and with what left unwritten. -/

namespace Sys2Proof.Machine

/-! ## The codes, entry and return -/

/-- Settles O59, a row of R121's table each. -/
theorem causeCodes : Obligations.CauseCodes := fun _ => ⟨rfl, rfl, rfl, rfl, rfl, rfl⟩

theorem State.takeExn_of_delegated {s : State} {e : Exn} (hm : s.mode ≠ .m)
    (hd : s.medeleg.getLsbD e.cause = true) : s.takeExn e = s.trapToS e.cause e.va := by
  rcases s.takeException_cases e.cause e.va with ⟨_, _, h⟩ | ⟨hno | hno, _⟩
  · exact h
  · exact absurd hno hm
  · exact absurd (hd.symm.trans hno) (by decide)

theorem State.takeExn_of_not_delegated {s : State} {e : Exn}
    (h : s.mode = .m ∨ s.medeleg.getLsbD e.cause = false) : s.takeExn e = s.trapToM e.cause e.va := by
  rcases s.takeException_cases e.cause e.va with ⟨hm, hd, _⟩ | ⟨_, hM⟩
  · rcases h with h | h
    · exact absurd h hm
    · exact absurd (hd.symm.trans h) (by decide)
  · exact hM

/-- Neither trap writes SUM or MXR: each bit it writes stands elsewhere. -/
theorem State.takeException_sum_mxr (s : State) (c : Nat) (v : Word) :
    msSum (s.takeException c v).mstatus = msSum s.mstatus ∧
      msMxr (s.takeException c v).mstatus = msMxr s.mstatus := by
  rcases s.takeException_cases c v with ⟨_, _, h⟩ | ⟨_, h⟩ <;> rw [h] <;> simp [withMpp]

/-- Settles O58, by whether the exception is delegated; the status word is that of `State.trapToM_status` or
`State.trapToS_status`. -/
theorem exceptionEntry : Obligations.ExceptionEntry := by
  intro s e
  obtain ⟨hsum, hmxr⟩ := s.takeException_sum_mxr e.cause e.va
  refine ⟨fun h => ?machine, fun ⟨hm, hd⟩ => ?supervisor, s.takeExn_atc e, s.takeExn_mem e, s.takeExn_regs e,
    hsum, hmxr⟩
  case machine =>
    obtain ⟨hmpp, hmpie, hmie⟩ := s.trapToM_status e.cause e.va
    rw [State.takeExn_of_not_delegated h]
    exact ⟨rfl, rfl, rfl, rfl, rfl, hmpp, hmpie, hmie, rfl, rfl, rfl⟩
  case supervisor =>
    obtain ⟨hspp, hspie, hsie⟩ := State.trapToS_status hm e.cause e.va
    rw [State.takeExn_of_delegated hm hd]
    exact ⟨rfl, rfl, rfl, rfl, rfl, hspp, hspie, hsie, rfl, rfl, rfl⟩

/-- SRET brings SIE back from SPIE (R127). -/
theorem State.msSie_sret (s : State) : msSie s.sret.mstatus = msSpie s.mstatus := by simp

/-- MRET brings MIE back from MPIE (R127). -/
theorem State.msMie_mret (s : State) : msMie s.mret.mstatus = msMpie s.mstatus := by simp [withMpp]

/-- Settles O60: the return reads back what `State.trapToS_status` and `State.trapToM_status` say the trap saved. -/
theorem returnsUndoTraps : Obligations.ReturnsUndoTraps := by
  intro s cause v
  refine ⟨fun hm => ⟨rfl, ?sretMode, ?sretEnable⟩, rfl, ?mretMode, ?mretEnable⟩
  case sretMode =>
    obtain ⟨hspp, _, _⟩ := State.trapToS_status hm cause v
    rw [State.sret_mode, hspp]
    cases h : s.mode
    case m => exact absurd h hm
    all_goals rfl
  case sretEnable =>
    obtain ⟨_, hspie, _⟩ := State.trapToS_status hm cause v
    exact (State.msSie_sret _).trans hspie
  case mretMode =>
    obtain ⟨hmpp, _, _⟩ := s.trapToM_status cause v
    rw [State.mret_mode, hmpp, modeOfBits_bits]
  case mretEnable =>
    obtain ⟨_, hmpie, _⟩ := s.trapToM_status cause v
    exact (State.msMie_mret _).trans hmpie

/-! ## An event of an access's walk in the step -/

/-- Settles O34: such an exception is `Walk.exn` of some kind. -/
theorem exceptionsHaveOriginalType : Obligations.ExceptionsHaveOriginalType := by
  intro w s e he
  obtain ⟨k, rfl⟩ := Walk.step_raise (s' := (w.step s).2) (Prod.ext he rfl)
  exact ⟨rfl, rfl⟩

section
variable {u u' : State} {g : Goal} {w : Walk} {n : Nat} {ps : List Piece} {rs : List PhysPiece}

section
variable (ha : u.access = some ⟨g, .walking w n ps rs⟩)
include ha

theorem hartMove_of_raise {e : Exn} (hw : w.step u = (.raise e, u')) :
    hartMove u = failAccess { u' with access := none } g e := by
  simp only [hartMove, ha, advanceAccess, hw]

theorem hartMove_of_more {w' : Walk} (hw : w.step u = (.more w', u')) :
    hartMove u = .out (.next { u' with access := some ⟨g, .walking w' n ps rs⟩ }) := by
  simp only [hartMove, ha, advanceAccess, hw]

theorem hartMove_of_unwritten (hw : w.step u = (.unwritten, u')) :
    hartMove u = .out (.fault .unwrittenMemory) := by
  simp only [hartMove, ha, advanceAccess, hw]

end

section
variable {pa : PAddr} (hok : u'.physOk pa n w.acc false w.priv = true)
include hok

/-- The last piece translated and checked, the access is ready (R34). -/
theorem pieceDone_last : pieceDone u' g w n [] rs pa =
    .out (.next { u' with access := some ⟨g, .ready (rs ++ [⟨pa, n⟩])⟩ }) := by
  simp only [pieceDone, hok, if_true]

/-- A further piece is walked from `satp`, as the first was (R38, D17). -/
theorem pieceDone_next (p : Piece) : pieceDone u' g w n (p :: ps) rs pa =
    .out (.next { u' with
      access := some ⟨g, .walking (Walk.start u' p.va w.acc w.priv false) p.n ps (rs ++ [⟨pa, n⟩])⟩ }) := by
  simp only [pieceDone, hok, if_true]

end

end

/-- Settles O49, outcome by outcome of the walk's event, and for a translated piece by its final check and by whether
another piece follows. -/
theorem finalCheckFollowsTranslation : Obligations.FinalCheckFollowsTranslation := by
  intro s u u' g w n ps rs ht ha
  refine ⟨fun e hw => step_of_failAccess ht (hartMove_of_raise ha hw),
    fun w' hw => step_of_out ht (hartMove_of_more ha hw),
    fun hw => step_of_out ht (hartMove_of_unwritten ha hw), fun pa hw => ⟨fun hno => ?denied, fun hok => ?passed⟩⟩
  case denied => exact step_of_failAccess ht ((hartMove_of_done ha hw).trans (pieceDone_denied hno))
  case passed =>
    refine ⟨?last, fun p more hps => ?next⟩
    case last =>
      rintro rfl
      exact step_of_out ht ((hartMove_of_done ha hw).trans (pieceDone_last hok))
    case next =>
      subst hps
      have hstep := step_of_out ht ((hartMove_of_done ha hw).trans (pieceDone_next hok p))
      have hsatp := (Walk.same_of_step hw).satp
      refine ⟨Walk.start u' p.va w.acc w.priv false, hstep,
        rfl, rfl, rfl, rfl, rfl, rfl, rfl, rfl, rfl, rfl, congrArg satpAsid hsatp, ?_⟩
      exact congrArg (fun x => satpPpn x ++ vaVpn1 p.va ++ 0#2) hsatp

/-! ## The steps that answer a fault -/

/-- From `s` to `t` no fault is answered. -/
def AnswersNoFault (s t : State) : Prop := ∀ e, t.replies ≠ s.replies ++ [.faulted e]

theorem AnswersNoFault.of_eq {s t : State} (h : t.replies = s.replies) : AnswersNoFault s t := by
  intro e he
  simp [h] at he

/-- Another answer is no fault. -/
theorem AnswersNoFault.of_answer {s t : State} {x : Reply} (h : t.replies = s.replies ++ [x])
    (hx : ∀ e, x ≠ .faulted e) : AnswersNoFault s t := by
  intro e he
  rw [h] at he
  exact hx e (by simpa using he)

theorem performRequest_answersNoFault {s t : State} {r : Request} {ps : List PhysPiece}
    (h : performRequest s r ps = .out (.next t)) : AnswersNoFault s t := by
  rcases performRequest_cases s r ps with hp | ⟨_, hp, _, _, _, x, hx, hne⟩ <;> rw [hp] at h <;> cases h
  exact .of_answer hx hne

theorem exec_replies {i : Instr} {s t : State} (h : exec i s = .next t) : t.replies = s.replies := by
  rcases exec_next h with ⟨a, asid, rfl⟩ | rfl <;> simp

/-- The enclosing hart's other acts answer a register's value, or that a store-conditional failed, or nothing. -/
theorem hartOp_answersNoFault {s t : State} {op : HartOp} (hi : op ≠ .instr)
    (hop : (∀ r, op ≠ .access r) ∨ ∃ r v, op = .access r ∧ r.kind = .sc v .failUntranslated)
    (h : hartOp s op = .out (.next t)) : AnswersNoFault s t := by
  rcases hartOp_cases hi hop h with ⟨c, v, _, rfl⟩ | ⟨_, _, rfl⟩ | ⟨r, v, _, rfl⟩ | ⟨_, _, rfl⟩ |
    ⟨_, _, rfl⟩ | ⟨_, rfl⟩ | ⟨c, v, _, rfl⟩ | ⟨_, rfl⟩ | ⟨_, rfl⟩ | ⟨_, _, _, _, rfl⟩
  · exact .of_eq (State.setCsr_replies s c v)
  · exact .of_answer (State.reply_replies ..) nofun
  · exact .of_eq (State.setReg_replies s r v)
  · exact .of_eq rfl
  · exact .of_eq rfl
  · exact .of_eq rfl
  · exact .of_eq (State.takeException_replies s c v)
  · exact .of_eq rfl
  · exact .of_eq rfl
  · exact .of_answer (State.reply_replies ..) nofun

/-- An event outside the hart's program answers nothing. -/
theorem envEvent_replies (s : State) (ev : EnvEvent) : (s.envEvent ev).replies = s.replies := by
  cases ev with
  | specStart va acc priv =>
    simp only [State.envEvent, State.specStart]
    split <;> rfl
  | specStep k =>
    obtain ⟨_, _, _, _, _, _, hreplies, _⟩ := (specStep_same s k).hart
    exact hreplies
  | interrupt => exact State.abandonAccess_replies s
  | _ => rfl

/-- The three ways in which a request ends in a fault that the enclosing hart is told of (R120, R123). -/
inductive FaultAct (s : State) (r : Request) (e : Exn) : State → Prop
  /-- It is not translated, and a piece fails its check (R23). -/
  | untranslated {u t} : s.Begins (.request r) u →
      checkBare u r.kind.acc (u.effectiveMode r.kind.acc) (pieces r.va r.size.bytes) = .error e →
      failAccess u (.request r) e = .out (.next t) → FaultAct s r e t
  /-- Its walk raises an exception. -/
  | walk {w n ps rs s' t} : s.access = some ⟨.request r, .walking w n ps rs⟩ → w.step s = (.raise e, s') →
      failAccess { s' with access := none } (.request r) e = .out (.next t) → FaultAct s r e t
  /-- A translated piece fails the final check (R22). -/
  | finalCheck {w n ps rs pa s' t} : s.access = some ⟨.request r, .walking w n ps rs⟩ →
      w.step s = (.done pa, s') → e = w.exn .accessFault →
      failAccess { s' with access := none } (.request r) e = .out (.next t) → FaultAct s r e t

/-- A fault that is answered is that of a request, and the one the access failed with. -/
theorem failAccess_faulted {s t : State} {g : Goal} {e e' : Exn} (h : failAccess s g e = .out (.next t))
    (hr : t.replies = s.replies ++ [.faulted e']) : (∃ r, g = .request r) ∧ e' = e := by
  rcases failAccess_cases s g e with ⟨_, _, hf⟩ | ⟨r, hg, hf⟩ <;> rw [hf] at h <;> cases h
  · exact absurd hr (AnswersNoFault.of_eq (State.takeExn_replies s e) e')
  · rw [State.takeExn_replies, State.reply_replies] at hr
    exact ⟨⟨r, hg⟩, by simpa using hr.symm⟩

/-- On the hart's turn a fault is answered in one of the three ways and in no other. -/
theorem HartAct.faultAct {s t : State} {e : Exn} (h : HartAct s t) (hr : t.replies = s.replies ++ [.faulted e]) :
    ∃ r, FaultAct s r e t := by
  have hbegun : ∀ {g u}, s.Begins g u → u.replies = s.replies := fun hb => by
    obtain ⟨_, ops, rfl⟩ := hb.eq_ops
    rfl
  have hwalked : ∀ {w : Walk} {o s'}, w.step s = (o, s') → s'.replies = s.replies := fun hw =>
    (Walk.same_of_step hw).replies
  cases h with
  | walkStart hb _ _ => exact absurd hr (AnswersNoFault.of_eq (hbegun hb) e)
  | bareDenied hb _ hc hf =>
    rw [← hbegun hb] at hr
    obtain ⟨⟨r, rfl⟩, rfl⟩ := failAccess_faulted hf hr
    exact ⟨r, .untranslated hb hc hf⟩
  | barePerform hb _ _ hp =>
    rw [← hbegun hb] at hr
    exact absurd hr (performRequest_answersNoFault hp e)
  | bareRun hb hx => exact absurd hr (AnswersNoFault.of_eq ((exec_replies hx).trans (hbegun hb)) e)
  | walkMore _ hw => exact absurd hr (AnswersNoFault.of_eq (hwalked hw) e)
  | walkRaise ha hw hf =>
    rw [← hwalked hw] at hr
    obtain ⟨⟨r, rfl⟩, rfl⟩ := failAccess_faulted hf hr
    exact ⟨r, .walk ha hw hf⟩
  | pieceReady _ hw _ => exact absurd hr (AnswersNoFault.of_eq (hwalked hw) e)
  | pieceNext _ hw _ => exact absurd hr (AnswersNoFault.of_eq (hwalked hw) e)
  | pieceDenied ha hw _ hf =>
    rw [← hwalked hw] at hr
    obtain ⟨⟨r, rfl⟩, rfl⟩ := failAccess_faulted hf hr
    exact ⟨r, .finalCheck ha hw rfl hf⟩
  | perform _ hp => exact absurd hr (performRequest_answersNoFault hp e)
  | run _ hx => exact absurd hr (AnswersNoFault.of_eq (exec_replies hx) e)
  | other _ _ hi hop hh => exact absurd hr (hartOp_answersNoFault hi hop hh e)

/-! ## The type of the fault -/

/-- The request that the hart's turn is about: the one in progress, or the one that begins. -/
def State.Asks (s : State) (r : Request) : Prop :=
  (∃ ph, s.access = some ⟨.request r, ph⟩) ∨ ∃ v, s.Begins (.request r) v

theorem State.Begins.request_inj {s u v : State} {r r' : Request} (h : s.Begins (.request r) u)
    (h' : s.Begins (.request r') v) : r = r' := by
  rcases h with ⟨_, _, _, ho, _, hg, _⟩ | ⟨hg, _⟩ <;> cases hg
  rcases h' with ⟨_, _, _, ho', _, hg', _⟩ | ⟨hg', _⟩ <;> cases hg'
  cases ho.symm.trans ho'
  rfl

/-- It is about one request. -/
theorem State.Asks.inj {s : State} {r r' : Request} (h : s.Asks r) (h' : s.Asks r') : r = r' := by
  rcases h with ⟨_, ha⟩ | ⟨_, hb⟩ <;> rcases h' with ⟨_, ha'⟩ | ⟨_, hb'⟩
  · cases ha.symm.trans ha'
    rfl
  · cases ha.symm.trans hb'.eq_ops.1
  · cases ha'.symm.trans hb.eq_ops.1
  · exact hb.request_inj hb'

theorem FaultAct.asks {s t : State} {r : Request} {e : Exn} (h : FaultAct s r e t) : s.Asks r := by
  cases h with
  | untranslated hb _ _ => exact .inr ⟨_, hb⟩
  | walk ha _ _ => exact .inl ⟨_, ha⟩
  | finalCheck ha _ _ _ => exact .inl ⟨_, ha⟩

/-- The fault is of the request's type: an untranslated one checks for that type, and its walk is made for it (R120). -/
theorem FaultAct.acc_eq {s t : State} {r : Request} {e : Exn} (hs : s.AccessLegal) (h : FaultAct s r e t) :
    e.acc = r.kind.acc := by
  cases h with
  | untranslated _ hc _ =>
    obtain ⟨_, _, _, _, rfl, _⟩ := checkBare_error hc
    rfl
  | walk ha hw _ =>
    obtain ⟨_, hwalk⟩ := hs _ ha
    obtain ⟨_, _, hacc⟩ := hwalk _ _ _ _ rfl
    obtain ⟨_, rfl⟩ := Walk.step_raise hw
    exact hacc
  | finalCheck ha _ he _ =>
    obtain ⟨_, hwalk⟩ := hs _ ha
    obtain ⟨_, _, hacc⟩ := hwalk _ _ _ _ rfl
    subst he
    exact hacc

/-- The hart's turn takes at most an event off the schedule. -/
theorem State.HartsTurn.eq_env {s u : State} (h : s.HartsTurn u) : ∃ env, u = { s with env := env } := by
  rcases h with ⟨_, rfl⟩ | ⟨rest, _, rfl⟩
  · exact ⟨u.env, rfl⟩
  · exact ⟨rest, rfl⟩

/-- Settles O46: the fault is of `r.kind.acc`, which R57 reads off the kind. -/
theorem faultsHaveOriginalAccessType : Obligations.FaultsHaveOriginalAccessType := by
  intro s u t r e hinv ht hasks hstep hr
  have hact : HartAct u t := hartTurn_act ((step_of_turn ht).symm.trans hstep)
  obtain ⟨env, rfl⟩ := ht.eq_env
  obtain ⟨_, _, _, _, _, _, haccess⟩ := hinv
  have hlegal : { s with env := env }.AccessLegal := State.AccessLegal.congr haccess rfl rfl rfl
  obtain ⟨r', hfault⟩ := hact.faultAct hr
  have hacc : e.acc = r.kind.acc := by
    rw [State.Asks.inj hasks hfault.asks]
    exact hfault.acc_eq hlegal
  rw [hacc]
  refine ⟨fun hk => ?fetch, ?load, ?store⟩
  case fetch => rw [hk]; rfl
  case load => rintro (hk | ⟨_, _, hk⟩) <;> rw [hk] <;> rfl
  case store => rintro (⟨_, hk⟩ | ⟨_, _, hk⟩ | ⟨_, hk⟩) <;> rw [hk] <;> rfl

/-! ## What a page-fault leaves unwritten -/

/-- The event in which a walk raises an exception writes no memory (R93). -/
theorem Walk.mem_of_raise {w : Walk} {s s' : State} {e : Exn} (h : w.step s = (.raise e, s')) :
    s'.mem = s.mem := by
  rcases w.step_mem s with hmem | ⟨_, _, _, _, _, hdone⟩
  · rwa [h] at hmem
  · rw [h] at hdone
    cases hdone

/-- A page-fault is a walk's, since the checks raise access-faults, and the walk writes nothing where it raises it. -/
theorem FaultAct.writes_nothing {s t : State} {r : Request} {e : Exn} (h : FaultAct s r e t)
    (hk : e.kind = .pageFault) : t.mem = s.mem ∧ t.reservation = s.reservation := by
  cases h with
  | untranslated _ hc _ =>
    obtain ⟨_, _, _, _, rfl, _⟩ := checkBare_error hc
    cases hk
  | walk _ hw hf =>
    rw [failAccess_mem hf, failAccess_reservation hf]
    exact ⟨(Walk.mem_of_raise hw :), (Walk.same_of_step hw).reservation⟩
  | finalCheck _ _ he _ =>
    subst he
    cases hk

/-- Settles O47: on the hart's turn by `FaultAct.writes_nothing`; no other event answers anything. -/
theorem pageFaultingAccessWritesNothing : Obligations.PageFaultingAccessWritesNothing := by
  intro s t e hstep hr hk
  rcases step_cases hstep with ⟨_, ha⟩ | ⟨rest, _, ha⟩ | ⟨ev, rest, _, _, rfl⟩
  · obtain ⟨_, hfault⟩ := ha.faultAct hr
    exact hfault.writes_nothing hk
  · obtain ⟨_, hfault⟩ := HartAct.faultAct (s := { s with env := rest }) ha hr
    exact hfault.writes_nothing hk
  · exact absurd hr (AnswersNoFault.of_eq (envEvent_replies { s with env := rest } ev) e)

end Sys2Proof.Machine
end

section
/-! PROOFS. Reset: what R135 fixes of the machine right after it, and that this machine meets the invariant. -/

namespace Sys2Proof.Machine

/-! ## The fields R135 fixes -/

@[simp] theorem State.reset_spec : State.reset.spec = [] := rfl

@[simp] theorem State.reset_access : State.reset.access = none := rfl

@[simp] theorem State.reset_reservation : State.reset.reservation = none := rfl

/-- Settles O9, field by field; MPRV is a bit of the zero status word. -/
theorem resetState : Obligations.ResetState := by
  refine ⟨?mode, ?mprv, State.reset_spec, State.reset_access, State.reset_reservation, ?unwritten⟩
  case mode => rfl
  case mprv => decide
  case unwritten => exact Memory.read_nil

/-! ## The invariant at reset -/

/-- Zero has no ASID bit to lose, however many of them are implemented (R47). -/
theorem legalSatp_zero (len : Nat) : legalSatp len 0#32 = 0#32 := by
  have hasid : satpAsid 0#32 = 0#9 := by decide
  rw [legalSatp, hasid, BitVec.zero_and]
  decide

/-- Settles O7: the registers are zero words, which are legal, and with no reservation, walk or access there is
nothing that could be illegal. -/
theorem resetMeetsInvariant : Obligations.ResetMeetsInvariant := by
  refine ⟨reset_mem_wf, ?mpp, legalSatp_zero _, ?cfg, ?reservation, ?flight, ?access⟩
  case mpp => decide
  case cfg => rfl
  case reservation => simp
  case flight => simp
  case access => simp

end Sys2Proof.Machine
end

section
/-! PROOFS. Integer registers, the store-conditional at its translated bytes, and the instruction that `withFetchWord`
places. -/

namespace Sys2Proof.Machine

/-! ## Integer registers -/

/-- Settles O54, each read by `State.reg_setReg`. -/
theorem registerZeroIsHardwired : Obligations.RegisterZeroIsHardwired := by
  intro s r v hr
  refine ⟨State.reg_zero _, State.setReg_zero s v, fun h0 => ?same, fun q hq => ?other, State.setReg_pc s r v,
    State.setReg_mem s r v⟩
  case same => rw [State.reg_setReg, if_pos ⟨rfl, h0, hr⟩]
  case other => rw [State.reg_setReg, if_neg fun h => hq h.1]

/-! ## The store-conditional -/

theorem performRequest_sc (s : State) (va : Word) (size : Size) (ps : List PhysPiece) (d : Datum) (plan : ScPlan) :
    performRequest s ⟨.sc d plan, va, size⟩ ps =
      .out (.next (s.storeConditional ps size.bytes d (decide (plan = .succeed)))) := rfl

theorem State.reserves_iff (s : State) (ps : List PhysPiece) :
    s.reserves ps = true ↔ ∃ r, s.reservation = some r ∧ ∀ a ∈ pieceAddrs ps, r.lo ≤ a ∧ a < r.hi := by
  unfold State.reserves
  cases s.reservation with
  | none => simp
  | some r => simp

/-- No reservation is held, or the one held leaves out a byte of the pieces. -/
theorem State.reserves_eq_false_iff (s : State) (ps : List PhysPiece) :
    s.reserves ps = false ↔ ∀ r, s.reservation = some r → ∃ a ∈ pieceAddrs ps, a < r.lo ∨ r.hi ≤ a := by
  rw [← Bool.not_eq_true, State.reserves_iff]
  simp only [not_exists, not_and, not_forall, exists_prop, or_iff_not_imp_left, Nat.not_lt]

/-- Settles O52, by whether the bytes are reserved when the store-conditional is performed. -/
theorem storeConditionalUsesReservation : Obligations.StoreConditionalUsesReservation := by
  intro s u va size v ps ht ha
  have hstep := step_of_ready ht ha (performRequest_sc ..)
  refine ⟨_, hstep, ?_⟩
  rcases State.storeConditional_cases { u with access := none } ps size.bytes v true with
    ⟨_, hheld, h⟩ | ⟨hno, h⟩ <;> simp only [decide_true, h]
  · obtain ⟨_, hstored, hframe, _⟩ :=
      State.storeAt_reply { u with access := none } ps size.bytes v (.scDone ps true)
    refine ⟨rfl, rfl, fun _ => ⟨rfl, hstored, hframe⟩, fun hshort => ?_⟩
    rw [(State.reserves_eq_false_iff { u with access := none } ps).mpr hshort] at hheld
    cases hheld
  · have hfree : State.reserves { u with access := none } ps = false := by simpa using hno
    refine ⟨rfl, rfl, fun hheld => ?_, fun _ => ⟨rfl, rfl⟩⟩
    rw [(State.reserves_iff { u with access := none } ps).mpr hheld] at hfree
    cases hfree

/-! ## The bytes of an untranslated access -/

/-- A byte of a page, at its zero-extended address (R24): inside the page no carry leaves the 32 bits. -/
theorem toNat_setWidth_add {va : Word} {i : Nat} (h : va.toNat % 4096 + i < 4096) :
    (va.setWidth 34 + BitVec.ofNat 34 i).toNat = (va + BitVec.ofNat 32 i).toNat := by
  have := va.isLt
  simp only [BitVec.toNat_add, BitVec.toNat_setWidth, BitVec.toNat_ofNat]
  omega

theorem byteAddrs_setWidth {va : Word} {n : Nat} (h : va.toNat % 4096 + n ≤ 4096) :
    byteAddrs (va.setWidth 34) n = (List.range n).map fun i => (va + BitVec.ofNat 32 i).toNat := by
  refine List.map_congr_left fun i hi => toNat_setWidth_add ?_
  have := List.mem_range.mp hi
  omega

/-- The pieces of an access of at most a page, zero-extended, hold its bytes in the order of their virtual
addresses, which wrap at the top of the space (R38, R24). -/
theorem pieceAddrs_bare (va : Word) {n : Nat} (hn : n ≤ 4096) :
    pieceAddrs ((pieces va n).map fun p => ⟨p.va.setWidth 34, p.n⟩) =
      (List.range n).map fun i => (va + BitVec.ofNat 32 i).toNat := by
  have hoff := vaPgoff_lt va
  have hva := toNat_vaPgoff va
  rcases pieces_cases va n with ⟨hfits, h⟩ | ⟨hspans, h⟩ <;> rw [h]
  · simp only [List.map_cons, List.map_nil, pieceAddrs_singleton]
    exact byteAddrs_setWidth (by omega)
  · generalize hroom : 4096 - (vaPgoff va).toNat = room at *
    have hnext : (va + BitVec.ofNat 32 room).toNat % 4096 = 0 := by
      rw [← toNat_vaPgoff, ← hroom, vaPgoff_nextPage]
      rfl
    obtain ⟨rest, rfl⟩ := Nat.exists_eq_add_of_le hspans.le
    simp only [List.map_cons, List.map_nil, pieceAddrs, List.flatMap_cons, List.flatMap_nil, List.append_nil]
    rw [byteAddrs_setWidth (by omega), byteAddrs_setWidth (by omega), Nat.add_sub_cancel_left, List.range_add,
      List.map_append, List.map_map]
    simp [Function.comp_def, Nat.add_assoc]

/-- A run that is no longer than the address space names no address twice. -/
theorem toNat_add_ofNat_nodup {k : Nat} (x : BitVec k) {n : Nat} (h : n ≤ 2 ^ k) :
    ((List.range n).map fun i => (x + BitVec.ofNat k i).toNat).Nodup := by
  refine List.Nodup.map_on (fun i hi j hj hij => ?_) List.nodup_range
  rw [List.mem_range] at hi hj
  have hofNat : BitVec.ofNat k i = BitVec.ofNat k j := add_left_cancel (BitVec.eq_of_toNat_eq hij)
  simpa [Nat.mod_eq_of_lt (hi.trans_le h), Nat.mod_eq_of_lt (hj.trans_le h)] using congrArg BitVec.toNat hofNat

/-! ## The placed word -/

theorem State.fetchPieces_nodup (s : State) : (pieceAddrs s.fetchPieces).Nodup := by
  rw [State.fetchPieces, pieceAddrs_bare s.pc (by omega)]
  exact toNat_add_ofNat_nodup s.pc (by omega)

theorem State.length_fetchPieces (s : State) : (pieceAddrs s.fetchPieces).length = 4 := by
  rw [State.fetchPieces, pieceAddrs_bare s.pc (by omega), List.length_map, List.length_range]

/-- The bytes of a placed word stand where the fetch reads, one piece or two, wrapping or not. -/
theorem State.placeWord_readAll (s : State) (w : Word) :
    (s.placeWord w).mem.readAll (pieceAddrs s.fetchPieces) = some (bytesOfWord w) :=
  Memory.readAll_writeAll _ _ _ s.fetchPieces_nodup s.length_fetchPieces

theorem State.fetchesDirectly_iff (s : State) :
    s.fetchesDirectly = true ↔
      s.translates s.mode = false ∧ ∀ p ∈ s.fetchPieces, s.physOk p.pa p.n .fetch false s.mode = true := by
  simp only [State.fetchesDirectly, Bool.and_eq_true, Bool.not_eq_true', List.all_eq_true]

/-- The hart's next event in a placed state fetches the word, directly or as a fetch already translated. -/
theorem State.placeWord_fetches (s : State) (w : Word) :
    (s.placeWord w).Fetches (bytesOfWord w) { s.placeWord w with access := none } := by
  by_cases hd : s.fetchesDirectly = true
  · obtain ⟨htr, hok⟩ := s.fetchesDirectly_iff.mp hd
    have hnone : (s.placeWord w).access = none := if_pos hd
    have hsame : { s.placeWord w with access := none } = s.placeWord w := by rw [← hnone]
    rw [hsame]
    exact .inl ⟨⟨hnone, .inl ⟨rfl, rfl⟩⟩, htr, hok, s.placeWord_readAll w⟩
  · have haccess : (s.placeWord w).access = some ⟨.instr s.pc, .ready s.fetchPieces⟩ := if_neg hd
    exact .inr ⟨s.pc, s.fetchPieces, haccess, s.placeWord_readAll w, rfl⟩

/-- The decoder reads from the bytes of a table word what it reads from the word (R28). -/
theorem decodeTableWord_eq_some_iff {nbits w : Nat} {i : Instr} :
    decodeTableWord nbits w = some i ↔ decodeWord (tableWord nbits w) = .ok i := by
  simp only [decodeTableWord, decode, bytesOfWord, wordOfBytes_bytes]
  cases decodeWord (tableWord nbits w) with
  | ok j => simp
  | error e => simp

/-- Settles O6: the placed word is what the step fetches, and it decodes to the instruction. -/
theorem placedWordRunsNext : Obligations.PlacedWordRunsNext := by
  intro s w i hi
  refine stepRunsDecodedInstruction _ _ _ _ _ _ _ i (.inl ⟨rfl, rfl⟩) (s.placeWord_fetches (tableWord 32 w)) ?_
  rw [wordOfBytes_bytes]
  exact decodeTableWord_eq_some_iff.mp hi

end Sys2Proof.Machine
end
